-- ==== Sys2Proof/Word.lean ====
section
/-! DEFINITION. The widths of the block (00_scope.md R8): bytes, VP addresses, lengths, slot addresses, lane masks. -/

namespace Sys2Proof

/-- One 8-bit data lane, one byte of VP memory, or one handshake register (R8, R24). -/
abbrev Byte := BitVec 8

/-- A 16-bit VP address: the name of one VP word (R8, R61). -/
abbrev VpAddr := BitVec 16

/-- A request's byte length (R8). -/
abbrev Len := BitVec 16

/-- A 24-bit slot address (R8, R62). -/
abbrev SlotAddr := BitVec 24

/-- A 4-bit lane-enable mask, bit `n` for lane `n` (R8, R31). -/
abbrev Mask := BitVec 4

end Sys2Proof
end

