-- ==== Sys2Proof/Config.lean ====
section
/-! DEFINITION. What 00_scope.md R9 leaves to the implementation and the spec's decisions fix as a constant, and the
byte an unlisted address of VP memory reads as.  The parameters that R9 leaves OPEN are plain data in `State`, so that every
statement over all states holds for every value of them: `SLOT_BACKED`, `DEVICE_ACKS` and `ENV_WRITES` in `State.par`,
`IRQ_PRIORITY` in the order of the turns in `State.sched`. -/

namespace Sys2Proof.Config

/-- `CTRL_REQ_BIT` (R9, D4): the request bit of the mode/control register. -/
def ctrlReqBit : Nat := 7

/-- `CTRL_DIR_BIT` (R9, D4): the direction bit, 1 = read. -/
def ctrlDirBit : Nat := 5

/-- The two reserved bits of the mode/control register (R28, R32). -/
def ctrlReservedBits : List Nat := [6, 4]

/-- Number of linear bytes the 24-bit slot space names: `2^24` slots of four bytes (R33, R64). -/
def vpmBytes : Nat := 2 ^ 26

/-- What a byte of VP memory that nothing has written reads as.
DESIGN CHOICE, unsafe: R260 leaves every slot unspecified at reset (assumption log 2). -/
def vpmUnlisted : Byte := 0

end Sys2Proof.Config
end

