-- ==== Sys2Proof/Syntax.lean ====
section
/-! DEFINITION. The thirteen operations of 30_encoding.md R100, with their operands, and the words of R101's four formats
that carry them. -/

namespace Sys2Proof

/-- The direction of a request or of a transaction (R21, R30): `Write` = 0, `Read` = 1. -/
inductive Dir where
  | write
  | read
deriving DecidableEq, Repr

/-- The four data lanes (R27); lane 3 is the most significant byte of the even VP word. -/
inductive Lane where
  | l0
  | l1
  | l2
  | l3
deriving DecidableEq, Repr

/-- One constructor per row of the operation table (R100). -/
inductive Instr where
  /-- `VP_WRITE(address, buffer, length)` (R170); the buffer is a separate byte port (R102). -/
  | vpWrite (addr : VpAddr) (len : Len)
  /-- `VP_READ(address, buffer, length)` (R180). -/
  | vpRead (addr : VpAddr) (len : Len)
  /-- `SET_TARGET(slot_address)` (R130). -/
  | setTarget (slot : SlotAddr)
  /-- `SET_AUTO_INCREMENT(enabled)` (R131). -/
  | setAutoIncrement (enabled : Bool)
  /-- `LOAD_LANE(lane, value)` (R132). -/
  | loadLane (lane : Lane) (value : Byte)
  /-- `READ_LANE(lane) -> u8` (R133). -/
  | readLane (lane : Lane)
  /-- `EXECUTE_WRITE(lane_mask)` (R134). -/
  | executeWrite (mask : Mask)
  /-- `EXECUTE_READ` (R135). -/
  | executeRead
  /-- `POLL_CTRL` (R136). -/
  | pollCtrl
  /-- `DEV_COMPLETE` (R137), with the two fields of its enabling pattern `1 0 d 0 m m m m` (R114). -/
  | devComplete (dir : Dir) (mask : Mask)
  /-- `RELEASE` (R138). -/
  | release
  /-- `IRQ_MASK` (R190). -/
  | irqMask
  /-- `IRQ_RESTORE` (R191). -/
  | irqRestore
deriving DecidableEq, Repr

/-- A word of one of the four formats of R101.  The format is told from the interface a word arrives on, not from the
word. -/
inductive PortWord where
  /-- A request word on the request port (R102). -/
  | req33 (w : BitVec 33)
  /-- One access to one handshake register (R103). -/
  | hsev13 (w : BitVec 13)
  /-- A value of the mode/control register, as the Device sees it stored (R105, R114). -/
  | ctrl8 (w : Byte)
  /-- One bit on the interrupt-mask port (R108). -/
  | ieev1 (w : BitVec 1)
deriving DecidableEq, Repr

/-- The names of R101's formats. -/
inductive Format where
  | req33
  | hsev13
  | ctrl8
  | ieev1
deriving DecidableEq, Repr

/-- The format of a word. -/
def PortWord.format : PortWord → Format
  | .req33 _ => .req33
  | .hsev13 _ => .hsev13
  | .ctrl8 _ => .ctrl8
  | .ieev1 _ => .ieev1

/-- The formats of an operation's words, in issue order (R100, R101): `SET_TARGET` is three register writes. -/
def Instr.formats : Instr → List Format
  | .vpWrite _ _ => [.req33]
  | .vpRead _ _ => [.req33]
  | .setTarget _ => [.hsev13, .hsev13, .hsev13]
  | .setAutoIncrement _ => [.hsev13]
  | .loadLane _ _ => [.hsev13]
  | .readLane _ => [.hsev13]
  | .executeWrite _ => [.hsev13]
  | .executeRead => [.hsev13]
  | .pollCtrl => [.hsev13]
  | .devComplete _ _ => [.ctrl8]
  | .release => [.hsev13]
  | .irqMask => [.ieev1]
  | .irqRestore => [.ieev1]

end Sys2Proof
end

