-- ==== Sys2Proof/WellFormed.lean ====
section
/-! DEFINITION. Which operations are well formed: those that use none of the reserved operand values of 30_encoding.md
R116.  Every other operand of R100 may take every value its field admits. -/

namespace Sys2Proof

/-- A transaction's direction and mask are not reserved (R116): a read takes part with all four lanes, a write with at
least one. -/
def transactionLegal : Dir → Mask → Bool
  | .write, m => m != 0
  | .read, m => m == 0b1111

/-- An operation uses no reserved operand value (R116). -/
def Instr.wellFormed : Instr → Bool
  | .vpWrite _ _ => true
  | .vpRead _ _ => true
  | .setTarget _ => true
  | .setAutoIncrement _ => true
  | .loadLane _ _ => true
  | .readLane _ => true
  | .executeWrite m => transactionLegal .write m
  | .executeRead => true
  | .pollCtrl => true
  | .devComplete d m => transactionLegal d m
  | .release => true
  | .irqMask => true
  | .irqRestore => true

/-- The six masks the Engine itself uses in a write transaction (R78, R106).  A well-formed `EXECUTE_WRITE` may carry
another non-empty mask; no passage of the source exercises those (R116, U5; assumption log 6). -/
def engineMask (m : Mask) : Bool :=
  m == 0b0010 || m == 0b0011 || m == 0b1000 || m == 0b1100 || m == 0b1110 || m == 0b1111

end Sys2Proof
end

