-- ==== Sys2Proof/Decode.lean ====
section
/-! DEFINITION. Decoding of port words into operations and the encoder, both from the field tables of 30_encoding.md
(R102 to R105, R108, R109, R113, R114) and its list of reserved words (R116). -/

namespace Sys2Proof

/-- Why a word or a sequence of words stands for no operation. -/
inductive DecodeError where
  /-- There is no word to decode. -/
  | noWord
  /-- `HSEV13` with a reserved register index (R104, R116). -/
  | reservedIndex
  /-- `HSEV13` read of `ADDR_*` or `AUTOINC` (R116). -/
  | registerNotReadable
  /-- `HSEV13` read whose value field is not 0 (R103). -/
  | readWithValue
  /-- `ADDR_H`, `ADDR_M`, `ADDR_L` writes that do not come together in this order (R114). -/
  | brokenTarget
  /-- `AUTOINC` written with a value other than `0x00` or `0x01` (R116). -/
  | autoIncValue
  /-- `CTRL8` with bit 6 or bit 4 set (R116). -/
  | reservedCtrlBits
  /-- `CTRL8` written with `REQ = 1`, `DIR = 1` and a mask other than `1111` (R116). -/
  | maskedRead
  /-- `CTRL8` written with `REQ = 0` and other bits set (R116). -/
  | idleCtrlNotZero
  /-- A stored `CTRL` value that does not enable the Device (R114). -/
  | deviceNotRequested
deriving DecidableEq, Repr

/-! ## Fields -/

/-- The number of a lane (R27). -/
def Lane.index : Lane → Nat
  | .l0 => 0
  | .l1 => 1
  | .l2 => 2
  | .l3 => 3

/-- The two low bits of a lane's register index (R104). -/
def Lane.bits : Lane → BitVec 2
  | .l0 => 0
  | .l1 => 1
  | .l2 => 2
  | .l3 => 3

/-- The lane of a two-bit lane number (R104). -/
def Lane.ofBits (n : BitVec 2) : Lane :=
  if n = 0 then .l0 else if n = 1 then .l1 else if n = 2 then .l2 else .l3

/-- The direction bit: 0 = write, 1 = read (R102, R105). -/
def Dir.bit : Dir → Bool
  | .write => false
  | .read => true

/-- The direction of a direction bit. -/
def Dir.ofBit : Bool → Dir
  | false => .write
  | true => .read

/-- An `HSEV13` word from its three fields (R103). -/
def registerEvent (isWrite : Bool) (reg : BitVec 4) (val : Byte) : BitVec 13 :=
  (BitVec.ofBool isWrite ++ reg) ++ val

/-- Bit 12 of an `HSEV13`: 1 = register write (R103). -/
def eventIsWrite (w : BitVec 13) : Bool := w.getLsbD 12

/-- The register index of an `HSEV13` (R103). -/
def eventReg (w : BitVec 13) : BitVec 4 := w.extractLsb' 8 4

/-- The value field of an `HSEV13` (R103). -/
def eventVal (w : BitVec 13) : Byte := w.extractLsb' 0 8

/-- A `REQ33` word from its three fields (R102). -/
def requestWord (op : Dir) (addr : VpAddr) (len : Len) : BitVec 33 :=
  (BitVec.ofBool op.bit ++ addr) ++ len

/-- A `CTRL8` value that requests a transaction: `1 0 d 0 m m m m` (R105, R114). -/
def controlStart (d : Dir) (m : Mask) : Byte :=
  (match d with
    | .write => 0b1000#4
    | .read => 0b1010#4) ++ m

/-- Bits 7:4 of a `CTRL8`: `REQ`, reserved, `DIR`, reserved (R105). -/
def controlHigh (c : Byte) : BitVec 4 := c.extractLsb' 4 4

/-- Bits 3:0 of a `CTRL8`: the lane mask (R105). -/
def controlLow (c : Byte) : Mask := c.extractLsb' 0 4

/-! ## Register indices (R104) -/

/-- Index of `ADDR_H`. -/
def regAddrH : BitVec 4 := 0b0000
/-- Index of `ADDR_M`. -/
def regAddrM : BitVec 4 := 0b0001
/-- Index of `ADDR_L`. -/
def regAddrL : BitVec 4 := 0b0010
/-- Index of `AUTOINC`. -/
def regAutoInc : BitVec 4 := 0b0011
/-- Index of `CTRL`. -/
def regCtrl : BitVec 4 := 0b0100
/-- Index of a lane: `10` followed by the lane number. -/
def regLane (l : Lane) : BitVec 4 := 0b10#2 ++ l.bits

/-- The index names a data lane. -/
def regIsLane (r : BitVec 4) : Bool := r.extractLsb' 2 2 == 0b10

/-- The index is one of R104's reserved ones: `0101` to `0111` and `1100` to `1111`. -/
def regReserved (r : BitVec 4) : Bool :=
  r == 0b0101 || r == 0b0110 || r == 0b0111 || r.extractLsb' 2 2 == 0b11

/-! ## Decoding -/

/-- The request port: bit 32 selects the operation; nothing else is decoded and no value is reserved (R102, R114). -/
def decodeRequest (w : BitVec 33) : Instr :=
  if w.getLsbD 32 then .vpRead (w.extractLsb' 16 16) (w.extractLsb' 0 16)
  else .vpWrite (w.extractLsb' 16 16) (w.extractLsb' 0 16)

/-- The interrupt-mask port (R108). -/
def decodeInterrupt (w : BitVec 1) : Instr :=
  if w = 0 then .irqMask else .irqRestore

/-- Bit 6 or bit 4 of a `CTRL8` is set: the value is reserved (R32, R116, U10). -/
def controlReserved (c : Byte) : Bool := Config.ctrlReservedBits.any fun b => c.getLsbD b

/-- A stored `CTRL` value enables the Device exactly when it matches `1 0 d 0 m m m m` (R114); with a reserved bit set it is
refused by name (R116, U10). -/
def decodeControl (c : Byte) : Except DecodeError Instr :=
  if controlReserved c then .error .reservedCtrlBits
  else if controlHigh c = 0b1000 then .ok (.devComplete .write (controlLow c))
  else if controlHigh c = 0b1010 then .ok (.devComplete .read (controlLow c))
  else .error .deviceNotRequested

/-- A value written to `CTRL` is, by its fields, `EXECUTE_WRITE`, `EXECUTE_READ`, `RELEASE` or reserved (R114, R116). -/
def decodeControlWrite (v : Byte) : Except DecodeError Instr :=
  if controlHigh v = 0b1000 then .ok (.executeWrite (controlLow v))
  else if controlHigh v = 0b1010 then
    if controlLow v = 0b1111 then .ok .executeRead else .error .maskedRead
  else if v = 0 then .ok .release
  else if controlHigh v = 0b0010 || controlHigh v = 0b0000 then .error .idleCtrlNotZero
  else .error .reservedCtrlBits

/-- One register write, with the words that follow it (R114): `SET_TARGET` takes three words. -/
def decodeRegisterWrite (reg : BitVec 4) (v : Byte) (rest : List PortWord) :
    Except DecodeError (Instr × List PortWord) :=
  if reg = regAddrH then
    match rest with
    | .hsev13 m :: .hsev13 l :: rest' =>
      if eventIsWrite m && eventReg m == regAddrM && eventIsWrite l && eventReg l == regAddrL then
        .ok (.setTarget ((v ++ eventVal m) ++ eventVal l), rest')
      else .error .brokenTarget
    | _ => .error .brokenTarget
  else if reg = regAddrM || reg = regAddrL then .error .brokenTarget
  else if reg = regAutoInc then
    if v = 0 then .ok (.setAutoIncrement false, rest)
    else if v = 1 then .ok (.setAutoIncrement true, rest)
    else .error .autoIncValue
  else if reg = regCtrl then
    match decodeControlWrite v with
    | .ok i => .ok (i, rest)
    | .error e => .error e
  else if regIsLane reg then .ok (.loadLane (.ofBits (reg.extractLsb' 0 2)) v, rest)
  else .error .reservedIndex

/-- One register read (R114, R116). -/
def decodeRegisterRead (reg : BitVec 4) (v : Byte) (rest : List PortWord) :
    Except DecodeError (Instr × List PortWord) :=
  if regReserved reg then .error .reservedIndex
  else if v ≠ 0 then .error .readWithValue
  else if reg = regCtrl then .ok (.pollCtrl, rest)
  else if regIsLane reg then .ok (.readLane (.ofBits (reg.extractLsb' 0 2)), rest)
  else .error .registerNotReadable

/-- The operation at the front of a sequence of port words, and the words after it.  Total: every sequence that stands for
no operation is refused by name. -/
def decode : List PortWord → Except DecodeError (Instr × List PortWord)
  | [] => .error .noWord
  | .req33 w :: rest => .ok (decodeRequest w, rest)
  | .ieev1 w :: rest => .ok (decodeInterrupt w, rest)
  | .ctrl8 c :: rest =>
    match decodeControl c with
    | .ok i => .ok (i, rest)
    | .error e => .error e
  | .hsev13 w :: rest =>
    if eventIsWrite w then decodeRegisterWrite (eventReg w) (eventVal w) rest
    else decodeRegisterRead (eventReg w) (eventVal w) rest

/-! ## Encoding -/

/-- The words of an operation, in issue order (R102, R103, R105, R108, R109, R113, R118). -/
def encode : Instr → List PortWord
  | .vpWrite a l => [.req33 (requestWord .write a l)]
  | .vpRead a l => [.req33 (requestWord .read a l)]
  | .setTarget s =>
    [.hsev13 (registerEvent true regAddrH (s.extractLsb' 16 8)),
     .hsev13 (registerEvent true regAddrM (s.extractLsb' 8 8)),
     .hsev13 (registerEvent true regAddrL (s.extractLsb' 0 8))]
  | .setAutoIncrement e => [.hsev13 (registerEvent true regAutoInc (if e then 1 else 0))]
  | .loadLane l v => [.hsev13 (registerEvent true (regLane l) v)]
  | .readLane l => [.hsev13 (registerEvent false (regLane l) 0)]
  | .executeWrite m => [.hsev13 (registerEvent true regCtrl (controlStart .write m))]
  | .executeRead => [.hsev13 (registerEvent true regCtrl (controlStart .read 0b1111))]
  | .pollCtrl => [.hsev13 (registerEvent false regCtrl 0)]
  | .devComplete d m => [.ctrl8 (controlStart d m)]
  | .release => [.hsev13 (registerEvent true regCtrl 0)]
  | .irqMask => [.ieev1 0]
  | .irqRestore => [.ieev1 1]

/-! ## The opcode table's own numbering -/

/-- The port words of a row's bits as `opcode_table.json` numbers them.  A row of one byte is an `IEEV1` (0 or 1) or a
`CTRL8`; a row of two bytes an `HSEV13`; a row of five bytes a `REQ33` (33 bits) or the three `HSEV13` of a `SET_TARGET`
(39 bits, word 1 in bits 38:26). -/
def tableWords (nbits w : Nat) : List PortWord :=
  match (nbits + 7) / 8 with
  | 1 =>
    if w < 2 then [.ieev1 (BitVec.ofNat 1 w)]
    else if w < 2 ^ 8 then [.ctrl8 (BitVec.ofNat 8 w)] else []
  | 2 => if w < 2 ^ 13 then [.hsev13 (BitVec.ofNat 13 w)] else []
  | 5 =>
    if w < 2 ^ 33 then [.req33 (BitVec.ofNat 33 w)]
    else if w < 2 ^ 39 then
      [.hsev13 (BitVec.ofNat 13 (w / 2 ^ 26)),
       .hsev13 (BitVec.ofNat 13 (w / 2 ^ 13)),
       .hsev13 (BitVec.ofNat 13 w)]
    else []
  | _ => []

/-- The operation the decoder reads from an opcode-table row's bits. -/
def decodeTableWord (nbits w : Nat) : Option Instr :=
  match decode (tableWords nbits w) with
  | .ok (i, []) => some i
  | _ => none

end Sys2Proof
end

