-- ==== Sys2Proof/Machine/State.lean ====
section
/-! DEFINITION. The state of the block (10_state.md R20) and of the agents around it (00_scope.md R5) as plain data, the
reasons a step can stop, and the state after reset (70_reset_and_hazards.md R260). -/

namespace Sys2Proof.Machine

/-! ## The Engine -/

/-- The sequencer phase, which plays the part of a program counter (R22). -/
inductive Phase where
  | idle
  | addressSet
  | partialHead
  | bulkLoop
  | tail
  | released
deriving DecidableEq, Repr

/-- One line of the pseudocode of R170 and R180: an operation the Engine issues, or a change of its registers. -/
inductive Micro where
  /-- `slot <- zext_24(vp >> 1)` (R194). -/
  | setSlot
  /-- `slot <- slot + 1` (R195, R197). -/
  | nextSlot
  /-- `SET_TARGET(slot)`. -/
  | target
  /-- `SET_AUTO_INCREMENT(on)`. -/
  | autoInc (on : Bool)
  /-- `LOAD_LANE(lane, buf[idx + off])` (R171). -/
  | stage (lane : Lane) (off : Nat)
  /-- `EXECUTE_WRITE(mask)`. -/
  | executeWrite (mask : Mask)
  /-- `EXECUTE_READ`. -/
  | executeRead
  /-- `buf[idx + off] <- READ_LANE(lane)` (R181). -/
  | extract (lane : Lane) (off : Nat)
  /-- `idx <- idx + n; rem <- rem - n`. -/
  | consume (n : Nat)
  /-- `RELEASE`. -/
  | release
  /-- `IRQ_RESTORE; phase <- Idle; done` (R199). -/
  | finish
deriving DecidableEq, Repr

/-- The Engine: its phase, its six working registers (R21), and where it stands within a phase. -/
structure Engine where
  /-- Sequencer phase (R22). -/
  phase : Phase
  /-- Direction of the request in progress (R21). -/
  op : Dir
  /-- Starting VP address of the request (R21). -/
  vp : VpAddr
  /-- Bytes not yet transferred (R21). -/
  rem : Len
  /-- Index into `buf` of the next byte (R21). -/
  idx : BitVec 16
  /-- Slot address the next transaction targets, as the Engine tracks it (R21). -/
  slot : SlotAddr
  /-- The value `IE` had when the request was accepted (R21). -/
  ieSaved : Bool
  /-- MODEL'S OWN: the lines of the current phase still to be carried out (assumption log 4). -/
  todo : List Micro
  /-- MODEL'S OWN: the Engine is in the busy-poll of an `EXECUTE_*` (R136; assumption log 5). -/
  waiting : Bool
deriving DecidableEq, Repr

/-! ## The handshake registers -/

/-- Four bytes, one for each lane: the lane registers (R27), or the bytes of a slot by lane position (R33). -/
structure Lanes where
  /-- Lane 3: bits 31:24 of the slot. -/
  b3 : Byte
  /-- Lane 2: bits 23:16. -/
  b2 : Byte
  /-- Lane 1: bits 15:8. -/
  b1 : Byte
  /-- Lane 0: bits 7:0. -/
  b0 : Byte
deriving DecidableEq, Repr

/-- The nine handshake registers (R24). -/
structure Handshake where
  /-- `ADDR_H`, bits 23:16 of the target address (R25). -/
  addrH : Byte
  /-- `ADDR_M`, bits 15:8 (R25). -/
  addrM : Byte
  /-- `ADDR_L`, bits 7:0 (R25). -/
  addrL : Byte
  /-- `AUTOINC`, bit 0 used (R26). -/
  autoInc : Byte
  /-- `LANE3` to `LANE0` (R27). -/
  lanes : Lanes
  /-- `CTRL` (R28). -/
  ctrl : Byte
deriving DecidableEq, Repr

/-! ## Memory -/

/-- VP memory by linear byte address (R64), in canonical form: addresses strictly rising, and no entry equal to what an
unlisted address reads as. -/
abbrev Memory := List Host.Cell

/-- The addresses of the entries rise strictly from `lo`, stay in the slot space, and no entry holds the unlisted value. -/
def Memory.wfFrom : Nat → Memory → Bool
  | _, [] => true
  | lo, (a, v) :: m => decide (lo ≤ a) && decide (a < Config.vpmBytes) && (v != Config.vpmUnlisted) && wfFrom (a + 1) m

/-- The canonical form of memory. -/
def Memory.wf (m : Memory) : Bool := Memory.wfFrom 0 m

/-! ## The host and the surroundings -/

/-- The three interrupt sources (R8, R235). -/
inductive IrqSource where
  | tickTimer
  | rtcSecond
  | serialReceive
deriving DecidableEq, Repr

/-- The host state the block touches or its atomicity rule speaks of (R35 to R37). -/
structure HostSide where
  /-- The global interrupt-enable flag `IE` (R35). -/
  ie : Bool
  /-- Pending interrupts, one entry for each remembered firing (R36). -/
  pending : List IrqSource
  /-- The millisecond tick counter, its width not stated (R37). -/
  tick : Nat
  /-- The real-time clock record, its format not stated (R37). -/
  rtc : Nat
deriving DecidableEq, Repr

/-- `ENV_WRITES` (R9, D21): at which steps the Environment writer may change VP memory.  Whatever the value, when it does
so and when it does not is the schedule's choice (assumption log 17). -/
inductive EnvWrites where
  /-- At no step. -/
  | never
  /-- Between requests, while no transaction is outstanding. -/
  | betweenRequests
  /-- At any step at which `CTRL.REQ = 0`: the spec's default (R91). -/
  | betweenTransactions
  /-- At any step. -/
  | always
deriving DecidableEq, Repr

/-- The open parameters of R9 that the Device's and the Environment writer's steps depend on, as plain data no step but the
Device's changes. -/
structure Params where
  /-- `SLOT_BACKED` (D12): ranges `lo .. hi` of slots with NO storage behind them.  Empty: all are backed. -/
  unbacked : List (Nat × Nat)
  /-- `DEVICE_ACKS` (D28): how many more transactions the Device completes.  `none`: it always completes. -/
  acks : Option Nat
  /-- `ENV_WRITES` (D21). -/
  envWrites : EnvWrites
deriving DecidableEq, Repr

/-- What waits at the Engine's three ports (R205): words, and the buffer the Requester presents with a request (R204). -/
inductive PortItem where
  /-- A word on the port its format belongs to. -/
  | word (w : PortWord)
  /-- The Requester sets its buffer; `none` is a null reference (R34, R232). -/
  | buffer (b : Option (List Byte))
deriving DecidableEq, Repr

/-- The values that reset leaves unspecified (R260, R262): a draw, as data. -/
structure ResetDraw where
  op : Dir
  vp : VpAddr
  rem : Len
  idx : BitVec 16
  slot : SlotAddr
  ieSaved : Bool
  addrH : Byte
  addrM : Byte
  addrL : Byte
  autoInc : Byte
  lanes : Lanes
  ie : Bool
  /-- Of the enabled lanes of an outstanding transaction, those whose byte reached the slot (R262). -/
  landed : Mask
deriving DecidableEq, Repr

/-- Whose step comes next, with the choices the source leaves to that agent (R5, R39; assumption log 7). -/
inductive Turn where
  /-- The Engine. -/
  | engine
  /-- The Device (R137). -/
  | device
  /-- The next port item is presented to the Engine (R192). -/
  | present
  /-- The Environment writer changes the bytes of one slot that `mask` names (R91, D21). -/
  | env (slot : SlotAddr) (mask : Mask) (data : Lanes)
  /-- An interrupt source fires; `keep`: a further firing of a source already pending is remembered (R36). -/
  | fire (src : IrqSource) (keep : Bool)
  /-- The handler of a pending source runs; `value` is what it leaves in the counter or the clock record (R235). -/
  | handle (src : IrqSource) (value : Nat)
  /-- The host program writes `IE` (R20, R35). -/
  | hostIe (b : Bool)
  /-- A handler or other host code accesses a handshake register (R242). -/
  | foreign (w : BitVec 13)
  /-- Reset (R262). -/
  | reset (d : ResetDraw)
deriving DecidableEq, Repr

/-- The ports of the block (R205). -/
structure Ports where
  /-- Items waiting at the ports, the first first. -/
  issue : List PortItem
  /-- MODEL'S OWN: the value the last register read returned (R133, R136). -/
  readData : Byte
  /-- MODEL'S OWN: how many times `done` has been given (R204). -/
  dones : Nat
deriving DecidableEq, Repr

/-- The whole state. -/
structure State where
  /-- The Engine (R21, R22). -/
  eng : Engine
  /-- The handshake registers (R24). -/
  hs : Handshake
  /-- VP memory (R33). -/
  vpm : Memory
  /-- The caller's buffer; `none` is a null reference (R34). -/
  buf : Option (List Byte)
  /-- Host state (R35 to R37). -/
  host : HostSide
  /-- Open parameters (R9). -/
  par : Params
  /-- Ports (R205). -/
  port : Ports
  /-- The turns to come; when the list is empty the block moves by itself, fairly (R281; assumption log 7). -/
  sched : List Turn
deriving DecidableEq, Repr

/-! ## Why a step stops -/

/-- The block has no fault of any kind: "No entry uses it" (93_implementation_defined.md, treatment `fault`), and no
operation has a failing outcome (R230).  So there is no constructor. -/
inductive Fault where
deriving DecidableEq, Repr

/-- Refusals: combinations the source gives no meaning, to which a model gives no step (R115, R116). -/
inductive Refusal where
  /-- An instruction without a meaning yet; raised by no meaning.  Safe. -/
  | notModelled (mnemonic : String)
  /-- A request presented while `phase != Idle` (R203, R116); raised by `VP_WRITE` and `VP_READ`.  Safe. -/
  | requestWhileBusy
  /-- A register write or a lane read while `CTRL.REQ = 1` (R116, R133, R270); raised by every handshake primitive but
  `POLL_CTRL`.  Safe. -/
  | transactionOutstanding
  /-- A write transaction with mask `0000` (R116, U3); raised by `EXECUTE_WRITE` and `DEV_COMPLETE`.  Safe. -/
  | emptyMask
  /-- A read transaction with a mask other than `1111` (R116, U2); raised by `DEV_COMPLETE`.  Safe. -/
  | maskedRead
  /-- A register or interrupt-mask access that does not come from the Engine (R242, R246); raised by a foreign access, and
  by a handshake or interrupt-mask word presented during a request.  Safe. -/
  | notOwner
  /-- A buffer byte is needed and the buffer is null or too short (R232, U11); raised when a request stages or extracts.
  Safe. -/
  | bufferContract
  /-- The words at the ports, or the stored `CTRL` value the Device would act on, are reserved (R116, U10).  Safe. -/
  | reservedWord (e : DecodeError)
deriving DecidableEq, Repr

/-- The outcome of a step of this machine. -/
abbrev Result := Host.Outcome State Fault Refusal

/-! ## Reset -/

/-- The machine right after reset (R260): `phase = Idle` and `HS.CTRL = 0x00` are the spec's; every other register holds
the value the assumption log names (log 1 to 3, DESIGN CHOICE: the spec says "unspecified"); memory lists nothing. -/
def State.reset : State where
  eng :=
    { phase := .idle, op := .write, vp := 0, rem := 0, idx := 0, slot := 0, ieSaved := false, todo := [], waiting := false }
  hs := { addrH := 0, addrM := 0, addrL := 0, autoInc := 0, lanes := ⟨0, 0, 0, 0⟩, ctrl := 0 }
  vpm := []
  buf := none
  host := { ie := false, pending := [], tick := 0, rtc := 0 }
  par := { unbacked := [], acks := none, envWrites := .betweenTransactions }
  port := { issue := [], readData := 0, dones := 0 }
  sched := []

end Sys2Proof.Machine
end

