-- ==== Sys2Proof/Machine/Flags.lean ====
section
/-! DEFINITION. The block's two flags, `CTRL.REQ` and `IE` (00_scope.md R4), and the other fields of the mode/control
register (10_state.md R28 to R32). -/

namespace Sys2Proof.Machine

/-- `CTRL.REQ`: a transaction is requested and not yet complete (R29). -/
def Handshake.req (h : Handshake) : Bool := h.ctrl.getLsbD Config.ctrlReqBit

/-- `CTRL.DIR` (R30). -/
def Handshake.dir (h : Handshake) : Dir := Dir.ofBit (h.ctrl.getLsbD Config.ctrlDirBit)

/-- `CTRL.MASK` (R31). -/
def Handshake.mask (h : Handshake) : Mask := controlLow h.ctrl

/-- The reserved bits of `CTRL` read 0 (R32). -/
def Handshake.reservedClear (h : Handshake) : Bool := !controlReserved h.ctrl

/-- Whether a mask enables a lane: bit `n` for lane `n` (R31). -/
def laneEnabled (m : Mask) (l : Lane) : Bool := m.getLsbD l.index

/-- Completion clears `CTRL.REQ` and leaves `DIR` and `MASK` (R137). -/
def controlDone (c : Byte) : Byte := c &&& 0x7F

/-- `AUTOINC[0]`: the Device advances the address after a transaction (R26). -/
def Handshake.advances (h : Handshake) : Bool := h.autoInc.getLsbD 0

/-- `IRQ_MASK`, one atomic step: save `IE`, then clear it (R190). -/
def State.maskInterrupts (s : State) : State :=
  { s with eng := { s.eng with ieSaved := s.host.ie }, host := { s.host with ie := false } }

/-- `IRQ_RESTORE`: put the saved value back (R191), whatever `ie_saved` holds (between requests: assumption log 29). -/
def State.restoreInterrupts (s : State) : State :=
  { s with host := { s.host with ie := s.eng.ieSaved } }

end Sys2Proof.Machine
end

