-- ==== Sys2Proof/Machine/Operands.lean ====
section
/-! DEFINITION. Operand assembly (30_encoding.md R109 to R113) and the translation from VP addresses to slots and lanes
(20_memory.md R64, R70, 41_translation.md R151). -/

namespace Sys2Proof.Machine

/-! ## Addresses -/

/-- `slot = zext_24(vp[15:1])` (R70). -/
def slotOfVp (a : VpAddr) : SlotAddr := (a >>> 1).setWidth 24

/-- `is_odd = vp[0]` (R70). -/
def vpIsOdd (a : VpAddr) : Bool := a.getLsbD 0

/-- `HS.ADDR = ADDR_H ++ ADDR_M ++ ADDR_L` (R25). -/
def Handshake.addr (h : Handshake) : SlotAddr := (h.addrH ++ h.addrM) ++ h.addrL

/-- The split of a slot address over the three address fields (R109). -/
def Handshake.withAddr (h : Handshake) (s : SlotAddr) : Handshake :=
  { h with addrH := s.extractLsb' 16 8, addrM := s.extractLsb' 8 8, addrL := s.extractLsb' 0 8 }

/-- The linear byte address of a slot's byte in a lane position: slot `s` holds linear bytes `4s .. 4s+3` in lanes 3, 2,
1, 0 (R64). -/
def laneAddr (s : SlotAddr) (l : Lane) : Nat := 4 * s.toNat + (3 - l.index)

/-- `slot_of(b) = b div 4` (R64). -/
def slotOfByte (b : Nat) : SlotAddr := BitVec.ofNat 24 (b / 4)

/-- `lane_of(b) = 3 - (b mod 4)` (R64). -/
def laneOfByte (b : Nat) : Lane :=
  match b % 4 with
  | 0 => .l3
  | 1 => .l2
  | 2 => .l1
  | _ => .l0

/-- The linear byte address of byte `k` of a request that starts at VP address `a` (R64). -/
def requestByte (a : VpAddr) (k : Nat) : Nat := 2 * a.toNat + k

/-! ## Lanes -/

/-- The byte in a lane. -/
def Lanes.get (q : Lanes) : Lane → Byte
  | .l3 => q.b3
  | .l2 => q.b2
  | .l1 => q.b1
  | .l0 => q.b0

/-- The lanes with one of them loaded. -/
def Lanes.set (q : Lanes) (l : Lane) (v : Byte) : Lanes :=
  match l with
  | .l3 => { q with b3 := v }
  | .l2 => { q with b2 := v }
  | .l1 => { q with b1 := v }
  | .l0 => { q with b0 := v }

/-- The lanes of a head that carries `n` request bytes, in order: lane 1, then lane 0 (R110, R112). -/
def headLanes (n : Nat) : List Lane := [Lane.l1, Lane.l0].take n

/-- The lanes of a bulk transaction, in order (R112). -/
def bulkLanes : List Lane := [.l3, .l2, .l1, .l0]

/-- The lanes of a tail that carries `n` request bytes, in order: lane 3, then 2, then 1 (R111, R112). -/
def tailLanes (n : Nat) : List Lane := [Lane.l3, Lane.l2, Lane.l1].take n

/-- The mask of the head transaction: `0010` for one byte, `0011` for two (R110). -/
def headMask (n : Nat) : Mask := if n ≤ 1 then 0b0010 else 0b0011

/-- The mask of every bulk transaction and of every read transaction (R111). -/
def fullMask : Mask := 0b1111

/-- The mask of the tail transaction: `1000`, `1100`, `1110` (R111). -/
def tailMask (n : Nat) : Mask :=
  match n with
  | 0 => 0b0000
  | 1 => 0b1000
  | 2 => 0b1100
  | _ => 0b1110

/-- The value `SET_AUTO_INCREMENT` writes (R113). -/
def autoIncValue (on : Bool) : Byte := if on then 0x01 else 0x00

end Sys2Proof.Machine
end

