-- ==== Sys2Proof/Machine/Ops.lean ====
section
/-! DEFINITION. The named operations over VP memory, the caller's buffer and the handshake registers.  The block takes no
exception and returns from none (60_exceptions.md R230, R240), so no exception entry stands here. -/

namespace Sys2Proof.Machine

/-! ## VP memory by linear byte address (R64) -/

/-- `MemRead(x, 1)` (R11). -/
def Memory.read : Memory → Nat → Byte
  | [], _ => Config.vpmUnlisted
  | (a, v) :: m, x => if x = a then v else Memory.read m x

/-- Put a byte before the entries `m`, none if it is the unlisted value. -/
def Memory.cons (x : Nat) (v : Byte) (m : Memory) : Memory :=
  if v = Config.vpmUnlisted then m else (x, v) :: m

/-- `MemWrite(x, 1, v)` (R11), keeping the canonical form. -/
def Memory.write : Memory → Nat → Byte → Memory
  | [], x, v => Memory.cons x v []
  | (a, w) :: m, x, v =>
    if x < a then Memory.cons x v ((a, w) :: m)
    else if x = a then Memory.cons x v m
    else (a, w) :: Memory.write m x v

/-- The four bytes of a slot by lane position (R33). -/
def Memory.slot (m : Memory) (s : SlotAddr) : Lanes where
  b3 := m.read (laneAddr s .l3)
  b2 := m.read (laneAddr s .l2)
  b1 := m.read (laneAddr s .l1)
  b0 := m.read (laneAddr s .l0)

/-- Store one lane's byte if the mask enables the lane. -/
def Memory.storeLane (m : Memory) (s : SlotAddr) (mask : Mask) (q : Lanes) (l : Lane) : Memory :=
  if laneEnabled mask l then m.write (laneAddr s l) (q.get l) else m

/-- Replace exactly the bytes of a slot whose lanes the mask enables, lanes 3, 2, 1, 0 in turn (R80, R137). -/
def Memory.storeLanes (m : Memory) (s : SlotAddr) (mask : Mask) (q : Lanes) : Memory :=
  (((m.storeLane s mask q .l3).storeLane s mask q .l2).storeLane s mask q .l1).storeLane s mask q .l0

/-! ## The caller's buffer (R34) -/

/-- `buf[i]`; `none` when the buffer is null or has no byte `i`. -/
def State.bufRead (s : State) (i : Nat) : Option Byte :=
  match s.buf with
  | none => none
  | some b => b[i]?

/-- `buf[i] <- v`; `none` when the buffer is null or has no byte `i`. -/
def State.bufWrite (s : State) (i : Nat) (v : Byte) : Option State :=
  match s.buf with
  | none => none
  | some b => if i < b.length then some { s with buf := some (b.set i v) } else none

/-! ## Parameters (R9) -/

/-- `SLOT_BACKED(s)` (D12). -/
def Params.slotBacked (p : Params) (s : SlotAddr) : Bool :=
  p.unbacked.all fun r => decide (s.toNat < r.1) || decide (r.2 < s.toNat)

/-- `ENV_WRITES` at this moment (D21, R91). -/
def State.envAllowed (s : State) : Bool :=
  match s.par.envWrites with
  | .never => false
  | .betweenRequests => decide (s.eng.phase = .idle) && !s.hs.req
  | .betweenTransactions => !s.hs.req
  | .always => true

/-- `DEVICE_ACKS` at this moment (D28). -/
def Params.deviceAcks (p : Params) : Bool :=
  match p.acks with
  | some 0 => false
  | _ => true

/-- The Device has completed one more transaction. -/
def Params.acked (p : Params) : Params :=
  { p with acks := p.acks.map (· - 1) }

/-! ## Register access -/

/-- A register access other than a poll is refused while a transaction is outstanding (R116, R133, R270). -/
def State.whenIdleBus (s : State) (t : State) : Result :=
  if s.hs.req then .refused .transactionOutstanding else .next t

/-- Write `HS.ADDR` (R130). -/
def State.setAddr (s : State) (a : SlotAddr) : State := { s with hs := s.hs.withAddr a }

/-- Write `HS.AUTOINC` (R131). -/
def State.setAutoInc (s : State) (v : Byte) : State := { s with hs := { s.hs with autoInc := v } }

/-- Write one lane (R132). -/
def State.setLane (s : State) (l : Lane) (v : Byte) : State :=
  { s with hs := { s.hs with lanes := s.hs.lanes.set l v } }

/-- Write the whole mode/control register (R28). -/
def State.setCtrl (s : State) (c : Byte) : State := { s with hs := { s.hs with ctrl := c } }

/-- The value a register read returns (R103). -/
def State.setReadData (s : State) (v : Byte) : State := { s with port := { s.port with readData := v } }

/-- The Engine enters or leaves the busy-poll of an `EXECUTE_*` (R136). -/
def State.setWaiting (s : State) (b : Bool) : State := { s with eng := { s.eng with waiting := b } }

/-- Start a transaction: one write of `CTRL`, then the wait (R134, R135). -/
def State.startTransaction (s : State) (d : Dir) (m : Mask) : State := (s.setCtrl (controlStart d m)).setWaiting true

/-- The Engine is in the wait of an `EXECUTE_*`, or a transaction is outstanding: until it completes the Engine does nothing
else (R136). -/
def State.blocked (s : State) : Bool := s.eng.waiting || s.hs.req

/-! ## The Device (R137) -/

/-- The enabling condition of `DEV_COMPLETE` (R137).  Of `CTRL` it reads `REQ` alone: the Device ignores bits 6 and 4 (R28, R32). -/
def State.deviceEnabled (s : State) : Bool :=
  s.hs.req && s.par.slotBacked s.hs.addr && s.par.deviceAcks

/-- The data movement of a completing transaction. -/
def State.transfer (s : State) : State :=
  match s.hs.dir with
  | .write => { s with vpm := s.vpm.storeLanes s.hs.addr s.hs.mask s.hs.lanes }
  | .read => { s with hs := { s.hs with lanes := s.vpm.slot s.hs.addr } }

/-- `HS.ADDR <- (s + 1) mod 2^24` if `AUTOINC[0] = 1`. -/
def State.advanceAddr (s : State) : State :=
  if s.hs.advances then s.setAddr (s.hs.addr + 1) else s

/-- One completed transaction: data, address, then `CTRL.REQ`. -/
def State.complete (s : State) : State :=
  let t := s.transfer.advanceAddr
  { t.setCtrl (controlDone t.hs.ctrl) with par := t.par.acked }

/-! ## Requests (R192, R196, R199) -/

/-- Acceptance of a request: `IRQ_MASK`, then the request word is latched. -/
def State.latchRequest (s : State) (d : Dir) (a : VpAddr) (l : Len) : State :=
  let t := s.maskInterrupts
  { t with eng := { t.eng with op := d, vp := a, rem := l, idx := 0 } }

/-- Enter a phase with the lines it carries out. -/
def State.enterPhase (s : State) (p : Phase) (todo : List Micro) : State :=
  { s with eng := { s.eng with phase := p, todo := todo } }

/-- `phase <- Idle; done` (R199). -/
def State.giveDone (s : State) : State :=
  { s.enterPhase .idle [] with port := { s.port with dones := s.port.dones + 1 } }

/-- The lines of `AddressSet` (R194). -/
def addressSetLines : List Micro := [.setSlot, .target, .autoInc false]

/-- A request is accepted only when `phase = Idle`; one of length 0 ends at once (R192, R196, R203).
DESIGN CHOICE (assumption log 26): the spec does not say what happens to a request presented in `Idle` while a transaction
that an `EXECUTE_*` driven without a request started is outstanding.  It is not accepted: the Engine does nothing else until
the transaction completes (R136), so the state stays as it is. -/
def State.accept (s : State) (d : Dir) (a : VpAddr) (l : Len) : Result :=
  if s.eng.phase ≠ .idle then .refused .requestWhileBusy
  else if s.blocked then .next s
  else if l = 0 then .next (s.latchRequest d a l).restoreInterrupts.giveDone
  else .next ((s.latchRequest d a l).enterPhase .addressSet addressSetLines)

end Sys2Proof.Machine
end

