-- ==== Sys2Proof/Machine/Device.lean ====
section
/-! DEFINITION. The Device's completion step (40_handshake_primitives.md R137). -/

namespace Sys2Proof.Machine

/-- `DEV_COMPLETE` of the transaction the stored `CTRL` requests: `DIR` and `MASK` are the operation's, and bits 6 and 4 are
ignored (R28, R32, R137); a stored value in which one of those is set is refused before, where it is decoded (R116, U10).  A
reserved transaction is refused (R116, U2, U3).  Where the step is not enabled the Device holds: the state stays as it is
(R231, U6, U7; assumption log 9).

DEDUCED (assumption log 28): a stored masked read or write of nothing with `REQ = 1` (`0xA3`, `0x80`) is refused here, at the
Device's turn, enabled or not, and at no other agent's step: the spec does not say when. -/
def execDevComplete (d : Dir) (m : Mask) (s : State) : Result :=
  if d = .write ∧ m = 0 then .refused .emptyMask
  else if d = .read ∧ m ≠ fullMask then .refused .maskedRead
  else if s.hs.dir = d ∧ s.hs.mask = m ∧ s.deviceEnabled = true then .next s.complete
  else .next s

end Sys2Proof.Machine
end

