-- ==== Sys2Proof/Machine/Handshake.lean ====
section
/-! DEFINITION. The handshake primitives (40_handshake_primitives.md R130 to R136, R138). -/

namespace Sys2Proof.Machine

/-- `SET_TARGET(slot_address)` (R130). -/
def execSetTarget (a : SlotAddr) (s : State) : Result := s.whenIdleBus (s.setAddr a)

/-- `SET_AUTO_INCREMENT(enabled)` (R131). -/
def execSetAutoIncrement (on : Bool) (s : State) : Result := s.whenIdleBus (s.setAutoInc (autoIncValue on))

/-- `LOAD_LANE(lane, value)` (R132). -/
def execLoadLane (l : Lane) (v : Byte) (s : State) : Result := s.whenIdleBus (s.setLane l v)

/-- `READ_LANE(lane) -> u8` (R133).  A lane read when the last completed transaction was not a read returns the stored
byte (U13; assumption log 8). -/
def execReadLane (l : Lane) (s : State) : Result := s.whenIdleBus (s.setReadData (s.hs.lanes.get l))

/-- `EXECUTE_WRITE(lane_mask)` (R134): the `CTRL` write; the wait is the Engine's (R136). -/
def execExecuteWrite (m : Mask) (s : State) : Result :=
  if m = 0 then .refused .emptyMask else s.whenIdleBus (s.startTransaction .write m)

/-- `EXECUTE_READ` (R135). -/
def execExecuteRead (s : State) : Result := s.whenIdleBus (s.startTransaction .read fullMask)

/-- `POLL_CTRL` (R136): the first poll that reads `REQ = 0` ends the wait. -/
def execPollCtrl (s : State) : Result :=
  .next ((s.setReadData s.hs.ctrl).setWaiting (s.eng.waiting && s.hs.req))

/-- `RELEASE` (R138). -/
def execRelease (s : State) : Result := s.whenIdleBus (s.setCtrl 0)

end Sys2Proof.Machine
end

