-- ==== Sys2Proof/Machine/Interrupts.lean ====
section
/-! DEFINITION. The interrupt-mask operations (44_sequencer_atomicity.md R190, R191). -/

namespace Sys2Proof.Machine

/-- `IRQ_MASK` (R190). -/
def execIrqMask (s : State) : Result := .next s.maskInterrupts

/-- `IRQ_RESTORE` (R191).

DESIGN CHOICE (assumption log 29): from the ports in `Idle`, where R21 calls `ie_saved` dead, it still puts `ie_saved` into
`IE`; with no `IRQ_MASK` word before it, that is what the last request left there, or what reset did. -/
def execIrqRestore (s : State) : Result := .next s.restoreInterrupts

end Sys2Proof.Machine
end

