-- ==== Sys2Proof/Machine/Requests.lean ====
section
/-! DEFINITION. The two request-level operations (42_vp_write.md R170, 43_vp_read.md R180).  An operation of this family
is the first line of its pseudocode, acceptance, as one step; the lines after it are the Engine's, one a step, in
`Machine/Sequencer.lean`. -/

namespace Sys2Proof.Machine

/-- `VP_WRITE(address, buffer, length)` (R170). -/
def execVpWrite (a : VpAddr) (l : Len) (s : State) : Result := s.accept .write a l

/-- `VP_READ(address, buffer, length)` (R180). -/
def execVpRead (a : VpAddr) (l : Len) (s : State) : Result := s.accept .read a l

end Sys2Proof.Machine
end

