-- ==== Sys2Proof/Machine/Dispatch.lean ====
section
/-! DEFINITION. One arm per operation of 30_encoding.md R100. -/

namespace Sys2Proof.Machine

def exec (i : Instr) (s : State) : Host.Outcome State Fault Refusal :=
  match i with
  | .vpWrite a l => Sys2Proof.Machine.execVpWrite a l s
  | .vpRead a l => Sys2Proof.Machine.execVpRead a l s
  | .setTarget a => Sys2Proof.Machine.execSetTarget a s
  | .setAutoIncrement on => Sys2Proof.Machine.execSetAutoIncrement on s
  | .loadLane l v => Sys2Proof.Machine.execLoadLane l v s
  | .readLane l => Sys2Proof.Machine.execReadLane l s
  | .executeWrite m => Sys2Proof.Machine.execExecuteWrite m s
  | .executeRead => Sys2Proof.Machine.execExecuteRead s
  | .pollCtrl => Sys2Proof.Machine.execPollCtrl s
  | .devComplete d m => Sys2Proof.Machine.execDevComplete d m s
  | .release => Sys2Proof.Machine.execRelease s
  | .irqMask => Sys2Proof.Machine.execIrqMask s
  | .irqRestore => Sys2Proof.Machine.execIrqRestore s

end Sys2Proof.Machine
end

