-- ==== Sys2Proof/Machine/Sequencer.lean ====
section
/-! DEFINITION. The Engine's sequencer: the lines of R170 and R180 after acceptance, as the transition system of
44_sequencer_atomicity.md R193 to R199.  One line is one step. -/

namespace Sys2Proof.Machine

/-! ## The lines of each phase -/

/-- The head's bytes are carried one by one: each line moves `idx` and `rem` (R170, R180). -/
def oneByOne (line : Lane → Nat → Micro) (ls : List Lane) : List Micro :=
  ls.flatMap fun l => [line l 0, .consume 1]

/-- The bytes of a bulk or tail transaction are carried at offsets from `idx`, which moves after the transaction. -/
def atOffsets (line : Lane → Nat → Micro) : Nat → List Lane → List Micro
  | _, [] => []
  | k, l :: ls => line l k :: atOffsets line (k + 1) ls

/-- The lines of `PartialHead` with `n` head bytes (R172, R182, R195). -/
def headLines (d : Dir) (n : Nat) : List Micro :=
  (match d with
    | .write => oneByOne .stage (headLanes n) ++ [.executeWrite (headMask n)]
    | .read => .executeRead :: oneByOne .extract (headLanes n)) ++ [.nextSlot, .target]

/-- The lines of one pass through `BulkLoop` (R173, R183, R197). -/
def bulkLines (d : Dir) : List Micro :=
  (match d with
    | .write => atOffsets .stage 0 bulkLanes ++ [.executeWrite fullMask]
    | .read => .executeRead :: atOffsets .extract 0 bulkLanes) ++ [.consume 4, .nextSlot]

/-- The lines of `Tail` with `n` tail bytes (R174, R184, R198). -/
def tailLines (d : Dir) (n : Nat) : List Micro :=
  (match d with
    | .write => atOffsets .stage 0 (tailLanes n) ++ [.executeWrite (tailMask n)]
    | .read => .executeRead :: atOffsets .extract 0 (tailLanes n)) ++ [.consume n]

/-- The lines of `Released` (R199). -/
def releasedLines : List Micro := [.release, .finish]

/-! ## Phase transitions (R193) -/

/-- After `AddressSet` with an even start, after the head and after each bulk transaction, `rem` decides (R193).  The
auto-increment is switched on at the first pass through `BulkLoop` only (R197). -/
def State.enterByRem (s : State) : State :=
  if 4 ≤ s.eng.rem.toNat then
    s.enterPhase .bulkLoop
      (if s.eng.phase = .bulkLoop then bulkLines s.eng.op else .autoInc true :: bulkLines s.eng.op)
  else if s.eng.rem = 0 then s.enterPhase .released releasedLines
  else s.enterPhase .tail (tailLines s.eng.op s.eng.rem.toNat)

/-- The arrow of R193 taken when the lines of the current phase are carried out. -/
def State.leavePhase (s : State) : State :=
  match s.eng.phase with
  | .idle => s
  | .addressSet =>
    if vpIsOdd s.eng.vp then s.enterPhase .partialHead (headLines s.eng.op (min s.eng.rem.toNat 2)) else s.enterByRem
  | .partialHead => s.enterByRem
  | .bulkLoop => s.enterByRem
  | .tail => s.enterPhase .released releasedLines
  | .released => s.giveDone

/-! ## One line -/

/-- The buffer index `idx + off` (R171). -/
def State.bufIndex (s : State) (off : Nat) : Nat := s.eng.idx.toNat + off

/-- `idx <- idx + n; rem <- rem - n` (R170, R180). -/
def State.consume (s : State) (n : Nat) : State :=
  { s with eng := { s.eng with idx := s.eng.idx + BitVec.ofNat 16 n, rem := s.eng.rem - BitVec.ofNat 16 n } }

/-- Write the Engine's own `slot` register. -/
def State.setSlot (s : State) (a : SlotAddr) : State := { s with eng := { s.eng with slot := a } }

/-- Store the byte a register read returned at `buf[i]` (R181). -/
def State.deliver (s : State) (i : Nat) : Result :=
  match s.bufWrite i s.port.readData with
  | some t => .next t
  | none => .refused .bufferContract

/-- Go on from a next state. -/
def andThen (r : Result) (f : State → Result) : Result :=
  match r with
  | .next t => f t
  | .fault e => .fault e
  | .refused e => .refused e

/-- The operation of R100 that a line issues, its operands sampled now (R90); `none` for a change of the Engine's
registers, and for a line that needs a buffer byte the buffer does not have. -/
def State.lineOp (s : State) : Micro → Option Instr
  | .setSlot => none
  | .nextSlot => none
  | .target => some (.setTarget s.eng.slot)
  | .autoInc on => some (.setAutoIncrement on)
  | .stage l off => (s.bufRead (s.bufIndex off)).map (.loadLane l)
  | .executeWrite m => some (.executeWrite m)
  | .executeRead => some .executeRead
  | .extract l _ => some (.readLane l)
  | .consume _ => none
  | .release => some .release
  | .finish => some .irqRestore

/-- What a line does after the operation it issues: a read lane goes to the buffer (R181), and the request ends after
`IRQ_RESTORE` (R199). -/
def State.afterOp (s : State) : Micro → Result
  | .extract _ off => s.deliver (s.bufIndex off)
  | .finish => .next s.giveDone
  | _ => .next s

/-- A line that issues no operation. -/
def State.internalLine (s : State) : Micro → Result
  | .setSlot => .next (s.setSlot (slotOfVp s.eng.vp))
  | .nextSlot => .next (s.setSlot (s.eng.slot + 1))
  | .consume n => .next (s.consume n)
  | .stage _ _ => .refused .bufferContract
  | _ => .next s

/-- One line of the pseudocode. -/
def State.line (s : State) (m : Micro) : Result :=
  match s.lineOp m with
  | some i => andThen (exec i s) fun t => t.afterOp m
  | none => s.internalLine m

/-- The first line still to be carried out is taken off. -/
def State.popLine (s : State) : State := { s with eng := { s.eng with todo := s.eng.todo.tail } }

/-- The Engine's step: a poll while it waits for the Device (R136), else the next line, else the next phase. -/
def State.engineTurn (s : State) : Result :=
  if s.eng.waiting then exec .pollCtrl s
  else
    match s.eng.todo with
    | [] => .next s.leavePhase
    | m :: _ => s.popLine.line m

/-- The Engine has work: it waits, has lines left, or is inside a request. -/
def State.engineBusy (s : State) : Bool :=
  s.eng.waiting || !s.eng.todo.isEmpty || decide (s.eng.phase ≠ .idle)

end Sys2Proof.Machine
end

