-- ==== Sys2Proof/Machine/Agents.lean ====
section
/-! DEFINITION. The steps of the agents of 00_scope.md R5 other than the Engine, and whose turn it is. -/

namespace Sys2Proof.Machine

/-! ## The Requester (R192, R204) -/

/-- The words at the front of the ports. -/
def frontWords : List PortItem → List PortWord
  | .word w :: rest => w :: frontWords rest
  | _ => []

/-- The items at the ports. -/
def State.setIssue (s : State) (q : List PortItem) : State := { s with port := { s.port with issue := q } }

/-- The words at the front of the ports are decoded and the operation is performed; its words are taken off. -/
def State.runWords (s : State) : Result :=
  match decode (frontWords s.port.issue) with
  | .ok (i, rest) =>
    exec i (s.setIssue (s.port.issue.drop ((frontWords s.port.issue).length - rest.length)))
  | .error e => .refused (.reservedWord e)

/-- Request and interrupt-mask words between requests: they wait while the Engine is in the wait of an `EXECUTE_*` that was driven without a request,
since until it completes the Engine does nothing else (R136; assumption log 26). -/
def State.runWordsWhenFree (s : State) : Result := if s.blocked then .next s else s.runWords

/-- Register words between requests.  A poll is what the wait itself does, and the first that reads `REQ = 0` ends it, so it
always runs (R136); words that decode to no operation are refused (R115, R116).  While `CTRL.REQ = 1` no other word is held
either: a write or a lane read is refused (R116, R270).  Once the transaction is complete they wait for the poll that ends the
wait (assumption log 26). -/
def State.runRegisterWords (s : State) : Result :=
  match decode (frontWords s.port.issue) with
  | .ok (.pollCtrl, _) => s.runWords
  | .ok _ => if s.hs.req then s.runWords else s.runWordsWhenFree
  | .error _ => s.runWords

/-- The next item is presented.  A request word may come at any time (R203 refuses it inside a request).  A buffer is set
only while the Requester is not blocked (R192).  A register or interrupt-mask word from the ports stands for the Engine
driven without a request (R140), so inside a request it comes from another owner and is refused (R242, R246).  In
`Idle` an `IRQ_RESTORE` word reads `ie_saved`, which R21 calls dead there (DESIGN CHOICE, assumption log 29).  No agent issues
`DEV_COMPLETE` (R137). -/
def State.presentTurn (s : State) : Result :=
  match s.port.issue with
  | [] => .next s
  | .buffer b :: rest => if s.eng.phase = .idle then .next { s.setIssue rest with buf := b } else .next s
  | .word (.req33 _) :: _ => if s.eng.phase = .idle then s.runWordsWhenFree else s.runWords
  | .word (.hsev13 _) :: _ => if s.eng.phase = .idle then s.runRegisterWords else .refused .notOwner
  | .word (.ieev1 _) :: _ => if s.eng.phase = .idle then s.runWordsWhenFree else .refused .notOwner
  | .word (.ctrl8 _) :: _ => .refused .notOwner

/-! ## The Device (R137) -/

/-- The Device acts on the stored `CTRL` value (R114).  A value with `REQ = 0` leaves it idle.  A value with bit 6 or bit 4 set
is refused by name (R116, U10), at the Device's turn, which is the one step that takes a `CTRL8`, and so is, by
`DEV_COMPLETE`, a masked read or a write of nothing with `REQ = 1` (R116, U2, U3).  That it is this step that refuses is
DEDUCED (assumption log 28). -/
def State.deviceTurn (s : State) : Result :=
  match decode [.ctrl8 s.hs.ctrl] with
  | .ok (i, _) => exec i s
  | .error .deviceNotRequested => .next s
  | .error e => .refused (.reservedWord e)

/-! ## The Environment writer (R91, D21) -/

/-- The Environment writer changes a backed slot, at a step at which `ENV_WRITES` lets it. -/
def State.envTurn (s : State) (a : SlotAddr) (m : Mask) (q : Lanes) : State :=
  if s.envAllowed && s.par.slotBacked a then { s with vpm := s.vpm.storeLanes a m q } else s

/-! ## The host (R35 to R37, R235 to R237) -/

/-- An interrupt source fires, whatever `IE` is; the source is pending from then on (R36, R236). -/
def State.fireTurn (s : State) (src : IrqSource) (keep : Bool) : State :=
  if !keep && s.host.pending.contains src then s
  else { s with host := { s.host with pending := s.host.pending ++ [src] } }

/-- A handler's effect on the state the source names: the tick counter and the clock record (R235, R37). -/
def HostSide.handled (h : HostSide) (src : IrqSource) (v : Nat) : HostSide :=
  let p := h.pending.erase src
  match src with
  | .tickTimer => { h with pending := p, tick := v }
  | .rtcSecond => { h with pending := p, rtc := v }
  | .serialReceive => { h with pending := p }

/-- A handler step is conditional on `IE = 1` (R237) and on its source being pending.
DESIGN CHOICE (assumption log 27): with `IE = 1` a handler may also run between handshake words that drive the registers
without a request, and while their transaction is outstanding.  R240 speaks of requests only, and inside a request `IE = 0`. -/
def State.handleTurn (s : State) (src : IrqSource) (v : Nat) : State :=
  if s.host.ie && s.host.pending.contains src then { s with host := s.host.handled src v } else s

/-- The host program writes `IE`; inside a request it takes no step (R192). -/
def State.hostIeTurn (s : State) (b : Bool) : State :=
  if s.eng.phase = .idle then { s with host := { s.host with ie := b } } else s

/-! ## Reset (R260, R262) -/

/-- The Engine after reset. -/
def ResetDraw.engine (d : ResetDraw) : Engine where
  phase := .idle
  op := d.op
  vp := d.vp
  rem := d.rem
  idx := d.idx
  slot := d.slot
  ieSaved := d.ieSaved
  todo := []
  waiting := false

/-- The handshake registers after reset: `CTRL` is `0x00`. -/
def ResetDraw.handshake (d : ResetDraw) : Handshake where
  addrH := d.addrH
  addrM := d.addrM
  addrL := d.addrL
  autoInc := d.autoInc
  lanes := d.lanes
  ctrl := 0

/-- VP memory after a reset: of an outstanding transaction each enabled lane's byte has reached the slot or not; all other
bytes keep their values (R262). -/
def State.resetMemory (s : State) (landed : Mask) : Memory :=
  if s.hs.req && s.par.slotBacked s.hs.addr then
    s.vpm.storeLanes s.hs.addr (s.hs.mask &&& landed) s.hs.lanes
  else s.vpm

/-- Reset at any time (R262); the values R260 leaves unspecified are the draw's. -/
def State.resetTurn (s : State) (d : ResetDraw) : State :=
  { s with
    eng := d.engine
    hs := d.handshake
    vpm := s.resetMemory d.landed
    host := { s.host with ie := d.ie } }

/-! ## Whose turn it is -/

/-- The turn the block takes by itself, fair to the Device (R281): the Device if its step is enabled, else the Engine if
it has work, else the ports. -/
def State.ownTurn (s : State) : Turn :=
  if s.deviceEnabled then .device else if s.engineBusy then .engine else .present

/-- The turn that comes next. -/
def State.nextTurn (s : State) : Turn := s.sched.headD s.ownTurn

/-- The state once its next turn is taken off the schedule. -/
def State.popTurn (s : State) : State := { s with sched := s.sched.tail }

/-- One agent's step. -/
def State.takeTurn (s : State) : Turn → Result
  | .engine => s.engineTurn
  | .device => s.deviceTurn
  | .present => s.presentTurn
  | .env a m q => .next (s.envTurn a m q)
  | .fire src keep => .next (s.fireTurn src keep)
  | .handle src v => .next (s.handleTurn src v)
  | .hostIe b => .next (s.hostIeTurn b)
  | .foreign _ => .refused .notOwner
  | .reset d => .next (s.resetTurn d)

/-- One step of the machine. -/
def State.stepTurn (s : State) : Result := s.popTurn.takeTurn s.nextTurn

/-! ## Placing an instruction for the next step -/

/-- The words of an opcode-table row placed where the next step finds them: a `CTRL8` is the stored `CTRL` value, and the
Device's turn is next; any other word waits at its port, and presenting it is next (assumption log 10). -/
def State.placeWords (s : State) : List PortWord → State
  | [.ctrl8 c] => { s.setCtrl c with sched := .device :: s.sched }
  | ws => { s.setIssue (ws.map .word ++ s.port.issue) with sched := .present :: s.sched }

end Sys2Proof.Machine
end

