-- ==== Sys2Proof/Machine/Step.lean ====
section
/-! DEFINITION. The step function and the placing of an instruction where the next step runs it. -/

namespace Sys2Proof.Machine

/-- One step of the machine: one agent's step. -/
def step (s : State) : Host.Outcome State Fault Refusal := s.stepTurn

/-- The state whose next step runs the instruction of an opcode-table row's bits. -/
def State.withFetchWord (s : State) (nbits w : Nat) : State := s.placeWords (tableWords nbits w)

end Sys2Proof.Machine
end

