-- ==== Sys2Proof/Machine/Plan.lean ====
section
/-! DEFINITION. The transaction plan of a request in closed form (41_translation.md R150 to R157, R161).  No step calls
it: it is what the sequencer's transactions are compared with. -/

namespace Sys2Proof.Machine

/-- A transaction shape `(slot, lanes, first, count, autoinc)` (R150). -/
structure Shape where
  slot : SlotAddr
  lanes : Mask
  first : Nat
  count : Nat
  autoinc : Bool
deriving DecidableEq, Repr

/-- `o = A mod 2` (R155). -/
def planOdd (a : VpAddr) : Nat := a.toNat % 2
/-- `s0 = A div 2` (R155). -/
def planFirst (a : VpAddr) : Nat := a.toNat / 2
/-- `h`: the number of head bytes (R155). -/
def planHead (a : VpAddr) (l : Len) : Nat := if planOdd a = 0 then 0 else min l.toNat 2
/-- `r = L - h` (R155). -/
def planRest (a : VpAddr) (l : Len) : Nat := l.toNat - planHead a l
/-- `e = s0 + o`: the first whole-slot address (R155). -/
def planStart (a : VpAddr) : Nat := planFirst a + planOdd a
/-- `nb = r div 4` (R155). -/
def planBulk (a : VpAddr) (l : Len) : Nat := planRest a l / 4
/-- `t = r mod 4` (R155). -/
def planTail (a : VpAddr) (l : Len) : Nat := planRest a l % 4

/-- The head's shape, if the request has one (R152). -/
def headShapes (a : VpAddr) (l : Len) : List Shape :=
  if planHead a l = 0 then []
  else [⟨BitVec.ofNat 24 (planFirst a), headMask l.toNat, 0, planHead a l, false⟩]

/-- The bulk shapes (R153). -/
def bulkShapes (a : VpAddr) (l : Len) : List Shape :=
  (List.range (planBulk a l)).map fun j =>
    ⟨BitVec.ofNat 24 (planStart a + j), fullMask, planHead a l + 4 * j, 4, true⟩

/-- The tail's shape, if the request has one (R154). -/
def tailShapes (a : VpAddr) (l : Len) : List Shape :=
  if planTail a l = 0 then []
  else [⟨BitVec.ofNat 24 (planStart a + planBulk a l), tailMask (planTail a l), l.toNat - planTail a l, planTail a l,
    decide (1 ≤ planBulk a l)⟩]

/-- `Plan(A, L)` (R157). -/
def plan (a : VpAddr) (l : Len) : List Shape := headShapes a l ++ bulkShapes a l ++ tailShapes a l

/-- `HS.ADDR` after a request with `L > 0` (R161). -/
def planFinalAddr (a : VpAddr) (l : Len) : SlotAddr :=
  BitVec.ofNat 24 (planStart a + planBulk a l + (if 1 ≤ planBulk a l ∧ 0 < planTail a l then 1 else 0))

/-- `HS.AUTOINC` after a request with `L > 0` (R161). -/
def planFinalAutoInc (a : VpAddr) (l : Len) : Byte := autoIncValue (decide (1 ≤ planBulk a l))

/-- The lanes a mask names, from the highest lane number downward (R157). -/
def maskLanes (m : Mask) : List Lane := bulkLanes.filter (laneEnabled m)

end Sys2Proof.Machine
end

