-- ==== Sys2Proof/Safety.lean ====
section
/-! DEFINITION. The terms the statements use: runs, the invariant of a run, the premises under which a request ends
(`DEVICE_ACKS`, `SLOT_BACKED`, a covering buffer, a silent Environment writer), and the transactions a run issues. -/

namespace Sys2Proof.Machine

/-! ## Runs -/

/-- `n` steps, stopping at the first refusal. -/
def runN : Nat → State → Result
  | 0, s => .next s
  | n + 1, s => andThen (step s) (runN n)

/-! ## The invariant of a run -/

/-- The lane a line takes to the buffer (R181). -/
def Micro.extracts : Micro → Option Lane
  | .extract l _ => some l
  | _ => none

/-- What holds of every state a run reaches: memory is canonical; the reserved bits of `CTRL` read 0 (R32); an outstanding
transaction is none of the reserved ones (R116), and the Engine is waiting for it (R136); inside a request `IE` is 0
(R200); between requests no line is left, and only `Released` ends a request (R193, R199);
`AddressSet` is entered with `rem > 0` and does nothing but its three lines (R194); `Released` does nothing but its two
(R199); and inside a request the Engine waits, and so a hang stands, only in `PartialHead`, `BulkLoop` or `Tail` (R231); and only a read request has lines that write the buffer (R34). -/
abbrev State.Inv (s : State) : Prop :=
  s.vpm.wf = true ∧
  s.hs.reservedClear = true ∧
  (s.hs.req = true → transactionLegal s.hs.dir s.hs.mask = true) ∧
  (s.hs.req = true → s.eng.waiting = true) ∧
  (s.eng.phase ≠ .idle → s.host.ie = false) ∧
  (s.eng.phase = .idle → s.eng.todo = []) ∧
  (.finish ∈ s.eng.todo → s.eng.phase = .released) ∧
  (s.eng.phase = .addressSet → s.eng.rem ≠ 0 ∧ ∀ m ∈ s.eng.todo, m ∈ addressSetLines) ∧
  (s.eng.phase = .released → ∀ m ∈ s.eng.todo, m ∈ releasedLines) ∧
  (s.eng.waiting = true → s.eng.phase ≠ .addressSet ∧ s.eng.phase ≠ .released) ∧
  (∀ m ∈ s.eng.todo, m.extracts.isSome = true → s.eng.op = .read)

/-! ## Premises of a request (R266) -/

/-- Between requests, with nothing outstanding and no other agent about to act: the Environment writer, the handlers and
the host program are silent, and the Device acknowledges (R266, R281). -/
abbrev State.Quiet (s : State) : Prop :=
  s.eng.phase = .idle ∧ s.eng.waiting = false ∧ s.hs.req = false ∧ s.par.acks = none ∧ s.sched = []

/-- Every slot a request touches has storage behind it (`SLOT_BACKED`, R137). -/
def State.SlotsBacked (s : State) (a : VpAddr) (l : Len) : Prop :=
  ∀ k, k < l.toNat → s.par.slotBacked (slotOfByte (requestByte a k)) = true

/-- The byte of linear address `x` belongs to the request (R72). -/
abbrev inRequest (a : VpAddr) (l : Len) (x : Nat) : Prop := requestByte a 0 ≤ x ∧ x < requestByte a l.toNat

/-! ## Transactions (R107) -/

/-- A transaction descriptor, read off the handshake registers at the moment `CTRL.REQ` is set (R107, R38), with the
auto-increment setting it runs under. -/
structure Descriptor where
  dir : Dir
  slot : SlotAddr
  mask : Mask
  /-- A write's enabled lanes, or the four bytes of the slot a read fetches, from lane 3 downward. -/
  payload : List Byte
  autoinc : Bool
deriving DecidableEq, Repr

/-- The four bytes of a slot from lane 3 downward. -/
def Memory.slotBytes (m : Memory) (s : SlotAddr) : List Byte := bulkLanes.map fun l => m.read (laneAddr s l)

/-- The descriptor the handshake registers hold. -/
def State.descriptor (s : State) : Descriptor where
  dir := s.hs.dir
  slot := s.hs.addr
  mask := s.hs.mask
  payload := match s.hs.dir with
    | .write => (maskLanes s.hs.mask).map s.hs.lanes.get
    | .read => s.vpm.slotBytes s.hs.addr
  autoinc := s.hs.advances

/-- A request of either direction. -/
def requestInstr : Dir → VpAddr → Len → Instr
  | .write, a, l => .vpWrite a l
  | .read, a, l => .vpRead a l

/-- The transaction a step starts, if it starts one: `CTRL.REQ` goes from 0 to 1. -/
def started (s t : State) : List Descriptor := if !s.hs.req && t.hs.req then [t.descriptor] else []

/-- The transactions that `n` steps start, in order, up to the first refusal. -/
def transactions : Nat → State → List Descriptor
  | 0, _ => []
  | n + 1, s =>
    match step s with
    | .next t => started s t ++ transactions n t
    | _ => []

/-- The mask of the transaction of a shape: a write's is the shape's lanes, a read request issues every one with `1111`
(R150, R187). -/
def Shape.mask (d : Dir) (p : Shape) : Mask :=
  match d with
  | .write => p.lanes
  | .read => fullMask

/-- The transaction of a shape of the plan, for a buffer and a memory (R150, R157, R187). -/
def Shape.descriptor (d : Dir) (b : List Byte) (m : Memory) (p : Shape) : Descriptor where
  dir := d
  slot := p.slot
  mask := p.mask d
  payload := match d with
    | .write => (b.drop p.first).take p.count
    | .read => m.slotBytes p.slot
  autoinc := p.autoinc

/-! ## The phase arrows (R193) -/

/-- An arrow of R193 taken inside a request, with its guard on `rem`, and on the VP address where it leaves `AddressSet`.
Entering a request is `State.accept`. -/
def phaseArrow (vp : VpAddr) (rem : Len) : Phase → Phase → Bool
  | .addressSet, .partialHead => vpIsOdd vp
  | .addressSet, .bulkLoop => !vpIsOdd vp && decide (4 ≤ rem.toNat)
  | .addressSet, .tail => !vpIsOdd vp && decide (1 ≤ rem.toNat ∧ rem.toNat ≤ 3)
  | .partialHead, .bulkLoop => decide (4 ≤ rem.toNat)
  | .partialHead, .tail => decide (1 ≤ rem.toNat ∧ rem.toNat ≤ 3)
  | .partialHead, .released => rem == 0
  | .bulkLoop, .tail => decide (1 ≤ rem.toNat ∧ rem.toNat ≤ 3)
  | .bulkLoop, .released => rem == 0
  | .tail, .released => true
  | .released, .idle => true
  | _, _ => false

end Sys2Proof.Machine
end

