-- ==== Sys2Proof/Certificates/Slice0/Obligations.lean ====
section
/-! DEFINITION. The statements for the provers. -/

open Sys2Proof Sys2Proof.Machine

/-! ## Encoding (30_encoding.md) -/

/-- Decoding the words of any operation, with anything after them, gives the operation and leaves what came after (R102 to
R105, R108, R109, R113, R114): no field of an encoding is dropped. -/
def Obligations.DecodeOfEncodeIsTheInstruction : Prop :=
  ∀ (i : Instr) (rest : List PortWord), decode (encode i ++ rest) = .ok (i, rest)

/-- Words that decode to an operation are exactly that operation's words: each word sequence has one meaning. -/
def Obligations.DecodedWordsAreTheEncoding : Prop :=
  ∀ (ws rest : List PortWord) (i : Instr), decode ws = .ok (i, rest) → ws = encode i ++ rest

/-- Words of the table of vector group B1, written out from the spec, decode to the operations they stand for. -/
def Obligations.VectorWordsDecode : Prop :=
  decodeTableWord 40 0x000920002 = some (.vpWrite 0x0092 2) ∧
  decodeTableWord 40 0x100930009 = some (.vpRead 0x0093 9) ∧
  decode [.hsev13 0x1000, .hsev13 0x1100, .hsev13 0x1249] = .ok (.setTarget 0x49, []) ∧
  decodeTableWord 16 0x1301 = some (.setAutoIncrement true) ∧
  decodeTableWord 16 0x1B12 = some (.loadLane .l3 0x12) ∧
  decodeTableWord 16 0x0900 = some (.readLane .l1) ∧
  decodeTableWord 16 0x148C = some (.executeWrite 0b1100) ∧
  decodeTableWord 16 0x14AF = some .executeRead ∧
  decodeTableWord 16 0x0400 = some .pollCtrl ∧
  decodeTableWord 16 0x1400 = some .release ∧
  decodeTableWord 8 0 = some .irqMask ∧
  decodeTableWord 8 1 = some .irqRestore

/-- The reserved words of R116 are refused, each by its name: a reserved index, a read of `ADDR_*` or `AUTOINC`, another
value for `AUTOINC`, a `CTRL` value with a reserved bit (written, or stored: U10), a masked read, and a non-zero `CTRL` value
written with `REQ = 0`. -/
def Obligations.ReservedWordsAreRefused : Prop :=
  (∀ (w : BitVec 13) (rest : List PortWord), regReserved (eventReg w) = true →
    decode (.hsev13 w :: rest) = .error .reservedIndex) ∧
  (∀ (r : BitVec 4) (rest : List PortWord), r ∈ [regAddrH, regAddrM, regAddrL, regAutoInc] →
    decode (.hsev13 (registerEvent false r 0) :: rest) = .error .registerNotReadable) ∧
  (∀ (v : Byte) (rest : List PortWord), v ≠ 0x00 → v ≠ 0x01 →
    decode (.hsev13 (registerEvent true regAutoInc v) :: rest) = .error .autoIncValue) ∧
  (∀ (v : Byte) (rest : List PortWord), v.getLsbD 6 = true ∨ v.getLsbD 4 = true →
    decode (.hsev13 (registerEvent true regCtrl v) :: rest) = .error .reservedCtrlBits ∧
    decode (.ctrl8 v :: rest) = .error .reservedCtrlBits) ∧
  (∀ (m : Mask) (rest : List PortWord), m ≠ 0b1111 →
    decode (.hsev13 (registerEvent true regCtrl (controlStart .read m)) :: rest) = .error .maskedRead) ∧
  (∀ (v : Byte) (rest : List PortWord), v ≠ 0 → v.getLsbD 7 = false → v.getLsbD 6 = false → v.getLsbD 4 = false →
    decode (.hsev13 (registerEvent true regCtrl v) :: rest) = .error .idleCtrlNotZero)

/-- A write transaction with no lane and a masked read are refused in every state (R116, U2, U3).  That a stored one is refused
by `DEV_COMPLETE`, and so at the Device's turn and not before, is read from R116 (assumption log 28). -/
def Obligations.ReservedTransactionsAreRefused : Prop :=
  ∀ s : State,
    exec (.executeWrite 0) s = .refused .emptyMask ∧
    exec (.devComplete .write 0) s = .refused .emptyMask ∧
    ∀ m : Mask, m ≠ 0b1111 → exec (.devComplete .read m) s = .refused .maskedRead

/-! ## The step runs the decoded operation -/

/-- When the words of an operation stand at the ports and the ports have the turn, the step is that operation, its words
taken off.  Words are taken between requests while no transaction is outstanding; register words also while `CTRL.REQ = 1`
(a write or a lane read is then refused, R116, R270); a poll always (R136); a request word inside a request too (it is refused
there, R203).  Between requests, register words that decode to no operation are refused by name (R115, R116), a register write while `CTRL.REQ = 1` is
refused whatever it writes (R116, R270), and a `CTRL8` at the ports is refused at any time, since no agent issues
`DEV_COMPLETE` (R137).  Ports as a queue of words, whose turn comes next, and that an `IRQ_RESTORE` word reads `ie_saved` between
requests are the model's choices (assumption log 7, 10, 21, 26, 29). -/
def Obligations.StepRunsThePresentedWords : Prop :=
  (∀ (s : State) (i : Instr) (rest : List PortItem), s.nextTurn = .present →
    s.port.issue = (encode i).map .word ++ rest → (∀ d m, i ≠ .devComplete d m) →
    (s.eng.phase = .idle ∧ (s.blocked = false ∨ s.hs.req = true ∧ i.formats.head? = some .hsev13 ∨ i = .pollCtrl) ∨
      s.eng.phase ≠ .idle ∧ ∃ d a l, i = requestInstr d a l) →
    step s = exec i (s.popTurn.setIssue rest)) ∧
  (∀ (s : State) (w : BitVec 13) (rest : List PortItem), s.nextTurn = .present →
    s.port.issue = .word (.hsev13 w) :: rest → s.eng.phase = .idle →
    (∀ e, decode (frontWords s.port.issue) = .error e → step s = .refused (.reservedWord e)) ∧
    (s.hs.req = true → eventIsWrite w = true → ∃ r, step s = .refused r)) ∧
  ∀ (s : State) (c : Byte) (rest : List PortItem), s.nextTurn = .present → s.port.issue = .word (.ctrl8 c) :: rest →
    step s = .refused .notOwner

/-- Between requests, while the Engine is in the wait of an `EXECUTE_*` from the ports or its transaction is outstanding, the
Engine does nothing else (R136): a request or an interrupt-mask word at the ports stays there and nothing changes, and so does,
once the transaction is complete, a register word that stands for another operation than a poll (before that a register write
is refused, `StepRunsThePresentedWords`); a request is not accepted.  That what is presented then waits is the model's choice
(assumption log 26).  A poll at the ports is taken: it returns `CTRL`, the first that reads `REQ = 0` ends the wait, and nothing
else changes (R136). -/
def Obligations.PortsWaitForTheTransaction : Prop :=
  ∀ s : State, s.eng.phase = .idle → s.blocked = true →
    (∀ w rest, s.nextTurn = .present → s.port.issue = .word w :: rest → w.format ≠ .ctrl8 →
      w.format ≠ .hsev13 ∨
        s.hs.req = false ∧ (∃ i r, decode (frontWords s.port.issue) = .ok (i, r) ∧ i ≠ .pollCtrl) →
      step s = .next s.popTurn) ∧
    (∀ rest, s.nextTurn = .present → s.port.issue = (encode .pollCtrl).map .word ++ rest →
      step s = .next { s with
        eng := { s.eng with waiting := s.eng.waiting && s.hs.req }
        port := { s.port with issue := rest, readData := s.hs.ctrl }
        sched := s.sched.tail }) ∧
    ∀ d a l, exec (requestInstr d a l) s = .next s

/-- When the Device has the turn and the stored `CTRL` is `1 0 d 0 m m m m`, the step is `DEV_COMPLETE` (R114); a stored value
with bit 6 or bit 4 set is refused by name (R116, U10); and with those bits 0 and `REQ = 0` the Device holds.  Whose turn
comes next is the model's data (assumption log 7), a hold as a step its choice (log 9), and that the refusal stands at the
Device's turn, with `REQ = 0` too, is read from R116 (log 28). -/
def Obligations.StepRunsTheDevice : Prop :=
  ∀ s : State, s.nextTurn = .device →
    (∀ d m, s.hs.ctrl = controlStart d m → step s = exec (.devComplete d m) s.popTurn) ∧
    (s.hs.ctrl.getLsbD 6 = true ∨ s.hs.ctrl.getLsbD 4 = true → step s = .refused (.reservedWord .reservedCtrlBits)) ∧
    (s.hs.ctrl.getLsbD 6 = false → s.hs.ctrl.getLsbD 4 = false → s.hs.req = false → step s = .next s.popTurn)

/-- When the Engine has the turn, the step is a poll while it waits (R136), and else its next line.  A line that issues an
operation is that operation on its operands as they are now: `SET_TARGET(slot)`, `SET_AUTO_INCREMENT`, `LOAD_LANE` of
`buf[idx + off]`, `EXECUTE_WRITE`, `EXECUTE_READ`, `RELEASE`; `READ_LANE` and then `buf[idx + off]` takes the byte read;
`IRQ_RESTORE` and then `phase <- Idle; done`.  The other lines are `slot <- zext_24(vp >> 1)`, `slot <- slot + 1` and
`idx <- idx + n; rem <- rem - n`, and change nothing else (R90, R170, R171, R180, R181, R194, R195, R197, R199).  A staging or
extracting line whose byte the buffer does not have refuses; that the refusal comes at that line is read from R239 (R232;
assumption log 13).  One line a step is the model's granularity (assumption log 7, 11). -/
def Obligations.StepRunsTheEnginesLine : Prop :=
  ∀ s : State, s.nextTurn = .engine →
    (s.eng.waiting = true → step s = exec .pollCtrl s.popTurn) ∧
    ∀ (m : Micro) (rest : List Micro), s.eng.waiting = false → s.eng.todo = m :: rest →
      let u : State := { s.popTurn with eng := { s.eng with todo := rest } }
      let at_ (off : Nat) : Nat := s.eng.idx.toNat + off
      (m = .target → step s = exec (.setTarget s.eng.slot) u) ∧
      (∀ on, m = .autoInc on → step s = exec (.setAutoIncrement on) u) ∧
      (∀ l off, m = .stage l off →
        (∀ b v, s.buf = some b → b[at_ off]? = some v → step s = exec (.loadLane l v) u) ∧
        ((∀ b, s.buf = some b → b.length ≤ at_ off) → step s = .refused .bufferContract)) ∧
      (∀ k, m = .executeWrite k → step s = exec (.executeWrite k) u) ∧
      (m = .executeRead → step s = exec .executeRead u) ∧
      (∀ l off, m = .extract l off → s.hs.req = true → step s = .refused .transactionOutstanding) ∧
      (∀ l off, m = .extract l off → s.hs.req = false →
        (∀ b, s.buf = some b → at_ off < b.length → ∃ t, exec (.readLane l) u = .next t ∧
          step s = .next { t with buf := some (b.set (at_ off) (s.hs.lanes.get l)) }) ∧
        ((∀ b, s.buf = some b → b.length ≤ at_ off) → step s = .refused .bufferContract)) ∧
      (m = .release → step s = exec .release u) ∧
      (m = .finish → ∃ t, exec .irqRestore u = .next t ∧ step s = .next { t with
        eng := { t.eng with phase := .idle, todo := [] }, port := { t.port with dones := t.port.dones + 1 } }) ∧
      (m = .setSlot → step s = .next { u with eng := { u.eng with slot := (s.eng.vp >>> 1).setWidth 24 } }) ∧
      (m = .nextSlot → step s = .next { u with eng := { u.eng with slot := s.eng.slot + 1 } }) ∧
      (∀ n, m = .consume n → step s = .next { u with eng := { u.eng with
        idx := s.eng.idx + BitVec.ofNat 16 n, rem := s.eng.rem - BitVec.ofNat 16 n } })

/-- When the Engine has the turn and the lines of its phase are carried out, the step takes the arrow of R193 whose guard
holds and enters the next phase with its lines; `SET_AUTO_INCREMENT(true)` is the first line of the first pass through
`BulkLoop` only (R193 to R195, R197, R198).  Between requests nothing changes.  (`Released` is left by its last line.)  The
move as a step of its own is the model's granularity (assumption log 11). -/
def Obligations.EngineLeavesAPhaseByItsArrow : Prop :=
  ∀ s : State, s.nextTurn = .engine → s.eng.waiting = false → s.eng.todo = [] →
    let enters (p : Phase) (q : List Micro) := step s = .next { s.popTurn with eng := { s.eng with phase := p, todo := q } }
    (s.eng.phase = .idle → step s = .next s.popTurn) ∧
    (s.eng.phase = .addressSet → vpIsOdd s.eng.vp = true →
      enters .partialHead (headLines s.eng.op (min s.eng.rem.toNat 2))) ∧
    (s.eng.phase = .addressSet ∧ vpIsOdd s.eng.vp = false ∨ s.eng.phase = .partialHead → 4 ≤ s.eng.rem.toNat →
      enters .bulkLoop (.autoInc true :: bulkLines s.eng.op)) ∧
    (s.eng.phase = .bulkLoop → 4 ≤ s.eng.rem.toNat → enters .bulkLoop (bulkLines s.eng.op)) ∧
    (s.eng.phase = .addressSet ∧ vpIsOdd s.eng.vp = false ∨ s.eng.phase = .partialHead ∨ s.eng.phase = .bulkLoop →
      1 ≤ s.eng.rem.toNat → s.eng.rem.toNat ≤ 3 → enters .tail (tailLines s.eng.op s.eng.rem.toNat)) ∧
    (s.eng.phase = .partialHead ∨ s.eng.phase = .bulkLoop → s.eng.rem = 0 → enters .released [.release, .finish]) ∧
    (s.eng.phase = .tail → enters .released [.release, .finish])

/-- The lines of the phases are the pseudocode of R170 and R180: what is staged or extracted, in which order, with which mask
(R110 to R112, R171, R181, R194, R199).  On the read path every transaction is an `EXECUTE_READ`, whose mask is `1111`, and
the masks of R110 and R111 name the lanes extracted. -/
def Obligations.PhaseLinesAreThePseudocode : Prop :=
  addressSetLines = [.setSlot, .target, .autoInc false] ∧ releasedLines = [.release, .finish] ∧
  headLines .write 1 = [.stage .l1 0, .consume 1, .executeWrite 0b0010, .nextSlot, .target] ∧
  headLines .write 2 =
    [.stage .l1 0, .consume 1, .stage .l0 0, .consume 1, .executeWrite 0b0011, .nextSlot, .target] ∧
  headLines .read 1 = [.executeRead, .extract .l1 0, .consume 1, .nextSlot, .target] ∧
  headLines .read 2 = [.executeRead, .extract .l1 0, .consume 1, .extract .l0 0, .consume 1, .nextSlot, .target] ∧
  bulkLines .write =
    [.stage .l3 0, .stage .l2 1, .stage .l1 2, .stage .l0 3, .executeWrite 0b1111, .consume 4, .nextSlot] ∧
  bulkLines .read =
    [.executeRead, .extract .l3 0, .extract .l2 1, .extract .l1 2, .extract .l0 3, .consume 4, .nextSlot] ∧
  tailLines .write 1 = [.stage .l3 0, .executeWrite 0b1000, .consume 1] ∧
  tailLines .write 2 = [.stage .l3 0, .stage .l2 1, .executeWrite 0b1100, .consume 2] ∧
  tailLines .write 3 = [.stage .l3 0, .stage .l2 1, .stage .l1 2, .executeWrite 0b1110, .consume 3] ∧
  tailLines .read 1 = [.executeRead, .extract .l3 0, .consume 1] ∧
  tailLines .read 2 = [.executeRead, .extract .l3 0, .extract .l2 1, .consume 2] ∧
  tailLines .read 3 = [.executeRead, .extract .l3 0, .extract .l2 1, .extract .l1 2, .consume 3] ∧
  (∀ n, 1 ≤ n → n ≤ 2 → (headLines .read n).filterMap Micro.extracts = maskLanes (headMask n)) ∧
  (bulkLines .read).filterMap Micro.extracts = maskLanes 0b1111 ∧
  (∀ n, 1 ≤ n → n ≤ 3 → (tailLines .read n).filterMap Micro.extracts = maskLanes (tailMask n)) ∧
  ∀ s : State, s.hs.req = false → ∃ t, exec .executeRead s = .next t ∧ t.hs.mask = 0b1111 ∧ t.hs.dir = .read

/-- An opcode-table row's bits, placed by `withFetchWord`, are what the very next step runs, on the state as it was (with
the stored `CTRL` that enables it, for the Device's step).  The placing is the model's (assumption log 10, 26). -/
def Obligations.PlacedWordRunsNext : Prop :=
  ∀ (s : State) (nbits w : Nat) (i : Instr), decodeTableWord nbits w = some i →
    (s.eng.phase = .idle → s.blocked = false → (∀ d m, i ≠ .devComplete d m) →
      step (s.withFetchWord nbits w) = exec i s) ∧
    (∀ d m, i = .devComplete d m → step (s.withFetchWord nbits w) = exec i (s.setCtrl (controlStart d m)))

/-! ## Reset (70_reset_and_hazards.md) -/

/-- A reset at any time puts `phase = Idle` and `CTRL = 0x00`, and every other register at the value drawn for it; of an
outstanding transaction to a backed slot, the bytes of the enabled lanes that landed are the lanes', and every other byte
of VP memory keeps its value (R260, R262).  What a reset leaves alone outside the block (the buffer, what is pending, the
ports) is the model's choice (assumption log 12). -/
def Obligations.ResetAtAnyTime : Prop :=
  ∀ (s : State) (d : ResetDraw), s.nextTurn = .reset d → s.vpm.wf = true →
    ∃ t, step s = .next t ∧ t.eng.phase = .idle ∧ t.hs.ctrl = 0 ∧ t.eng = d.engine ∧ t.hs = d.handshake ∧
      t.host = { s.host with ie := d.ie } ∧ t.buf = s.buf ∧ t.par = s.par ∧ t.port = s.port ∧ t.sched = s.sched.tail ∧
      (∀ l, s.hs.req = true → s.par.slotBacked s.hs.addr = true → laneEnabled s.hs.mask l = true →
        laneEnabled d.landed l = true → t.vpm.read (laneAddr s.hs.addr l) = s.hs.lanes.get l) ∧
      (∀ x, (∀ l, s.hs.req = true → s.par.slotBacked s.hs.addr = true → laneEnabled s.hs.mask l = true →
        laneEnabled d.landed l = true → x ≠ laneAddr s.hs.addr l) → t.vpm.read x = s.vpm.read x)

/-- After a reset, whatever was drawn, the block is ready for a request at once: the next one is accepted, or, if its length
is 0, ends (R261).  It is accepted whatever the buffer is: the null buffer of `State.reset` is the model's choice (assumption
log 3), and that a request with `L > 0` and a null or too short buffer, which R232 has a model refuse, is refused only at its
first access of a missing byte, and not at acceptance, is read from R239 (assumption log 13). -/
def Obligations.ResetBlockAcceptsARequest : Prop :=
  ∀ (s : State) (d : ResetDraw) (o : Dir) (a : VpAddr) (l : Len),
    let accepts (u : State) := u.eng.phase = .idle ∧ u.blocked = false ∧ ∃ t, exec (requestInstr o a l) u = .next t ∧
      (l ≠ 0 → t.eng.phase = .addressSet ∧ t.eng.op = o ∧ t.eng.vp = a ∧ t.eng.rem = l) ∧
      (l = 0 → t.eng.phase = .idle ∧ t.port.dones = u.port.dones + 1)
    accepts (s.resetTurn d) ∧ accepts State.reset

/-! ## The invariant -/

/-- Every step keeps the invariant: canonical memory, the reserved bits of `CTRL` 0 (R32), no reserved transaction
outstanding (R116), the Engine waiting for an outstanding transaction (R136), `IE = 0` inside a request (R200), the lines of
each phase within their phase (R193, R194, R199), and a wait, and so a hang, inside a request only in `PartialHead`,
`BulkLoop` or `Tail` (R231), and lines that write the buffer only in a read request (R34). -/
def Obligations.StepKeepsTheInvariant : Prop :=
  ∀ s t : State, s.Inv → step s = .next t → t.Inv

/-- The reset state has the invariant.  `phase = Idle` and `CTRL = 0x00` are the spec's; the values of the other registers,
and of memory, at reset are the model's (assumption log 1, 2, 3). -/
def Obligations.ResetHasTheInvariant : Prop := State.reset.Inv

/-! ## Handshake primitives (40_handshake_primitives.md) -/

/-- `SET_TARGET` writes the three address fields and changes nothing else; read as one 24-bit value they are the slot
address (R130). -/
def Obligations.SetTargetWritesTheThreeFields : Prop :=
  ∀ (a : SlotAddr) (s : State), s.hs.req = false →
    ∃ t, exec (.setTarget a) s = .next t ∧ t.hs.addr = a ∧
      t = { s with hs := { s.hs with
        addrH := a.extractLsb' 16 8, addrM := a.extractLsb' 8 8, addrL := a.extractLsb' 0 8 } }

/-- `SET_AUTO_INCREMENT` writes `0x01` or `0x00` to `AUTOINC` and changes nothing else (R131). -/
def Obligations.SetAutoIncrementWritesTheToggle : Prop :=
  ∀ (e : Bool) (s : State), s.hs.req = false →
    exec (.setAutoIncrement e) s = .next { s with hs := { s.hs with autoInc := if e then 0x01 else 0x00 } }

/-- `LOAD_LANE` stages one byte and touches neither the other three lanes nor anything else (R132). -/
def Obligations.LoadLaneStagesOneByte : Prop :=
  ∀ (l : Lane) (v : Byte) (s : State), s.hs.req = false →
    ∃ q, exec (.loadLane l v) s = .next { s with hs := { s.hs with lanes := q } } ∧ q.get l = v ∧
      ∀ k, k ≠ l → q.get k = s.hs.lanes.get k

/-- `READ_LANE` returns the lane's byte and changes nothing (R133).  That it also does so when the last completed
transaction was not a read is the model's choice (U13, assumption log 8). -/
def Obligations.ReadLaneReturnsTheStagedByte : Prop :=
  ∀ (l : Lane) (s : State), s.hs.req = false →
    exec (.readLane l) s = .next { s with port := { s.port with readData := s.hs.lanes.get l } }

/-- `EXECUTE_WRITE` writes `0x80 | mask` to `CTRL` in one write and starts the wait; once `DEV_COMPLETE` has happened the
enabled lanes' bytes of the slot are the lanes', every other byte is as before, the lanes are unchanged, and the address
has been advanced by one exactly if `AUTOINC[0] = 1` (R134).  That this holds of masks the Engine never builds too is the
reading R116 admits (assumption log 6). -/
def Obligations.WriteTransactionStoresTheEnabledLanes : Prop :=
  ∀ (m : Mask) (s : State), m ≠ 0 → s.hs.req = false → s.vpm.wf = true → s.par.slotBacked s.hs.addr = true →
    s.par.deviceAcks = true →
    ∃ t u, exec (.executeWrite m) s = .next t ∧
      t = { s with hs := { s.hs with ctrl := 0x80 ||| m.setWidth 8 }, eng := { s.eng with waiting := true } } ∧
      exec (.devComplete .write m) t = .next u ∧
      (∀ l, laneEnabled m l = true → u.vpm.read (laneAddr s.hs.addr l) = s.hs.lanes.get l) ∧
      (∀ x, (∀ l, laneEnabled m l = true → x ≠ laneAddr s.hs.addr l) → u.vpm.read x = s.vpm.read x) ∧
      u.hs.lanes = s.hs.lanes ∧ u.hs.autoInc = s.hs.autoInc ∧ u.hs.ctrl = m.setWidth 8 ∧
      u.hs.addr = (if s.hs.autoInc.getLsbD 0 then s.hs.addr + 1 else s.hs.addr) ∧
      u.eng = t.eng ∧ u.buf = s.buf ∧ u.host = s.host ∧ u.port = s.port ∧ u.sched = s.sched ∧
      u.par.unbacked = s.par.unbacked ∧ u.par.envWrites = s.par.envWrites

/-- `EXECUTE_READ` writes `0xAF` to `CTRL` and starts the wait; once `DEV_COMPLETE` has happened all four lanes hold the
slot's bytes, VP memory is unchanged, and the address has been advanced by one exactly if `AUTOINC[0] = 1` (R135). -/
def Obligations.ReadTransactionFillsAllFourLanes : Prop :=
  ∀ s : State, s.hs.req = false → s.par.slotBacked s.hs.addr = true → s.par.deviceAcks = true →
    ∃ t u, exec .executeRead s = .next t ∧
      t = { s with hs := { s.hs with ctrl := 0xAF }, eng := { s.eng with waiting := true } } ∧
      exec (.devComplete .read 0b1111) t = .next u ∧
      (∀ l, u.hs.lanes.get l = s.vpm.read (laneAddr s.hs.addr l)) ∧
      u.vpm = s.vpm ∧ u.hs.autoInc = s.hs.autoInc ∧ u.hs.ctrl = 0x2F ∧
      u.hs.addr = (if s.hs.autoInc.getLsbD 0 then s.hs.addr + 1 else s.hs.addr) ∧
      u.eng = t.eng ∧ u.buf = s.buf ∧ u.host = s.host ∧ u.port = s.port ∧ u.sched = s.sched ∧
      u.par.unbacked = s.par.unbacked ∧ u.par.envWrites = s.par.envWrites

/-- A poll returns `CTRL` and changes no register, no byte of memory and no flag; the first poll that reads `REQ = 0` ends
the wait (R136).  The read value kept in `readData` and the wait as a flag are the model's fields (assumption log 5, 23). -/
def Obligations.PollReturnsCtrlAndEndsTheWait : Prop :=
  ∀ s : State,
    exec .pollCtrl s = .next { s with
      port := { s.port with readData := s.hs.ctrl }
      eng := { s.eng with waiting := s.eng.waiting && s.hs.ctrl.getLsbD 7 } }

/-- `DEV_COMPLETE` of a transaction the stored `CTRL` requests, to a backed slot, with the Device acknowledging: a write
stores the enabled lanes' bytes and leaves the lanes, a read fills all four lanes and leaves VP memory; the address
advances by one modulo `2^24` exactly if `AUTOINC[0] = 1`; of `CTRL` only `REQ` changes; nothing else changes (R137; masks
the Engine never builds: assumption log 6; the count of acknowledgements to come: log 18). -/
def Obligations.DeviceCompletesOneTransaction : Prop :=
  ∀ (d : Dir) (m : Mask) (s : State), transactionLegal d m = true → s.hs.ctrl = controlStart d m → s.vpm.wf = true →
    s.par.slotBacked s.hs.addr = true → s.par.deviceAcks = true →
    ∃ t, exec (.devComplete d m) s = .next t ∧
      (d = .write → t.hs.lanes = s.hs.lanes ∧
        (∀ l, laneEnabled m l = true → t.vpm.read (laneAddr s.hs.addr l) = s.hs.lanes.get l) ∧
        ∀ x, (∀ l, laneEnabled m l = true → x ≠ laneAddr s.hs.addr l) → t.vpm.read x = s.vpm.read x) ∧
      (d = .read → t.vpm = s.vpm ∧ ∀ l, t.hs.lanes.get l = s.vpm.read (laneAddr s.hs.addr l)) ∧
      t.hs.addr = (if s.hs.autoInc.getLsbD 0 then s.hs.addr + 1 else s.hs.addr) ∧
      t.hs.autoInc = s.hs.autoInc ∧ t.hs.ctrl = s.hs.ctrl &&& 0x7F ∧
      t.eng = s.eng ∧ t.buf = s.buf ∧ t.host = s.host ∧ t.port = s.port ∧ t.sched = s.sched ∧
      t.par.unbacked = s.par.unbacked ∧ t.par.envWrites = s.par.envWrites ∧ (s.par.acks = none → t.par = s.par)

/-- Where the Device's step is not enabled (no request, an unbacked slot, a Device that does not acknowledge), or the stored
`CTRL` has another direction or mask than the operation, `DEV_COMPLETE` holds and nothing changes (R137, R231).  Bits 6 and 4
of the stored `CTRL` make no difference to the operation (R28, R32); a step refuses a value that has one of them set before
it comes to the operation (`StepRunsTheDevice`).  Showing the hold as a step that leaves the state as it is is the model's
choice (assumption log 9). -/
def Obligations.DeviceHoldsWhenNotEnabled : Prop :=
  ∀ (d : Dir) (m : Mask) (s : State), transactionLegal d m = true →
    (s.hs.req = false ∨ s.hs.dir ≠ d ∨ s.hs.mask ≠ m ∨ s.par.slotBacked s.hs.addr = false ∨ s.par.acks = some 0) →
    exec (.devComplete d m) s = .next s

/-- `RELEASE` writes `0x00` to `CTRL` and changes nothing else (R138). -/
def Obligations.ReleaseClearsCtrl : Prop :=
  ∀ s : State, s.hs.req = false → exec .release s = .next { s with hs := { s.hs with ctrl := 0x00 } }

/-- While a transaction is outstanding a lane read is refused, as every register write is (R116, R133). -/
def Obligations.OutstandingTransactionRefusesLaneReads : Prop :=
  ∀ (l : Lane) (s : State), s.hs.req = true → exec (.readLane l) s = .refused .transactionOutstanding

/-- The transaction invariant (R270): while `CTRL.REQ = 1` every operation that writes an address field, `AUTOINC`, a lane
or `CTRL` is refused, and a step that changes any of these registers is the Device's, or a reset. -/
def Obligations.OutstandingTransactionKeepsItsRegisters : Prop :=
  ∀ s : State, s.hs.req = true →
    (∀ a, exec (.setTarget a) s = .refused .transactionOutstanding) ∧
    (∀ e, exec (.setAutoIncrement e) s = .refused .transactionOutstanding) ∧
    (∀ l v, exec (.loadLane l v) s = .refused .transactionOutstanding) ∧
    (∀ m, m ≠ 0 → exec (.executeWrite m) s = .refused .transactionOutstanding) ∧
    exec .executeRead s = .refused .transactionOutstanding ∧
    exec .release s = .refused .transactionOutstanding ∧
    ∀ t, step s = .next t → t.hs ≠ s.hs → s.nextTurn = .device ∨ ∃ d, s.nextTurn = .reset d

/-! ## The interrupt mask and the request port (44_sequencer_atomicity.md) -/

/-- `IRQ_MASK`, in one step, saves `IE` and clears it, and changes nothing else (R190). -/
def Obligations.IrqMaskSavesAndClears : Prop :=
  ∀ s : State, exec .irqMask s =
    .next { s with eng := { s.eng with ieSaved := s.host.ie }, host := { s.host with ie := false } }

/-- `IRQ_RESTORE` puts the saved value back, not an unconditional 1, and changes nothing else (R191).  That it does so
between requests too, where R21 calls the saved value dead, is the model's choice (assumption log 29). -/
def Obligations.IrqRestorePutsTheSavedValueBack : Prop :=
  ∀ s : State, exec .irqRestore s = .next { s with host := { s.host with ie := s.eng.ieSaved } }

/-- A request with `L > 0` presented in `Idle`, no transaction outstanding (R261, R266), is accepted: `IE` is saved and cleared, the request word is latched, `idx`
is 0, and the phase is `AddressSet` with its three lines; no handshake register, no byte of VP memory and no byte of the
buffer changes (R192, R193).  `IRQ_MASK` and the latching as one step is the model's granularity (assumption log 11); a request that
meets an outstanding transaction waits (assumption log 26).  It is accepted whatever the buffer is: that a request with a null or
too short buffer, which R232 has a model refuse, is refused only at its first access of a missing byte, and not at acceptance,
is read from R239 (assumption log 13). -/
def Obligations.AcceptedRequestIsLatched : Prop :=
  ∀ (d : Dir) (a : VpAddr) (l : Len) (s : State), s.eng.phase = .idle → s.blocked = false → l ≠ 0 →
    exec (requestInstr d a l) s = .next { s with
      eng := { s.eng with
        phase := .addressSet, op := d, vp := a, rem := l, idx := 0, ieSaved := s.host.ie
        todo := [.setSlot, .target, .autoInc false] }
      host := { s.host with ie := false } }

/-- A request with `L = 0`, no transaction outstanding, ends at once: `phase` stays `Idle`, no handshake register, no byte of VP memory and no byte of
the buffer is touched, and `IE` is as before (R196). -/
def Obligations.ZeroLengthRequestTouchesNothing : Prop :=
  ∀ (d : Dir) (a : VpAddr) (s : State), s.eng.phase = .idle → s.blocked = false →
    ∃ t, exec (requestInstr d a 0) s = .next t ∧ t.eng.phase = .idle ∧ t.hs = s.hs ∧ t.vpm = s.vpm ∧ t.buf = s.buf ∧
      t.host = s.host ∧ t.par = s.par ∧ t.port = { s.port with dones := s.port.dones + 1 } ∧ t.sched = s.sched ∧
      t.eng.slot = s.eng.slot ∧ t.eng.todo = [] ∧ t.eng.waiting = s.eng.waiting

/-- A request presented while `phase != Idle` is refused (R203). -/
def Obligations.BusyEngineRefusesARequest : Prop :=
  ∀ (d : Dir) (a : VpAddr) (l : Len) (s : State), s.eng.phase ≠ .idle →
    exec (requestInstr d a l) s = .refused .requestWhileBusy

/-- A register access that does not come from the Engine is refused: any foreign access, and a register or interrupt-mask
word presented during a request (R242, R246; what a word from the ports stands for: assumption log 21). -/
def Obligations.ForeignAccessIsRefused : Prop :=
  ∀ s : State,
    (∀ w, s.nextTurn = .foreign w → step s = .refused .notOwner) ∧
    (∀ w rest, s.nextTurn = .present → s.eng.phase ≠ .idle → s.port.issue = .word (.hsev13 w) :: rest →
      step s = .refused .notOwner) ∧
    (∀ w rest, s.nextTurn = .present → s.eng.phase ≠ .idle → s.port.issue = .word (.ieev1 w) :: rest →
      step s = .refused .notOwner)

/-- The phase moves only along the arrows of R193, with their guards: apart from a reset, either a request with `L > 0` is
accepted from `Idle`, or an arrow inside a request is taken. -/
def Obligations.PhaseMovesOnlyAlongTheArrows : Prop :=
  ∀ s t : State, s.Inv → step s = .next t → t.eng.phase ≠ s.eng.phase →
    (∃ d, s.nextTurn = .reset d) ∨
    (s.nextTurn = .present ∧ s.eng.phase = .idle ∧ t.eng.phase = .addressSet ∧ t.eng.rem ≠ 0) ∨
    (s.nextTurn = .engine ∧ phaseArrow s.eng.vp s.eng.rem s.eng.phase t.eng.phase = true)

/-- Inside a request its parameters and the saved `IE` stay as sampled at acceptance, and `idx + rem` stays what it was:
the length (R21, R90, R192). -/
def Obligations.RequestInProgressKeepsItsParameters : Prop :=
  ∀ s t : State, s.eng.phase ≠ .idle → step s = .next t → t.eng.phase ≠ .idle →
    t.eng.op = s.eng.op ∧ t.eng.vp = s.eng.vp ∧ t.eng.ieSaved = s.eng.ieSaved ∧
    t.eng.idx + t.eng.rem = s.eng.idx + s.eng.rem

/-! ## Interrupts and the other agents (60_exceptions.md) -/

/-- `IE` changes only when the host program writes it, at a reset, when an operation from the ports runs between requests,
and when the Engine ends a request (R20, R35, R200; when the host program and the ports act: assumption log 16, 21). -/
def Obligations.InterruptEnableHasItsOwners : Prop :=
  ∀ s t : State, s.Inv → step s = .next t → t.host.ie ≠ s.host.ie →
    (∃ b, s.nextTurn = .hostIe b) ∨ (∃ d, s.nextTurn = .reset d) ∨
    (s.nextTurn = .present ∧ s.eng.phase = .idle) ∨
    (s.nextTurn = .engine ∧ s.eng.phase = .released ∧ t.eng.phase = .idle ∧ t.host.ie = s.eng.ieSaved)

/-- A handler step is conditional on `IE = 1`: with `IE = 0`, as inside every request, the handler's turn changes nothing;
with `IE = 1` and its source pending it runs, leaving the block's registers, VP memory and the buffer alone (R200, R236,
R237).  That it runs in one step and takes one firing off is the model's choice (assumption log 14). -/
def Obligations.HandlerRunsOnlyUnmasked : Prop :=
  ∀ (s : State) (src : IrqSource) (v : Nat), s.nextTurn = .handle src v →
    (s.host.ie = false → step s = .next s.popTurn) ∧
    (s.Inv → s.eng.phase ≠ .idle → step s = .next s.popTurn) ∧
    (s.host.ie = true → src ∈ s.host.pending →
      ∃ h, step s = .next { s.popTurn with host := h } ∧ h.ie = true ∧ h.pending = s.host.pending.erase src ∧
        h.tick = (if src = .tickTimer then v else s.host.tick) ∧ h.rtc = (if src = .rtcSecond then v else s.host.rtc))

/-- A source that fires is pending from then on, whatever `IE` is (R36, R236): it joins the end of the pending list, unless it
stands there already and the schedule says that this firing is not remembered; the list is otherwise as it was, and nothing
else changes.  That further firings may or may not be remembered, as the schedule says, is the model's choice (assumption
log 15). -/
def Obligations.FiredSourceBecomesPending : Prop :=
  ∀ (s : State) (src : IrqSource) (keep : Bool), s.nextTurn = .fire src keep →
    ∃ p, step s = .next { s.popTurn with host := { s.host with pending := p } } ∧ src ∈ p ∧
      (src ∈ s.host.pending → keep = false → p = s.host.pending) ∧
      (src ∉ s.host.pending ∨ keep = true → p = s.host.pending ++ [src])

/-- The tick counter and the clock record change only in their own handlers, and so only while `IE = 1` (R37, R201; the
handler as one step: assumption log 14). -/
def Obligations.CountersChangeOnlyInHandlers : Prop :=
  ∀ s t : State, step s = .next t →
    (t.host.tick ≠ s.host.tick → ∃ v, s.nextTurn = .handle .tickTimer v ∧ s.host.ie = true) ∧
    (t.host.rtc ≠ s.host.rtc → ∃ v, s.nextTurn = .handle .rtcSecond v ∧ s.host.ie = true)

/-- VP memory is written only by the Device completing a write transaction, by the Environment writer at a step at which
`ENV_WRITES` lets it (by default while `CTRL.REQ = 0`), and by a reset that strikes during a transaction (R9, R33, R40, R91,
R262). -/
def Obligations.MemoryHasItsWriters : Prop :=
  ∀ s t : State, step s = .next t → t.vpm ≠ s.vpm →
    (s.nextTurn = .device ∧ s.hs.req = true ∧ s.hs.dir = .write ∧ t.hs.req = false) ∨
    (∃ a m q, s.nextTurn = .env a m q ∧ s.envAllowed = true ∧
      (s.par.envWrites = .betweenTransactions → s.hs.req = false)) ∨
    (∃ d, s.nextTurn = .reset d ∧ s.hs.req = true)

/-- The handshake registers are changed only by the Engine and by the Device (R40, R246), by a reset (R262), and by operations
from the ports between requests: these stand for the Engine driven without a request, which is the model's choice
(assumption log 21). -/
def Obligations.HandshakeRegistersHaveTheirOwners : Prop :=
  ∀ s t : State, step s = .next t → t.hs ≠ s.hs →
    s.nextTurn = .engine ∨ s.nextTurn = .device ∨ (s.nextTurn = .present ∧ s.eng.phase = .idle) ∨
    ∃ d, s.nextTurn = .reset d

/-- The caller's buffer has two writers (R34, R40): the Requester, which sets it only between requests, and the Engine, which
stores the byte of a lane it extracts, only in a read request.  A buffer presented between requests is set and nothing else
changes; presented inside a request it stays at its port and nothing changes, since the Requester is blocked (R192).  Setting
the buffer as an item at the ports is the model's choice (assumption log 16, 24). -/
def Obligations.BufferHasItsOwners : Prop :=
  (∀ s t : State, s.Inv → step s = .next t → t.buf ≠ s.buf →
    (s.nextTurn = .present ∧ s.eng.phase = .idle ∧ ∃ b rest, s.port.issue = .buffer b :: rest ∧ t.buf = b) ∨
    (s.nextTurn = .engine ∧ s.eng.phase ≠ .idle ∧ s.eng.op = .read ∧
      ∃ l off rest b, s.eng.todo = .extract l off :: rest ∧ s.buf = some b ∧ s.eng.idx.toNat + off < b.length ∧
        t.buf = some (b.set (s.eng.idx.toNat + off) (s.hs.lanes.get l)))) ∧
  ∀ (s : State) (b : Option (List Byte)) (rest : List PortItem), s.nextTurn = .present →
    s.port.issue = .buffer b :: rest →
    (s.eng.phase = .idle → step s = .next { s.popTurn with buf := b, port := { s.port with issue := rest } }) ∧
    (s.eng.phase ≠ .idle → step s = .next s.popTurn)

/-- The Environment writer changes exactly the bytes it names of a backed slot at a step at which `ENV_WRITES` lets it, and
nothing at any other step or of a slot without storage; by default it may write at any step at which `CTRL.REQ = 0` (R9,
R91).  One slot a turn, a turn that may not write as a step that changes nothing, and the values of `ENV_WRITES` beside the
default are the model's choices (assumption log 17). -/
def Obligations.EnvironmentWritesWhereItMay : Prop :=
  ∀ (s : State) (a : SlotAddr) (m : Mask) (q : Lanes), s.nextTurn = .env a m q → s.vpm.wf = true →
    (s.envAllowed = false ∨ s.par.slotBacked a = false → step s = .next s.popTurn) ∧
    (s.envAllowed = true → s.par.slotBacked a = true →
      ∃ mem, step s = .next { s.popTurn with vpm := mem } ∧
        (∀ l, laneEnabled m l = true → mem.read (laneAddr a l) = q.get l) ∧
        ∀ x, (∀ l, laneEnabled m l = true → x ≠ laneAddr a l) → mem.read x = s.vpm.read x) ∧
    (s.par.envWrites = .betweenTransactions → (s.envAllowed = true ↔ s.hs.req = false)) ∧
    (s.par.envWrites = .betweenRequests → (s.envAllowed = true ↔ s.eng.phase = .idle ∧ s.hs.req = false)) ∧
    (s.par.envWrites = .never → s.envAllowed = false) ∧ (s.par.envWrites = .always → s.envAllowed = true)

/-- A Device that never completes leaves the Engine polling for ever: after any number of steps the registers, `IE`,
memory and the buffer are as they were at the `EXECUTE_*` (R231, R278).  No other agent acts: the schedule is empty
(assumption log 7), so the Device, never enabled, takes no turn, and a stored `CTRL` with a reserved bit set, or that is a masked read
or a write of nothing, which no run reaches and only the Device's turn refuses, is polled too (assumption log 28). -/
def Obligations.HangIsForever : Prop :=
  ∀ s : State, s.hs.req = true → s.eng.waiting = true → s.deviceEnabled = false → s.sched = [] →
    ∀ n, ∃ t, runN n s = .next t ∧ t.eng = s.eng ∧ t.hs = s.hs ∧ t.vpm = s.vpm ∧ t.buf = s.buf ∧ t.host = s.host ∧
      t.par = s.par ∧ t.port.issue = s.port.issue ∧ t.port.dones = s.port.dones

/-! ## Translation and the plan (20_memory.md, 41_translation.md) -/

/-- The two bytes of a VP word lie in the half of its slot that the parity of the address names: an even address maps to
lanes 3 and 2, an odd one to lanes 1 and 0 (R64, R70, R71). -/
def Obligations.ParitySelectsTheHalfOfTheSlot : Prop :=
  ∀ a : VpAddr,
    slotOfByte (requestByte a 0) = slotOfVp a ∧ slotOfByte (requestByte a 1) = slotOfVp a ∧
    (vpIsOdd a = false → laneOfByte (requestByte a 0) = .l3 ∧ laneOfByte (requestByte a 1) = .l2) ∧
    (vpIsOdd a = true → laneOfByte (requestByte a 0) = .l1 ∧ laneOfByte (requestByte a 1) = .l0)

/-- Number of transactions: none exactly for length 0; one exactly for an even start with 1 to 4 bytes or an odd start with
1 or 2; three for an odd start with 9 bytes (R77, R156). -/
def Obligations.PlanHasTheStatedLength : Prop :=
  ∀ (a : VpAddr) (l : Len),
    (plan a l).length = (if 0 < planHead a l then 1 else 0) + planBulk a l + (if 0 < planTail a l then 1 else 0) ∧
    ((plan a l).length = 0 ↔ l = 0) ∧
    ((plan a l).length = 1 ↔
      (vpIsOdd a = false ∧ 1 ≤ l.toNat ∧ l.toNat ≤ 4) ∨ (vpIsOdd a = true ∧ 1 ≤ l.toNat ∧ l.toNat ≤ 2)) ∧
    (vpIsOdd a = true → l = 9 → (plan a l).length = 3)

/-- The plan carries every buffer byte exactly once and in order, names each slot from the first to the last byte's once
and in order, and gives byte `k` the slot and the lane of linear byte `2A + k` (R162, R72). -/
def Obligations.PlanCarriesEveryByteOnce : Prop :=
  ∀ (a : VpAddr) (l : Len),
    (plan a l).flatMap (fun p => List.range' p.first p.count) = List.range l.toNat ∧
    (l ≠ 0 → (plan a l).map Shape.slot =
      (List.range' (a.toNat / 2) (requestByte a (l.toNat - 1) / 4 + 1 - a.toNat / 2)).map (BitVec.ofNat 24)) ∧
    (∀ p ∈ plan a l, ∀ j, j < p.count →
      p.slot = slotOfByte (requestByte a (p.first + j)) ∧
      (maskLanes p.lanes)[j]? = some (laneOfByte (requestByte a (p.first + j)))) ∧
    (∀ p ∈ plan a l, (maskLanes p.lanes).length = p.count)

/-- No request names a slot above `0x00BFFF` or leaves the address above `0x00C000`; the bound is reached by the largest
request from `0xFFFF` (R160). -/
def Obligations.PlannedSlotsAreBounded : Prop :=
  (∀ (a : VpAddr) (l : Len),
    (∀ p ∈ plan a l, p.slot.toNat ≤ 0x00BFFF) ∧ (planFinalAddr a l).toNat ≤ 0x00C000) ∧
  ((plan 0xFFFF 65535).getLast?.map Shape.slot = some 0x00BFFF) ∧ planFinalAddr 0xFFFF 65535 = 0x00C000

/-- The masks of a request's transactions (R110, R111): an odd start has a head, of mask `0010` for length 1 and `0011` for
more, never with bit 3 or 2, and an even start has none; a tail of 1, 2, 3 bytes has mask `1000`, `1100`, `1110`, never with
bit 0, its lanes 3, then 2, then 1; a bulk transaction has mask `1111`; on the read path the plan's transactions are given
mask `1111` (that the Engine issues them so is `RequestIssuesItsPlan` and `PhaseLinesAreThePseudocode`). -/
def Obligations.MasksOfTheTransactions : Prop :=
  ∀ (a : VpAddr) (l : Len), l ≠ 0 →
    (vpIsOdd a = true → ∃ p ps, plan a l = p :: ps ∧ headShapes a l = [p] ∧
      p.lanes = (if l = 1 then 0b0010 else 0b0011) ∧ p.lanes.getLsbD 3 = false ∧ p.lanes.getLsbD 2 = false) ∧
    (vpIsOdd a = false → headShapes a l = []) ∧
    (∀ p ∈ tailShapes a l, p.lanes.getLsbD 0 = false ∧
      (p.count = 1 ∧ p.lanes = 0b1000 ∨ p.count = 2 ∧ p.lanes = 0b1100 ∨ p.count = 3 ∧ p.lanes = 0b1110) ∧
      maskLanes p.lanes = [Lane.l3, Lane.l2, Lane.l1].take p.count) ∧
    (∀ p ∈ bulkShapes a l, p.lanes = 0b1111) ∧
    (∀ p ∈ plan a l, p.mask .read = 0b1111) ∧
    plan a l = headShapes a l ++ bulkShapes a l ++ tailShapes a l

/-- The lanes the Engine stages or extracts in a head, a bulk and a tail transaction are exactly those the transaction's
mask enables, from the highest downward (R110, R111, R112, R171). -/
def Obligations.StagedLanesAreTheEnabledLanes : Prop :=
  (∀ n, 1 ≤ n → n ≤ 2 → headLanes n = maskLanes (headMask n)) ∧
  bulkLanes = maskLanes fullMask ∧
  (∀ n, 1 ≤ n → n ≤ 3 → tailLanes n = maskLanes (tailMask n))

/-! ## Whole requests (42_vp_write.md, 43_vp_read.md) -/

/-- A write request, with every slot it touches backed, a Device that acknowledges and no other agent taking a turn (an empty
schedule, assumption log 7), runs to its end: linear bytes `2A .. 2A+L-1` hold the buffer's first `L` bytes and every other byte of VP memory is as before; the
buffer is unmodified; `IE` is as before; `phase = Idle`, `rem = 0`, `idx = L`, `CTRL = 0x00`; the address and the toggle
are R161's (R161, R175, R176, R206).  The tail's lanes are those of R154, which the spec flags (U1; assumption log 19). -/
def Obligations.WriteRequestStoresTheBuffer : Prop :=
  ∀ (s : State) (a : VpAddr) (l : Len) (b : List Byte), s.Quiet → l ≠ 0 → s.vpm.wf = true → s.SlotsBacked a l →
    s.buf = some b → l.toNat ≤ b.length →
    ∃ t₀ n t, exec (.vpWrite a l) s = .next t₀ ∧ runN n t₀ = .next t ∧
      (∀ k, k < l.toNat → some (t.vpm.read (requestByte a k)) = b[k]?) ∧
      (∀ x, ¬ inRequest a l x → t.vpm.read x = s.vpm.read x) ∧
      t.buf = s.buf ∧ t.host = s.host ∧ t.par = s.par ∧ t.sched = [] ∧
      t.port.issue = s.port.issue ∧ t.port.dones = s.port.dones + 1 ∧
      t.eng.phase = .idle ∧ t.eng.rem = 0 ∧ t.eng.idx = l ∧
      t.hs.ctrl = 0 ∧ t.hs.addr = planFinalAddr a l ∧ t.hs.autoInc = planFinalAutoInc a l

/-- A read request, with every slot it touches backed, a Device that acknowledges and no other agent taking a turn (an empty
schedule, assumption log 7), runs to its end: `buf[k]` is the byte of linear address `2A + k` for `k < L`, the rest of the
buffer is untouched, VP memory is unchanged, `IE` is as before, and the registers are left as by a write request of the same
address and length (R161, R185, R206).  The tail's lanes are those of R154 (U1; assumption log 19). -/
def Obligations.ReadRequestFillsTheBuffer : Prop :=
  ∀ (s : State) (a : VpAddr) (l : Len) (b : List Byte), s.Quiet → l ≠ 0 → s.SlotsBacked a l →
    s.buf = some b → l.toNat ≤ b.length →
    ∃ t₀ n t b', exec (.vpRead a l) s = .next t₀ ∧ runN n t₀ = .next t ∧
      t.buf = some b' ∧ b'.length = b.length ∧
      (∀ k, k < l.toNat → b'[k]? = some (s.vpm.read (requestByte a k))) ∧
      (∀ k, l.toNat ≤ k → b'[k]? = b[k]?) ∧
      t.vpm = s.vpm ∧ t.host = s.host ∧ t.par = s.par ∧ t.sched = [] ∧
      t.port.issue = s.port.issue ∧ t.port.dones = s.port.dones + 1 ∧
      t.eng.phase = .idle ∧ t.eng.rem = 0 ∧ t.eng.idx = l ∧
      t.hs.ctrl = 0 ∧ t.hs.addr = planFinalAddr a l ∧ t.hs.autoInc = planFinalAutoInc a l

/-- A write request followed by a read request of the same address and length, into any buffer that covers the length,
reproduces the written bytes, for every address and every length, if every slot touched is backed, the Device acknowledges,
and no other agent (the Environment writer among them) takes a turn (an empty schedule, assumption log 7) (R186).  The tail's
lanes are those of R154 (U1; assumption log 19). -/
def Obligations.ReadAfterWriteReproducesTheBuffer : Prop :=
  ∀ (s : State) (a : VpAddr) (l : Len) (b out : List Byte), s.Quiet → s.vpm.wf = true → s.SlotsBacked a l →
    s.buf = some b → l.toNat ≤ b.length → l.toNat ≤ out.length →
    ∃ t₀ n t u₀ m u b', exec (.vpWrite a l) s = .next t₀ ∧ runN n t₀ = .next t ∧ t.eng.phase = .idle ∧
      exec (.vpRead a l) { t with buf := some out } = .next u₀ ∧ runN m u₀ = .next u ∧ u.eng.phase = .idle ∧
      u.port.dones = s.port.dones + 2 ∧ u.buf = some b' ∧
      b'.take l.toNat = b.take l.toNat ∧ b'.drop l.toNat = out.drop l.toNat

/-- With a buffer that covers the length, every slot touched backed, a Device that acknowledges and no other agent taking a
turn (an empty schedule, assumption log 7), the transactions a request issues are its plan's, in order, each with the slot,
the mask and the auto-increment setting the plan gives it; a write's payload is the buffer bytes the plan assigns it, a read
request issues every one with mask `1111` and fetches the slot's bytes (R107, R150, R157, R187).  The tail's lanes are those of
R154 (U1; assumption log 19). -/
def Obligations.RequestIssuesItsPlan : Prop :=
  ∀ (s : State) (d : Dir) (a : VpAddr) (l : Len) (b : List Byte), s.Quiet → l ≠ 0 → s.SlotsBacked a l →
    s.buf = some b → l.toNat ≤ b.length →
    ∃ t₀ n t, exec (requestInstr d a l) s = .next t₀ ∧ runN n t₀ = .next t ∧ t.eng.phase = .idle ∧
      t.port.dones = s.port.dones + 1 ∧ transactions n t₀ = (plan a l).map (Shape.descriptor d b s.vpm)

/-- A request that does something does not depend on the past (R23), under these premises: `L > 0`; both states are between
requests with no transaction outstanding; in both, every slot touched is backed, the Device always acknowledges and no other
agent takes a turn (an empty schedule, assumption log 7); and the buffer, the same in both, covers the length.  From two such
states that agree on VP memory too, and may differ in what these premises leave open (the Engine's registers, the address,
the toggle, the lanes, `IE`, what is pending, the ports), the request issues the same transactions and leaves the same memory,
the same buffer and the same address, toggle and control registers; each ends with its own `IE`.  The tail's lanes are those
of R154 (U1; assumption log 19). -/
def Obligations.RequestsAreIndependentOfThePast : Prop :=
  ∀ (s s' : State) (d : Dir) (a : VpAddr) (l : Len) (b : List Byte), s.Quiet → s'.Quiet → l ≠ 0 →
    s.SlotsBacked a l → s'.SlotsBacked a l → s.vpm = s'.vpm → s.buf = some b → s'.buf = some b → l.toNat ≤ b.length →
    ∃ t₀ t₀' n t t', exec (requestInstr d a l) s = .next t₀ ∧ exec (requestInstr d a l) s' = .next t₀' ∧
      runN n t₀ = .next t ∧ runN n t₀' = .next t' ∧ t.eng.phase = .idle ∧ t'.eng.phase = .idle ∧
      transactions n t₀ = transactions n t₀' ∧ t.vpm = t'.vpm ∧ t.buf = t'.buf ∧
      t.hs.addr = t'.hs.addr ∧ t.hs.autoInc = t'.hs.autoInc ∧ t.hs.ctrl = t'.hs.ctrl ∧
      t.host.ie = s.host.ie ∧ t'.host.ie = s'.host.ie

/-- In a run in which no other agent takes a turn (the schedule is empty; assumption log 7): from the step that accepts a
request to the step that ends it `IE` is 0 and the saved value is kept, and at the end `IE` is what it was before the request
(R200, R202).  For every schedule, each step's part of this is `StepKeepsTheInvariant`,
`RequestInProgressKeepsItsParameters` and `InterruptEnableHasItsOwners`. -/
def Obligations.RequestRunsUnderTheMask : Prop :=
  ∀ (s : State) (d : Dir) (a : VpAddr) (l : Len) (b : List Byte), s.Quiet → l ≠ 0 → s.SlotsBacked a l →
    s.buf = some b → l.toNat ≤ b.length →
    ∃ t₀ n t, exec (requestInstr d a l) s = .next t₀ ∧ runN n t₀ = .next t ∧ t.eng.phase = .idle ∧
      t.host.ie = s.host.ie ∧
      ∀ k, k < n → ∃ u, runN k t₀ = .next u ∧ u.eng.phase ≠ .idle ∧ u.host.ie = false ∧ u.eng.ieSaved = s.host.ie

/-- With a null buffer and `L > 0`: a write request is refused before its first transaction; a read request to a backed first
slot is refused after its first transaction, at its first extraction; and a read request to an unbacked first slot hangs in
its first transaction (R232, R239).  That the refusal comes at the first access of the buffer is read from R239 (assumption
log 13); no other agent takes a turn (log 7). -/
def Obligations.NullBufferOrdering : Prop :=
  ∀ (s : State) (a : VpAddr) (l : Len), s.Quiet → l ≠ 0 → s.buf = none →
    (∃ t₀ n t, exec (.vpWrite a l) s = .next t₀ ∧ runN n t₀ = .next t ∧ transactions n t₀ = [] ∧
      step t = .refused .bufferContract) ∧
    (s.par.slotBacked (slotOfVp a) = true →
      ∃ t₀ n t, exec (.vpRead a l) s = .next t₀ ∧ runN n t₀ = .next t ∧ step t = .refused .bufferContract ∧
        transactions n t₀ = ((plan a l).take 1).map (Shape.descriptor .read [] s.vpm) ∧
        t.vpm = s.vpm ∧ t.buf = none ∧ t.hs.req = false ∧ t.eng.phase ≠ .idle ∧ t.host.ie = false ∧
        t.port.dones = s.port.dones) ∧
    (s.par.slotBacked (slotOfVp a) = false →
      ∃ t₀ n t, exec (.vpRead a l) s = .next t₀ ∧ runN n t₀ = .next t ∧ t.eng.phase ≠ .idle ∧ t.hs.req = true ∧
        t.eng.waiting = true ∧ t.deviceEnabled = false ∧ t.hs.addr = slotOfVp a ∧ t.host.ie = false)

/-- A buffer that does not cover the length (R232): a write request performs exactly the transactions whose bytes the buffer
has, and a read request those whose first byte it has or lacks as its next one; their effects stand, every other byte is as
before; and then the request is refused at the first byte the buffer does not have (no other agent takes a turn: log 7).  Refusing at that access, and not at
acceptance, is read from R239 (assumption log 13). -/
def Obligations.ShortBufferIsRefusedAtItsFirstMissingByte : Prop :=
  ∀ (s : State) (a : VpAddr) (l : Len) (b : List Byte), s.Quiet → s.vpm.wf = true → s.SlotsBacked a l →
    s.buf = some b → b.length < l.toNat →
    (∃ t₀ n t, exec (.vpWrite a l) s = .next t₀ ∧ runN n t₀ = .next t ∧ step t = .refused .bufferContract ∧
      transactions n t₀ = ((plan a l).filter fun p => decide (p.first + p.count ≤ b.length)).map
        (Shape.descriptor .write b s.vpm) ∧
      (∀ p ∈ plan a l, p.first + p.count ≤ b.length → ∀ k, p.first ≤ k → k < p.first + p.count →
        some (t.vpm.read (requestByte a k)) = b[k]?) ∧
      (∀ x, (∀ p ∈ plan a l, p.first + p.count ≤ b.length → ∀ k, p.first ≤ k → k < p.first + p.count →
        x ≠ requestByte a k) → t.vpm.read x = s.vpm.read x) ∧
      t.buf = s.buf ∧ t.hs.req = false ∧ t.eng.phase ≠ .idle ∧ t.host.ie = false ∧ t.port.dones = s.port.dones) ∧
    (∃ t₀ n t b', exec (.vpRead a l) s = .next t₀ ∧ runN n t₀ = .next t ∧ step t = .refused .bufferContract ∧
      transactions n t₀ = ((plan a l).filter fun p => decide (p.first ≤ b.length)).map
        (Shape.descriptor .read b s.vpm) ∧
      t.buf = some b' ∧ b'.length = b.length ∧
      (∀ k, k < b.length → b'[k]? = some (s.vpm.read (requestByte a k))) ∧
      t.vpm = s.vpm ∧ t.hs.req = false ∧ t.eng.phase ≠ .idle ∧ t.host.ie = false ∧ t.port.dones = s.port.dones)

/-- The Engine's `slot` register follows `HS.ADDR` (R173, R194, R195): in a request, in a run in which no other agent takes a
turn (assumption log 7), it equals `HS.ADDR` whenever a transaction starts, and again whenever `AddressSet`, `PartialHead` or
a pass through `BulkLoop` is left. -/
def Obligations.SlotRegisterFollowsTheAddress : Prop :=
  ∀ (s : State) (d : Dir) (a : VpAddr) (l : Len) (b : List Byte), s.Quiet → l ≠ 0 → s.SlotsBacked a l →
    s.buf = some b → l.toNat ≤ b.length →
    ∃ t₀ n t, exec (requestInstr d a l) s = .next t₀ ∧ runN n t₀ = .next t ∧ t.eng.phase = .idle ∧
      t.port.dones = s.port.dones + 1 ∧
      ∀ k, k < n → ∃ u v, runN k t₀ = .next u ∧ step u = .next v ∧
        (started u v ≠ [] → v.eng.slot = v.hs.addr) ∧
        (u.eng.waiting = false → u.eng.todo = [] →
          u.eng.phase = .addressSet ∨ u.eng.phase = .partialHead ∨ u.eng.phase = .bulkLoop → u.eng.slot = u.hs.addr)
end

