-- ==== Sys2Proof/Laws/Decode.lean ====
section
/-! SUPPORT. The fields of the words: taking a field out of a word built from fields gives the field, and a word is built
from its fields. -/

namespace Sys2Proof

/-! ## Fields of concatenations -/

/-- The low part of a concatenation. -/
theorem extract_low {m n : Nat} (x : BitVec m) (y : BitVec n) : (x ++ y).extractLsb' 0 n = y := by
  apply BitVec.eq_of_getLsbD_eq
  intro i hi
  simp only [BitVec.getLsbD_extractLsb', BitVec.getLsbD_append, Nat.zero_add, hi, decide_true, Bool.true_and, if_true]

/-- A field of the high part of a concatenation. -/
theorem extract_high {m n : Nat} (x : BitVec m) (y : BitVec n) (k w : Nat) :
    (x ++ y).extractLsb' (n + k) w = x.extractLsb' k w := by
  apply BitVec.eq_of_getLsbD_eq
  intro i hi
  have h1 : ¬ n + k + i < n := by omega
  have h2 : n + k + i - n = k + i := by omega
  simp only [BitVec.getLsbD_extractLsb', BitVec.getLsbD_append, h1, h2, if_false]

/-- The top bit of a bit before a word. -/
theorem getLsbD_top {n : Nat} (b : Bool) (y : BitVec n) : (BitVec.ofBool b ++ y).getLsbD n = b := by
  simp only [BitVec.getLsbD_append, Nat.lt_irrefl, if_false, Nat.sub_self, BitVec.getLsbD_ofBool, decide_true,
    Bool.true_and]

/-! ## `HSEV13` (R103) -/

@[simp] theorem eventIsWrite_registerEvent (b : Bool) (r : BitVec 4) (v : Byte) :
    eventIsWrite (registerEvent b r v) = b := by
  have h : (BitVec.ofBool b ++ r ++ v).getLsbD 12 = (BitVec.ofBool b ++ r).getLsbD 4 := by
    simp only [BitVec.getLsbD_append]; rfl
  exact h.trans (getLsbD_top b r)

@[simp] theorem eventReg_registerEvent (b : Bool) (r : BitVec 4) (v : Byte) : eventReg (registerEvent b r v) = r :=
  (extract_high _ v 0 4).trans (extract_low _ r)

@[simp] theorem eventVal_registerEvent (b : Bool) (r : BitVec 4) (v : Byte) : eventVal (registerEvent b r v) = v :=
  extract_low _ v

theorem registerEvent_fields (w : BitVec 13) : registerEvent (eventIsWrite w) (eventReg w) (eventVal w) = w := by
  apply BitVec.eq_of_getLsbD_eq
  intro i hi
  simp only [eventReg, eventVal, eventIsWrite, registerEvent, BitVec.getLsbD_append, BitVec.getLsbD_extractLsb',
    BitVec.getLsbD_ofBool]
  by_cases h8 : i < 8
  · simp only [h8, Nat.zero_add, decide_true, Bool.true_and, if_true]
  · by_cases h12 : i < 12
    · have e : 8 + (i - 8) = i := by omega
      have h4 : i - 8 < 4 := by omega
      simp only [h8, h4, e, decide_true, Bool.true_and, if_true, if_false]
    · have e : i = 12 := by omega
      subst e
      simp

/-! ## `REQ33` (R102) -/

theorem requestWord_op (d : Dir) (a : VpAddr) (l : Len) : (requestWord d a l).getLsbD 32 = d.bit := by
  have h : (BitVec.ofBool d.bit ++ a ++ l).getLsbD 32 = (BitVec.ofBool d.bit ++ a).getLsbD 16 := by
    simp only [BitVec.getLsbD_append]; rfl
  exact h.trans (getLsbD_top d.bit a)

theorem requestWord_addr (d : Dir) (a : VpAddr) (l : Len) : (requestWord d a l).extractLsb' 16 16 = a :=
  (extract_high _ l 0 16).trans (extract_low _ a)

theorem requestWord_len (d : Dir) (a : VpAddr) (l : Len) : (requestWord d a l).extractLsb' 0 16 = l :=
  extract_low _ l

theorem decodeRequest_write (a : VpAddr) (l : Len) : decodeRequest (requestWord .write a l) = .vpWrite a l := by
  unfold decodeRequest
  rw [requestWord_op, requestWord_addr, requestWord_len]
  rfl

theorem decodeRequest_read (a : VpAddr) (l : Len) : decodeRequest (requestWord .read a l) = .vpRead a l := by
  unfold decodeRequest
  rw [requestWord_op, requestWord_addr, requestWord_len]
  rfl

/-! ## `CTRL8` (R105) -/

theorem controlHigh_start (d : Dir) (m : Mask) :
    controlHigh (controlStart d m) = match d with | .write => 0b1000#4 | .read => 0b1010#4 := by
  revert m; cases d <;> decide

theorem controlLow_start (d : Dir) (m : Mask) : controlLow (controlStart d m) = m := by
  revert m; cases d <;> decide

theorem control_fields (c : Byte) : controlHigh c ++ controlLow c = c := by
  revert c; decide

/-! ## Lanes (R104) -/

@[simp] theorem Lane.ofBits_bits (l : Lane) : Lane.ofBits l.bits = l := by cases l <;> rfl

theorem Lane.bits_ofBits (n : BitVec 2) : (Lane.ofBits n).bits = n := by revert n; decide

theorem regLane_isLane (l : Lane) : regIsLane (regLane l) = true := by cases l <;> rfl

theorem regLane_number (l : Lane) : (regLane l).extractLsb' 0 2 = l.bits := by cases l <;> rfl

theorem regLane_of_isLane (r : BitVec 4) (h : regIsLane r = true) : regLane (.ofBits (r.extractLsb' 0 2)) = r := by
  revert r; decide

end Sys2Proof
end

