-- ==== Sys2Proof/Laws/State.lean ====
section
/-! SUPPORT. One lemma per field and named update of `State`, true by rfl, so that no later proof unfolds an update. -/

namespace Sys2Proof.Machine

variable (s : State)

/-! ## `State.setAddr` -/

@[simp] theorem State.setAddr_eng (a : SlotAddr) : (s.setAddr a).eng = s.eng := rfl
@[simp] theorem State.setAddr_hs (a : SlotAddr) : (s.setAddr a).hs = s.hs.withAddr a := rfl
@[simp] theorem State.setAddr_vpm (a : SlotAddr) : (s.setAddr a).vpm = s.vpm := rfl
@[simp] theorem State.setAddr_buf (a : SlotAddr) : (s.setAddr a).buf = s.buf := rfl
@[simp] theorem State.setAddr_host (a : SlotAddr) : (s.setAddr a).host = s.host := rfl
@[simp] theorem State.setAddr_par (a : SlotAddr) : (s.setAddr a).par = s.par := rfl
@[simp] theorem State.setAddr_port (a : SlotAddr) : (s.setAddr a).port = s.port := rfl
@[simp] theorem State.setAddr_sched (a : SlotAddr) : (s.setAddr a).sched = s.sched := rfl

/-! ## `State.setAutoInc` -/

@[simp] theorem State.setAutoInc_eng (v : Byte) : (s.setAutoInc v).eng = s.eng := rfl
@[simp] theorem State.setAutoInc_hs (v : Byte) : (s.setAutoInc v).hs = { s.hs with autoInc := v } := rfl
@[simp] theorem State.setAutoInc_vpm (v : Byte) : (s.setAutoInc v).vpm = s.vpm := rfl
@[simp] theorem State.setAutoInc_buf (v : Byte) : (s.setAutoInc v).buf = s.buf := rfl
@[simp] theorem State.setAutoInc_host (v : Byte) : (s.setAutoInc v).host = s.host := rfl
@[simp] theorem State.setAutoInc_par (v : Byte) : (s.setAutoInc v).par = s.par := rfl
@[simp] theorem State.setAutoInc_port (v : Byte) : (s.setAutoInc v).port = s.port := rfl
@[simp] theorem State.setAutoInc_sched (v : Byte) : (s.setAutoInc v).sched = s.sched := rfl

/-! ## `State.setLane` -/

@[simp] theorem State.setLane_eng (l : Lane) (v : Byte) : (s.setLane l v).eng = s.eng := rfl
@[simp] theorem State.setLane_hs (l : Lane) (v : Byte) : (s.setLane l v).hs = { s.hs with lanes := s.hs.lanes.set l v } := rfl
@[simp] theorem State.setLane_vpm (l : Lane) (v : Byte) : (s.setLane l v).vpm = s.vpm := rfl
@[simp] theorem State.setLane_buf (l : Lane) (v : Byte) : (s.setLane l v).buf = s.buf := rfl
@[simp] theorem State.setLane_host (l : Lane) (v : Byte) : (s.setLane l v).host = s.host := rfl
@[simp] theorem State.setLane_par (l : Lane) (v : Byte) : (s.setLane l v).par = s.par := rfl
@[simp] theorem State.setLane_port (l : Lane) (v : Byte) : (s.setLane l v).port = s.port := rfl
@[simp] theorem State.setLane_sched (l : Lane) (v : Byte) : (s.setLane l v).sched = s.sched := rfl

/-! ## `State.setCtrl` -/

@[simp] theorem State.setCtrl_eng (c : Byte) : (s.setCtrl c).eng = s.eng := rfl
@[simp] theorem State.setCtrl_hs (c : Byte) : (s.setCtrl c).hs = { s.hs with ctrl := c } := rfl
@[simp] theorem State.setCtrl_vpm (c : Byte) : (s.setCtrl c).vpm = s.vpm := rfl
@[simp] theorem State.setCtrl_buf (c : Byte) : (s.setCtrl c).buf = s.buf := rfl
@[simp] theorem State.setCtrl_host (c : Byte) : (s.setCtrl c).host = s.host := rfl
@[simp] theorem State.setCtrl_par (c : Byte) : (s.setCtrl c).par = s.par := rfl
@[simp] theorem State.setCtrl_port (c : Byte) : (s.setCtrl c).port = s.port := rfl
@[simp] theorem State.setCtrl_sched (c : Byte) : (s.setCtrl c).sched = s.sched := rfl

/-! ## `State.setReadData` -/

@[simp] theorem State.setReadData_eng (v : Byte) : (s.setReadData v).eng = s.eng := rfl
@[simp] theorem State.setReadData_hs (v : Byte) : (s.setReadData v).hs = s.hs := rfl
@[simp] theorem State.setReadData_vpm (v : Byte) : (s.setReadData v).vpm = s.vpm := rfl
@[simp] theorem State.setReadData_buf (v : Byte) : (s.setReadData v).buf = s.buf := rfl
@[simp] theorem State.setReadData_host (v : Byte) : (s.setReadData v).host = s.host := rfl
@[simp] theorem State.setReadData_par (v : Byte) : (s.setReadData v).par = s.par := rfl
@[simp] theorem State.setReadData_port (v : Byte) : (s.setReadData v).port = { s.port with readData := v } := rfl
@[simp] theorem State.setReadData_sched (v : Byte) : (s.setReadData v).sched = s.sched := rfl

/-! ## `State.setWaiting` -/

@[simp] theorem State.setWaiting_eng (b : Bool) : (s.setWaiting b).eng = { s.eng with waiting := b } := rfl
@[simp] theorem State.setWaiting_hs (b : Bool) : (s.setWaiting b).hs = s.hs := rfl
@[simp] theorem State.setWaiting_vpm (b : Bool) : (s.setWaiting b).vpm = s.vpm := rfl
@[simp] theorem State.setWaiting_buf (b : Bool) : (s.setWaiting b).buf = s.buf := rfl
@[simp] theorem State.setWaiting_host (b : Bool) : (s.setWaiting b).host = s.host := rfl
@[simp] theorem State.setWaiting_par (b : Bool) : (s.setWaiting b).par = s.par := rfl
@[simp] theorem State.setWaiting_port (b : Bool) : (s.setWaiting b).port = s.port := rfl
@[simp] theorem State.setWaiting_sched (b : Bool) : (s.setWaiting b).sched = s.sched := rfl

/-! ## `State.setSlot` -/

@[simp] theorem State.setSlot_eng (a : SlotAddr) : (s.setSlot a).eng = { s.eng with slot := a } := rfl
@[simp] theorem State.setSlot_hs (a : SlotAddr) : (s.setSlot a).hs = s.hs := rfl
@[simp] theorem State.setSlot_vpm (a : SlotAddr) : (s.setSlot a).vpm = s.vpm := rfl
@[simp] theorem State.setSlot_buf (a : SlotAddr) : (s.setSlot a).buf = s.buf := rfl
@[simp] theorem State.setSlot_host (a : SlotAddr) : (s.setSlot a).host = s.host := rfl
@[simp] theorem State.setSlot_par (a : SlotAddr) : (s.setSlot a).par = s.par := rfl
@[simp] theorem State.setSlot_port (a : SlotAddr) : (s.setSlot a).port = s.port := rfl
@[simp] theorem State.setSlot_sched (a : SlotAddr) : (s.setSlot a).sched = s.sched := rfl

/-! ## `State.consume` -/

@[simp] theorem State.consume_eng (n : Nat) : (s.consume n).eng = { s.eng with idx := s.eng.idx + BitVec.ofNat 16 n, rem := s.eng.rem - BitVec.ofNat 16 n } := rfl
@[simp] theorem State.consume_hs (n : Nat) : (s.consume n).hs = s.hs := rfl
@[simp] theorem State.consume_vpm (n : Nat) : (s.consume n).vpm = s.vpm := rfl
@[simp] theorem State.consume_buf (n : Nat) : (s.consume n).buf = s.buf := rfl
@[simp] theorem State.consume_host (n : Nat) : (s.consume n).host = s.host := rfl
@[simp] theorem State.consume_par (n : Nat) : (s.consume n).par = s.par := rfl
@[simp] theorem State.consume_port (n : Nat) : (s.consume n).port = s.port := rfl
@[simp] theorem State.consume_sched (n : Nat) : (s.consume n).sched = s.sched := rfl

/-! ## `State.enterPhase` -/

@[simp] theorem State.enterPhase_eng (p : Phase) (q : List Micro) : (s.enterPhase p q).eng = { s.eng with phase := p, todo := q } := rfl
@[simp] theorem State.enterPhase_hs (p : Phase) (q : List Micro) : (s.enterPhase p q).hs = s.hs := rfl
@[simp] theorem State.enterPhase_vpm (p : Phase) (q : List Micro) : (s.enterPhase p q).vpm = s.vpm := rfl
@[simp] theorem State.enterPhase_buf (p : Phase) (q : List Micro) : (s.enterPhase p q).buf = s.buf := rfl
@[simp] theorem State.enterPhase_host (p : Phase) (q : List Micro) : (s.enterPhase p q).host = s.host := rfl
@[simp] theorem State.enterPhase_par (p : Phase) (q : List Micro) : (s.enterPhase p q).par = s.par := rfl
@[simp] theorem State.enterPhase_port (p : Phase) (q : List Micro) : (s.enterPhase p q).port = s.port := rfl
@[simp] theorem State.enterPhase_sched (p : Phase) (q : List Micro) : (s.enterPhase p q).sched = s.sched := rfl

/-! ## `State.popLine` -/

@[simp] theorem State.popLine_eng : s.popLine.eng = { s.eng with todo := s.eng.todo.tail } := rfl
@[simp] theorem State.popLine_hs : s.popLine.hs = s.hs := rfl
@[simp] theorem State.popLine_vpm : s.popLine.vpm = s.vpm := rfl
@[simp] theorem State.popLine_buf : s.popLine.buf = s.buf := rfl
@[simp] theorem State.popLine_host : s.popLine.host = s.host := rfl
@[simp] theorem State.popLine_par : s.popLine.par = s.par := rfl
@[simp] theorem State.popLine_port : s.popLine.port = s.port := rfl
@[simp] theorem State.popLine_sched : s.popLine.sched = s.sched := rfl

/-! ## `State.giveDone` -/

@[simp] theorem State.giveDone_eng : s.giveDone.eng = { s.eng with phase := .idle, todo := [] } := rfl
@[simp] theorem State.giveDone_hs : s.giveDone.hs = s.hs := rfl
@[simp] theorem State.giveDone_vpm : s.giveDone.vpm = s.vpm := rfl
@[simp] theorem State.giveDone_buf : s.giveDone.buf = s.buf := rfl
@[simp] theorem State.giveDone_host : s.giveDone.host = s.host := rfl
@[simp] theorem State.giveDone_par : s.giveDone.par = s.par := rfl
@[simp] theorem State.giveDone_port : s.giveDone.port = { s.port with dones := s.port.dones + 1 } := rfl
@[simp] theorem State.giveDone_sched : s.giveDone.sched = s.sched := rfl

/-! ## `State.maskInterrupts` -/

@[simp] theorem State.maskInterrupts_eng : s.maskInterrupts.eng = { s.eng with ieSaved := s.host.ie } := rfl
@[simp] theorem State.maskInterrupts_hs : s.maskInterrupts.hs = s.hs := rfl
@[simp] theorem State.maskInterrupts_vpm : s.maskInterrupts.vpm = s.vpm := rfl
@[simp] theorem State.maskInterrupts_buf : s.maskInterrupts.buf = s.buf := rfl
@[simp] theorem State.maskInterrupts_host : s.maskInterrupts.host = { s.host with ie := false } := rfl
@[simp] theorem State.maskInterrupts_par : s.maskInterrupts.par = s.par := rfl
@[simp] theorem State.maskInterrupts_port : s.maskInterrupts.port = s.port := rfl
@[simp] theorem State.maskInterrupts_sched : s.maskInterrupts.sched = s.sched := rfl

/-! ## `State.restoreInterrupts` -/

@[simp] theorem State.restoreInterrupts_eng : s.restoreInterrupts.eng = s.eng := rfl
@[simp] theorem State.restoreInterrupts_hs : s.restoreInterrupts.hs = s.hs := rfl
@[simp] theorem State.restoreInterrupts_vpm : s.restoreInterrupts.vpm = s.vpm := rfl
@[simp] theorem State.restoreInterrupts_buf : s.restoreInterrupts.buf = s.buf := rfl
@[simp] theorem State.restoreInterrupts_host : s.restoreInterrupts.host = { s.host with ie := s.eng.ieSaved } := rfl
@[simp] theorem State.restoreInterrupts_par : s.restoreInterrupts.par = s.par := rfl
@[simp] theorem State.restoreInterrupts_port : s.restoreInterrupts.port = s.port := rfl
@[simp] theorem State.restoreInterrupts_sched : s.restoreInterrupts.sched = s.sched := rfl

/-! ## `State.setIssue` -/

@[simp] theorem State.setIssue_eng (q : List PortItem) : (s.setIssue q).eng = s.eng := rfl
@[simp] theorem State.setIssue_hs (q : List PortItem) : (s.setIssue q).hs = s.hs := rfl
@[simp] theorem State.setIssue_vpm (q : List PortItem) : (s.setIssue q).vpm = s.vpm := rfl
@[simp] theorem State.setIssue_buf (q : List PortItem) : (s.setIssue q).buf = s.buf := rfl
@[simp] theorem State.setIssue_host (q : List PortItem) : (s.setIssue q).host = s.host := rfl
@[simp] theorem State.setIssue_par (q : List PortItem) : (s.setIssue q).par = s.par := rfl
@[simp] theorem State.setIssue_port (q : List PortItem) : (s.setIssue q).port = { s.port with issue := q } := rfl
@[simp] theorem State.setIssue_sched (q : List PortItem) : (s.setIssue q).sched = s.sched := rfl

/-! ## `State.popTurn` -/

@[simp] theorem State.popTurn_eng : s.popTurn.eng = s.eng := rfl
@[simp] theorem State.popTurn_hs : s.popTurn.hs = s.hs := rfl
@[simp] theorem State.popTurn_vpm : s.popTurn.vpm = s.vpm := rfl
@[simp] theorem State.popTurn_buf : s.popTurn.buf = s.buf := rfl
@[simp] theorem State.popTurn_host : s.popTurn.host = s.host := rfl
@[simp] theorem State.popTurn_par : s.popTurn.par = s.par := rfl
@[simp] theorem State.popTurn_port : s.popTurn.port = s.port := rfl
@[simp] theorem State.popTurn_sched : s.popTurn.sched = s.sched.tail := rfl

/-! ## `State.startTransaction` -/

@[simp] theorem State.startTransaction_eng (d : Dir) (m : Mask) : (s.startTransaction d m).eng = { s.eng with waiting := true } := rfl
@[simp] theorem State.startTransaction_hs (d : Dir) (m : Mask) : (s.startTransaction d m).hs = { s.hs with ctrl := controlStart d m } := rfl
@[simp] theorem State.startTransaction_vpm (d : Dir) (m : Mask) : (s.startTransaction d m).vpm = s.vpm := rfl
@[simp] theorem State.startTransaction_buf (d : Dir) (m : Mask) : (s.startTransaction d m).buf = s.buf := rfl
@[simp] theorem State.startTransaction_host (d : Dir) (m : Mask) : (s.startTransaction d m).host = s.host := rfl
@[simp] theorem State.startTransaction_par (d : Dir) (m : Mask) : (s.startTransaction d m).par = s.par := rfl
@[simp] theorem State.startTransaction_port (d : Dir) (m : Mask) : (s.startTransaction d m).port = s.port := rfl
@[simp] theorem State.startTransaction_sched (d : Dir) (m : Mask) : (s.startTransaction d m).sched = s.sched := rfl

/-! ## `State.latchRequest` -/

@[simp] theorem State.latchRequest_eng (d : Dir) (a : VpAddr) (l : Len) : (s.latchRequest d a l).eng = { s.eng with op := d, vp := a, rem := l, idx := 0, ieSaved := s.host.ie } := rfl
@[simp] theorem State.latchRequest_hs (d : Dir) (a : VpAddr) (l : Len) : (s.latchRequest d a l).hs = s.hs := rfl
@[simp] theorem State.latchRequest_vpm (d : Dir) (a : VpAddr) (l : Len) : (s.latchRequest d a l).vpm = s.vpm := rfl
@[simp] theorem State.latchRequest_buf (d : Dir) (a : VpAddr) (l : Len) : (s.latchRequest d a l).buf = s.buf := rfl
@[simp] theorem State.latchRequest_host (d : Dir) (a : VpAddr) (l : Len) : (s.latchRequest d a l).host = { s.host with ie := false } := rfl
@[simp] theorem State.latchRequest_par (d : Dir) (a : VpAddr) (l : Len) : (s.latchRequest d a l).par = s.par := rfl
@[simp] theorem State.latchRequest_port (d : Dir) (a : VpAddr) (l : Len) : (s.latchRequest d a l).port = s.port := rfl
@[simp] theorem State.latchRequest_sched (d : Dir) (a : VpAddr) (l : Len) : (s.latchRequest d a l).sched = s.sched := rfl

/-! ## `Handshake.withAddr` -/

@[simp] theorem Handshake.withAddr_autoInc (h : Handshake) (a : SlotAddr) : (h.withAddr a).autoInc = h.autoInc := rfl
@[simp] theorem Handshake.withAddr_lanes (h : Handshake) (a : SlotAddr) : (h.withAddr a).lanes = h.lanes := rfl
@[simp] theorem Handshake.withAddr_ctrl (h : Handshake) (a : SlotAddr) : (h.withAddr a).ctrl = h.ctrl := rfl
@[simp] theorem Handshake.withAddr_req (h : Handshake) (a : SlotAddr) : (h.withAddr a).req = h.req := rfl

/-! ## Lanes -/

theorem Lanes.get_set (q : Lanes) (l k : Lane) (v : Byte) : (q.set l v).get k = if k = l then v else q.get k := by
  cases l <;> cases k <;> rfl

theorem Lanes.ext_get {q r : Lanes} (h : ∀ l, q.get l = r.get l) : q = r := by
  cases q; cases r
  have h3 := h .l3; have h2 := h .l2; have h1 := h .l1; have h0 := h .l0
  simp only [Lanes.get] at h3 h2 h1 h0
  subst h3; subst h2; subst h1; subst h0; rfl

end Sys2Proof.Machine
end

