-- ==== Sys2Proof/Laws/Memory.lean ====
section
/-! SUPPORT. VP memory: reading after writing, the canonical form, and what storing lanes does. -/

namespace Sys2Proof.Machine

/-! ## Addresses of lanes (R64) -/

theorem laneAddr_lt (s : SlotAddr) (l : Lane) : laneAddr s l < Config.vpmBytes := by
  have h := s.isLt
  cases l <;> simp only [laneAddr, Lane.index, Config.vpmBytes] <;> omega

theorem laneAddr_inj (s t : SlotAddr) (l k : Lane) : laneAddr s l = laneAddr t k ↔ s = t ∧ l = k := by
  constructor
  · intro h
    cases l <;> cases k <;> simp only [laneAddr, Lane.index] at h <;>
      first
        | exact ⟨BitVec.eq_of_toNat_eq (by omega), rfl⟩
        | exact absurd h (by omega)
  · rintro ⟨rfl, rfl⟩; rfl

theorem laneAddr_of_byte (b : Nat) (h : b < Config.vpmBytes) : laneAddr (slotOfByte b) (laneOfByte b) = b := by
  have h4 : b / 4 < 2 ^ 24 := by simp only [Config.vpmBytes] at h; omega
  have hs : (slotOfByte b).toNat = b / 4 := by
    simp only [slotOfByte, BitVec.toNat_ofNat]; exact Nat.mod_eq_of_lt h4
  have hm : b % 4 < 4 := Nat.mod_lt _ (by decide)
  simp only [laneAddr, laneOfByte, hs]
  match hb : b % 4, hm with
  | 0, _ => simp only [Lane.index]; omega
  | 1, _ => simp only [Lane.index]; omega
  | 2, _ => simp only [Lane.index]; omega
  | 3, _ => simp only [Lane.index]; omega

/-! ## The canonical form -/

theorem Memory.wfFrom_mono {lo lo' : Nat} {m : Memory} (h : m.wfFrom lo = true) (hl : lo' ≤ lo) :
    m.wfFrom lo' = true := by
  cases m with
  | nil => rfl
  | cons c m =>
    obtain ⟨a, v⟩ := c
    simp only [Memory.wfFrom, Bool.and_eq_true, decide_eq_true_eq] at h ⊢
    exact ⟨⟨⟨by omega, h.1.1.2⟩, h.1.2⟩, h.2⟩

theorem Memory.wfFrom_cons {lo x : Nat} {v : Byte} {m : Memory} (hm : m.wfFrom (x + 1) = true) (hl : lo ≤ x)
    (hx : x < Config.vpmBytes) : (Memory.cons x v m).wfFrom lo = true := by
  unfold Memory.cons
  split
  · exact Memory.wfFrom_mono hm (by omega)
  · next hv => simp [Memory.wfFrom, hl, hx, hv, hm]

theorem Memory.wfFrom_write {m : Memory} {lo x : Nat} {v : Byte} (h : m.wfFrom lo = true) (hl : lo ≤ x)
    (hx : x < Config.vpmBytes) : (m.write x v).wfFrom lo = true := by
  induction m generalizing lo with
  | nil => exact Memory.wfFrom_cons rfl hl hx
  | cons c m ih =>
    obtain ⟨a, w⟩ := c
    simp only [Memory.wfFrom, Bool.and_eq_true, decide_eq_true_eq] at h
    obtain ⟨⟨⟨h1, h2⟩, h3⟩, h4⟩ := h
    simp only [Memory.write]
    split
    · refine Memory.wfFrom_cons ?_ hl hx
      simp only [Memory.wfFrom, Bool.and_eq_true, decide_eq_true_eq]
      exact ⟨⟨⟨by omega, h2⟩, h3⟩, h4⟩
    · split
      · next hxa => exact Memory.wfFrom_cons (hxa ▸ h4) hl hx
      · simp only [Memory.wfFrom, Bool.and_eq_true, decide_eq_true_eq]
        exact ⟨⟨⟨h1, h2⟩, h3⟩, ih h4 (by omega)⟩

/-- A write keeps the canonical form. -/
theorem Memory.wf_write {m : Memory} {x : Nat} {v : Byte} (h : m.wf = true) (hx : x < Config.vpmBytes) :
    (m.write x v).wf = true :=
  Memory.wfFrom_write h (Nat.zero_le _) hx

theorem Memory.wf_storeLane {m : Memory} (s : SlotAddr) (mask : Mask) (q : Lanes) (l : Lane) (h : m.wf = true) :
    (m.storeLane s mask q l).wf = true := by
  unfold Memory.storeLane
  split
  · exact Memory.wf_write h (laneAddr_lt s l)
  · exact h

/-- Storing lanes keeps the canonical form. -/
theorem Memory.wf_storeLanes {m : Memory} (s : SlotAddr) (mask : Mask) (q : Lanes) (h : m.wf = true) :
    (m.storeLanes s mask q).wf = true :=
  Memory.wf_storeLane _ _ _ _ (Memory.wf_storeLane _ _ _ _ (Memory.wf_storeLane _ _ _ _ (Memory.wf_storeLane _ _ _ _ h)))

/-! ## Reading after writing -/

/-- Below its first entry memory reads as unlisted. -/
theorem Memory.read_of_wfFrom {m : Memory} {lo x : Nat} (h : m.wfFrom lo = true) (hx : x < lo) :
    m.read x = Config.vpmUnlisted := by
  induction m generalizing lo with
  | nil => rfl
  | cons c m ih =>
    obtain ⟨a, v⟩ := c
    simp only [Memory.wfFrom, Bool.and_eq_true, decide_eq_true_eq] at h
    simp only [Memory.read]
    rw [if_neg (by omega)]
    exact ih h.2 (by omega)

theorem Memory.read_cons {m : Memory} {x : Nat} {v : Byte} (y : Nat) (hm : m.read x = Config.vpmUnlisted) :
    (Memory.cons x v m).read y = if y = x then v else m.read y := by
  unfold Memory.cons
  split
  · next hv =>
    split
    · next hy => rw [hy, hm, hv]
    · rfl
  · rfl

/-- A byte just written reads as written; every other byte reads as before. -/
theorem Memory.read_writeFrom {m : Memory} {lo : Nat} (h : m.wfFrom lo = true) (x y : Nat) (v : Byte) :
    (m.write x v).read y = if y = x then v else m.read y := by
  induction m generalizing lo with
  | nil => exact Memory.read_cons y rfl
  | cons c m ih =>
    obtain ⟨a, w⟩ := c
    simp only [Memory.wfFrom, Bool.and_eq_true, decide_eq_true_eq] at h
    obtain ⟨⟨⟨h1, h2⟩, h3⟩, h4⟩ := h
    simp only [Memory.write]
    split
    · next hxa =>
      refine Memory.read_cons y ?_
      simp only [Memory.read]
      rw [if_neg (by omega)]
      exact Memory.read_of_wfFrom h4 (by omega)
    · split
      · next hxa =>
        subst hxa
        rw [Memory.read_cons y (Memory.read_of_wfFrom h4 (by omega))]
        simp only [Memory.read]
        split <;> simp_all
      · next hxa =>
        simp only [Memory.read, ih h4]
        by_cases hy : y = a
        · rw [if_pos hy, if_neg (by omega), if_pos hy]
        · rw [if_neg hy, if_neg hy]

/-- A byte just written reads as written; every other byte reads as before. -/
theorem Memory.read_write {m : Memory} (h : m.wf = true) (x y : Nat) (v : Byte) :
    (m.write x v).read y = if y = x then v else m.read y :=
  Memory.read_writeFrom h x y v

theorem Memory.read_storeLane {m : Memory} (h : m.wf = true) (s : SlotAddr) (mask : Mask) (q : Lanes) (l : Lane)
    (y : Nat) :
    (m.storeLane s mask q l).read y = if laneEnabled mask l = true ∧ y = laneAddr s l then q.get l else m.read y := by
  unfold Memory.storeLane
  split
  · next hl => rw [Memory.read_write h]; simp [hl]
  · next hl => simp [hl]

/-- Storing lanes: the byte of an enabled lane becomes the lane's (R80). -/
theorem Memory.read_storeLanes_enabled {m : Memory} (h : m.wf = true) (s : SlotAddr) (mask : Mask) (q : Lanes) (l : Lane)
    (hl : laneEnabled mask l = true) : (m.storeLanes s mask q).read (laneAddr s l) = q.get l := by
  unfold Memory.storeLanes
  have w3 := Memory.wf_storeLane s mask q .l3 h
  have w2 := Memory.wf_storeLane s mask q .l2 w3
  have w1 := Memory.wf_storeLane s mask q .l1 w2
  rw [Memory.read_storeLane w1, Memory.read_storeLane w2, Memory.read_storeLane w3, Memory.read_storeLane h]
  simp only [laneAddr_inj]
  cases l <;> simp [hl]

/-- Storing lanes: every other byte keeps its value (R80). -/
theorem Memory.read_storeLanes_other {m : Memory} (h : m.wf = true) (s : SlotAddr) (mask : Mask) (q : Lanes) (y : Nat)
    (hy : ∀ l, laneEnabled mask l = true → y ≠ laneAddr s l) : (m.storeLanes s mask q).read y = m.read y := by
  unfold Memory.storeLanes
  have w3 := Memory.wf_storeLane s mask q .l3 h
  have w2 := Memory.wf_storeLane s mask q .l2 w3
  have w1 := Memory.wf_storeLane s mask q .l1 w2
  rw [Memory.read_storeLane w1, Memory.read_storeLane w2, Memory.read_storeLane w3, Memory.read_storeLane h,
    if_neg (fun c => hy _ c.1 c.2), if_neg (fun c => hy _ c.1 c.2), if_neg (fun c => hy _ c.1 c.2),
    if_neg (fun c => hy _ c.1 c.2)]

/-- The slot's lanes are the bytes at their linear addresses (R33, R64). -/
theorem Memory.get_slot (m : Memory) (s : SlotAddr) (l : Lane) : (m.slot s).get l = m.read (laneAddr s l) := by
  cases l <;> rfl

end Sys2Proof.Machine
end

