-- ==== Sys2Proof/Laws/Ops.lean ====
section
/-! SUPPORT. For each shared operation, once, everything it can do. -/

namespace Sys2Proof.Machine

/-! ## Going on from a step -/

@[simp] theorem andThen_next (t : State) (f : State → Result) : andThen (.next t) f = f t := rfl
@[simp] theorem andThen_refused (e : Refusal) (f : State → Result) : andThen (.refused e) f = .refused e := rfl

theorem andThen_eq_next {r : Result} {f : State → Result} {u : State} :
    andThen r f = .next u ↔ ∃ t, r = .next t ∧ f t = .next u := by
  cases r with
  | next t => exact ⟨fun h => ⟨t, rfl, h⟩, fun ⟨t', h, h'⟩ => by cases h; exact h'⟩
  | fault e => cases e
  | refused e => exact ⟨fun h => (by cases h), fun ⟨_, h, _⟩ => (by cases h)⟩

@[simp] theorem runN_zero (s : State) : runN 0 s = .next s := rfl

theorem runN_succ (n : Nat) (s : State) : runN (n + 1) s = andThen (step s) (runN n) := rfl

/-- A run of `m + n` steps is a run of `m` steps and then one of `n`. -/
theorem runN_add (m n : Nat) (s : State) : runN (m + n) s = andThen (runN m s) (runN n) := by
  induction m generalizing s with
  | zero => simp
  | succ m ih =>
    rw [show m + 1 + n = (m + n) + 1 by omega, runN_succ, runN_succ]
    cases step s with
    | next t => simpa using ih t
    | fault e => cases e
    | refused e => rfl

/-! ## Register access (R270) -/

/-- With no transaction outstanding the access is made. -/
theorem State.whenIdleBus_of_idle {s t : State} (h : s.hs.req = false) : s.whenIdleBus t = .next t := by
  simp [State.whenIdleBus, h]

/-- With a transaction outstanding the access is refused. -/
theorem State.whenIdleBus_of_req {s t : State} (h : s.hs.req = true) :
    s.whenIdleBus t = .refused .transactionOutstanding := by
  simp [State.whenIdleBus, h]

/-- If the access answers a next state, no transaction is outstanding and the state is the one written. -/
theorem State.whenIdleBus_next {s t u : State} : s.whenIdleBus t = .next u ↔ s.hs.req = false ∧ u = t := by
  unfold State.whenIdleBus
  split
  · next h => simp [h]
  · next h => simp only [Bool.not_eq_true] at h; simp [h, eq_comm]

/-! ## The mode/control register (R28, R106) -/

theorem req_start (h : Handshake) (d : Dir) (m : Mask) : ({ h with ctrl := controlStart d m } : Handshake).req = true := by
  simp only [Handshake.req]; revert m; cases d <;> decide

theorem dir_start (h : Handshake) (d : Dir) (m : Mask) : ({ h with ctrl := controlStart d m } : Handshake).dir = d := by
  simp only [Handshake.dir]; revert m; cases d <;> decide

theorem mask_start (h : Handshake) (d : Dir) (m : Mask) : ({ h with ctrl := controlStart d m } : Handshake).mask = m :=
  controlLow_start d m

theorem reservedClear_start (h : Handshake) (d : Dir) (m : Mask) :
    ({ h with ctrl := controlStart d m } : Handshake).reservedClear = true := by
  simp only [Handshake.reservedClear]; revert m; cases d <;> decide

theorem req_done (h : Handshake) (c : Byte) : ({ h with ctrl := controlDone c } : Handshake).req = false := by
  simp only [Handshake.req]; revert c; decide

theorem reservedClear_done {h : Handshake} (hr : h.reservedClear = true) :
    ({ h with ctrl := controlDone h.ctrl } : Handshake).reservedClear = true := by
  obtain ⟨a, b, c, d, e, f⟩ := h
  simp only [Handshake.reservedClear] at hr ⊢
  revert f; decide

/-- The stored `CTRL` matches `1 0 d 0 m m m m` exactly when it is the value a start writes with its own fields (R114). -/
theorem ctrl_eq_controlStart_iff (h : Handshake) :
    h.ctrl = controlStart h.dir h.mask ↔ h.req = true ∧ h.reservedClear = true := by
  obtain ⟨a, b, c, d, e, f⟩ := h
  simp only [Handshake.req, Handshake.reservedClear, Handshake.dir, Handshake.mask]
  revert f; decide

/-- The fields of a stored `CTRL` that a start wrote (R105). -/
theorem fields_of_ctrl {h : Handshake} {d : Dir} {m : Mask} (hc : h.ctrl = controlStart d m) :
    h.req = true ∧ h.dir = d ∧ h.mask = m ∧ h.reservedClear = true := by
  have e : h = { h with ctrl := controlStart d m } := by rw [← hc]
  rw [e]
  exact ⟨req_start h d m, dir_start h d m, mask_start h d m, reservedClear_start h d m⟩

/-! ## The target address (R109) -/

/-- Reading back the three address fields just written gives the slot address. -/
@[simp] theorem addr_withAddr (h : Handshake) (a : SlotAddr) : (h.withAddr a).addr = a := by
  apply BitVec.eq_of_getLsbD_eq
  intro i hi
  simp only [Handshake.addr, Handshake.withAddr, BitVec.getLsbD_append, BitVec.getLsbD_extractLsb']
  by_cases h8 : i < 8
  · simp [h8]
  · by_cases h16 : i < 16
    · have e : 8 + (i - 8) = i := by omega
      have h4 : i - 8 < 8 := by omega
      simp [h8, h4, e]
    · have e : 16 + (i - 8 - 8) = i := by omega
      have h4 : ¬ i - 8 < 8 := by omega
      have h5 : i - 8 - 8 < 8 := by omega
      simp [h8, h4, h5, e]

/-! ## The buffer (R34) -/

theorem State.bufRead_some {s : State} {b : List Byte} {i : Nat} (hb : s.buf = some b) (hi : i < b.length) :
    s.bufRead i = some b[i] := by
  simp [State.bufRead, hb, hi]

/-- A buffer write answers a state exactly when the buffer has that byte; nothing else changes. -/
theorem State.bufWrite_eq_some {s t : State} {i : Nat} {v : Byte} :
    s.bufWrite i v = some t ↔ ∃ b, s.buf = some b ∧ i < b.length ∧ t = { s with buf := some (b.set i v) } := by
  unfold State.bufWrite
  cases hb : s.buf with
  | none => simp
  | some b =>
    simp only [Option.some.injEq, exists_eq_left']
    split
    · next hi => simp [hi, eq_comm]
    · next hi => simp [hi]

/-! ## Acceptance (R192, R196, R203) -/

theorem State.accept_busy {s : State} (d : Dir) (a : VpAddr) (l : Len) (h : s.eng.phase ≠ .idle) :
    s.accept d a l = .refused .requestWhileBusy := by
  simp [State.accept, h]

theorem State.blocked_eq_false {s : State} : s.blocked = false ↔ s.eng.waiting = false ∧ s.hs.req = false := by
  simp [State.blocked]

theorem State.accept_blocked {s : State} (d : Dir) (a : VpAddr) (l : Len) (h : s.eng.phase = .idle)
    (hb : s.blocked = true) : s.accept d a l = .next s := by
  unfold State.accept
  rw [if_neg (fun c => c h), if_pos hb]

theorem State.accept_zero {s : State} (d : Dir) (a : VpAddr) (h : s.eng.phase = .idle) (hb : s.blocked = false) :
    s.accept d a 0 = .next (s.latchRequest d a 0).restoreInterrupts.giveDone := by
  simp [State.accept, h, hb]

theorem State.accept_pos {s : State} (d : Dir) (a : VpAddr) {l : Len} (h : s.eng.phase = .idle)
    (hb : s.blocked = false) (hl : l ≠ 0) :
    s.accept d a l = .next ((s.latchRequest d a l).enterPhase .addressSet addressSetLines) := by
  unfold State.accept
  rw [if_neg (fun c => c h), hb, if_neg (by decide), if_neg hl]

/-! ## The Device (R137) -/

/-- A completed write transaction: memory, the address and `CTRL` change; the lanes do not. -/
theorem State.complete_write {s : State} (h : s.hs.dir = .write) :
    s.complete =
      { s with
        vpm := s.vpm.storeLanes s.hs.addr s.hs.mask s.hs.lanes
        hs := { (if s.hs.advances then s.hs.withAddr (s.hs.addr + 1) else s.hs) with ctrl := controlDone s.hs.ctrl }
        par := s.par.acked } := by
  unfold State.complete State.advanceAddr State.transfer
  simp only [h]
  split <;> rfl

/-- A completed read transaction: all four lanes, the address and `CTRL` change; memory does not. -/
theorem State.complete_read {s : State} (h : s.hs.dir = .read) :
    s.complete =
      { s with
        hs := { (if s.hs.advances then s.hs.withAddr (s.hs.addr + 1) else s.hs) with
          lanes := s.vpm.slot s.hs.addr, ctrl := controlDone s.hs.ctrl }
        par := s.par.acked } := by
  have ht : s.transfer = { s with hs := { s.hs with lanes := s.vpm.slot s.hs.addr } } := by
    simp only [State.transfer, h]
  have ha : s.transfer.hs.advances = s.hs.advances := by rw [ht]; rfl
  unfold State.complete State.advanceAddr
  rw [ha, ht]
  cases s.hs.advances <;> rfl

/-- `DEV_COMPLETE` where its step is enabled. -/
theorem execDevComplete_enabled {s : State} {d : Dir} {m : Mask} (hl : transactionLegal d m = true)
    (hd : s.hs.dir = d) (hk : s.hs.mask = m) (he : s.deviceEnabled = true) :
    execDevComplete d m s = .next s.complete := by
  unfold execDevComplete
  cases d
  · have hm : ¬ m = 0#4 := by simpa [transactionLegal] using hl
    simp [hm, hd, hk, he]
  · have hm : m = 0b1111#4 := by simpa [transactionLegal] using hl
    subst hm
    simp [hd, hk, he, fullMask]

/-- If `DEV_COMPLETE` answers a next state, the transaction is not reserved, and either it completed or the Device held. -/
theorem execDevComplete_next {s t : State} {d : Dir} {m : Mask} (h : execDevComplete d m s = .next t) :
    transactionLegal d m = true ∧
      ((s.hs.dir = d ∧ s.hs.mask = m ∧ s.deviceEnabled = true ∧ t = s.complete) ∨
        (¬ (s.hs.dir = d ∧ s.hs.mask = m ∧ s.deviceEnabled = true) ∧ t = s)) := by
  unfold execDevComplete at h
  split at h
  · cases h
  · next h1 =>
    split at h
    · cases h
    · next h2 =>
      have hl : transactionLegal d m = true := by
        cases d
        · simpa [transactionLegal] using h1
        · simpa [transactionLegal, fullMask] using h2
      refine ⟨hl, ?_⟩
      split at h
      · next h3 => cases h; exact .inl ⟨h3.1, h3.2.1, h3.2.2, rfl⟩
      · next h3 => cases h; exact .inr ⟨h3, rfl⟩

end Sys2Proof.Machine
end

