-- ==== Sys2Proof/Laws/PerInstr.lean ====
section
/-! SUPPORT. Per-instruction families. -/

namespace Sys2Proof.Laws.EncodedFormat

/-- The words of an operation have the formats R100 and R101 give it, in issue order. -/
def Statement (i : Instr) : Prop := (encode i).map PortWord.format = i.formats

theorem vpWrite (a : VpAddr) (l : Len) : Statement (.vpWrite a l) := rfl
theorem vpRead (a : VpAddr) (l : Len) : Statement (.vpRead a l) := rfl
theorem setTarget (a : SlotAddr) : Statement (.setTarget a) := rfl
theorem setAutoIncrement (on : Bool) : Statement (.setAutoIncrement on) := rfl
theorem loadLane (l : Lane) (v : Byte) : Statement (.loadLane l v) := rfl
theorem readLane (l : Lane) : Statement (.readLane l) := rfl
theorem executeWrite (m : Mask) : Statement (.executeWrite m) := rfl
theorem executeRead : Statement .executeRead := rfl
theorem pollCtrl : Statement .pollCtrl := rfl
theorem devComplete (d : Dir) (m : Mask) : Statement (.devComplete d m) := rfl
theorem release : Statement .release := rfl
theorem irqMask : Statement .irqMask := rfl
theorem irqRestore : Statement .irqRestore := rfl

end Sys2Proof.Laws.EncodedFormat
end

