-- ==== Sys2Proof/Laws/Step.lean ====
section
/-! SUPPORT. What a step can do, said once: one inversion lemma for a line of the sequencer, for each agent's turn and for
the step. -/

namespace Sys2Proof.Machine

/-! ## A line of the sequencer -/

/-- What a line does when it answers a next state. -/
def LineStep (s : State) : Micro → State → Prop
  | .setSlot, t => t = s.setSlot (slotOfVp s.eng.vp)
  | .nextSlot, t => t = s.setSlot (s.eng.slot + 1)
  | .target, t => s.hs.req = false ∧ t = s.setAddr s.eng.slot
  | .autoInc on, t => s.hs.req = false ∧ t = s.setAutoInc (autoIncValue on)
  | .stage l off, t => s.hs.req = false ∧ ∃ v, s.bufRead (s.bufIndex off) = some v ∧ t = s.setLane l v
  | .executeWrite m, t => s.hs.req = false ∧ m ≠ 0 ∧ t = s.startTransaction .write m
  | .executeRead, t => s.hs.req = false ∧ t = s.startTransaction .read fullMask
  | .extract l off, t => s.hs.req = false ∧ ∃ b, s.buf = some b ∧ s.bufIndex off < b.length ∧
      t = { s.setReadData (s.hs.lanes.get l) with buf := some (b.set (s.bufIndex off) (s.hs.lanes.get l)) }
  | .consume n, t => t = s.consume n
  | .release, t => s.hs.req = false ∧ t = s.setCtrl 0
  | .finish, t => t = s.restoreInterrupts.giveDone

/-- A line answers a next state exactly as `LineStep` says. -/
theorem State.line_next {s t : State} {m : Micro} : s.line m = .next t ↔ LineStep s m t := by
  have next_inj : ∀ u : State, ((Host.Outcome.next u : Result) = .next t) ↔ t = u := fun u =>
    ⟨fun h => by cases h; rfl, fun h => by rw [h]⟩
  cases m with
  | setSlot => exact next_inj _
  | nextSlot => exact next_inj _
  | consume n => exact next_inj _
  | finish => exact next_inj _
  | target =>
    show andThen (s.whenIdleBus _) _ = _ ↔ _
    simp only [andThen_eq_next, State.whenIdleBus_next, State.afterOp, next_inj, LineStep]
    exact ⟨fun ⟨_, ⟨h, e⟩, e'⟩ => ⟨h, e'.trans e⟩, fun ⟨h, e⟩ => ⟨_, ⟨h, rfl⟩, e⟩⟩
  | autoInc on =>
    show andThen (s.whenIdleBus _) _ = _ ↔ _
    simp only [andThen_eq_next, State.whenIdleBus_next, State.afterOp, next_inj, LineStep]
    exact ⟨fun ⟨_, ⟨h, e⟩, e'⟩ => ⟨h, e'.trans e⟩, fun ⟨h, e⟩ => ⟨_, ⟨h, rfl⟩, e⟩⟩
  | release =>
    show andThen (s.whenIdleBus _) _ = _ ↔ _
    simp only [andThen_eq_next, State.whenIdleBus_next, State.afterOp, next_inj, LineStep]
    exact ⟨fun ⟨_, ⟨h, e⟩, e'⟩ => ⟨h, e'.trans e⟩, fun ⟨h, e⟩ => ⟨_, ⟨h, rfl⟩, e⟩⟩
  | executeRead =>
    show andThen (s.whenIdleBus _) _ = _ ↔ _
    simp only [andThen_eq_next, State.whenIdleBus_next, State.afterOp, next_inj, LineStep]
    exact ⟨fun ⟨_, ⟨h, e⟩, e'⟩ => ⟨h, e'.trans e⟩, fun ⟨h, e⟩ => ⟨_, ⟨h, rfl⟩, e⟩⟩
  | executeWrite m =>
    show andThen (execExecuteWrite m s) _ = _ ↔ _
    unfold execExecuteWrite LineStep
    by_cases hm : m = 0
    · rw [if_pos hm]
      exact ⟨fun h => (by cases h), fun h => absurd hm h.2.1⟩
    · rw [if_neg hm]
      simp only [andThen_eq_next, State.whenIdleBus_next, State.afterOp, next_inj]
      exact ⟨fun ⟨_, ⟨h, e⟩, e'⟩ => ⟨h, hm, e'.trans e⟩, fun ⟨h, _, e⟩ => ⟨_, ⟨h, rfl⟩, e⟩⟩
  | stage l off =>
    have hop : s.lineOp (.stage l off) = (s.bufRead (s.bufIndex off)).map (.loadLane l) := rfl
    have hst : LineStep s (.stage l off) t ↔
        s.hs.req = false ∧ ∃ v, s.bufRead (s.bufIndex off) = some v ∧ t = s.setLane l v := Iff.rfl
    rw [hst]
    unfold State.line
    rw [hop]
    cases hv : s.bufRead (s.bufIndex off) with
    | none => exact Iff.intro (fun h => nomatch h) (fun ⟨_, _, e, _⟩ => nomatch e)
    | some v =>
      show andThen (s.whenIdleBus _) _ = _ ↔ _
      simp only [andThen_eq_next, State.whenIdleBus_next, State.afterOp, next_inj]
      exact ⟨fun ⟨_, ⟨h, e⟩, e'⟩ => ⟨h, v, rfl, e'.trans e⟩,
        fun ⟨h, w, e, e'⟩ => ⟨_, ⟨h, rfl⟩, by cases e; exact e'⟩⟩
  | extract l off =>
    show andThen (s.whenIdleBus _) _ = _ ↔ _
    simp only [andThen_eq_next, State.whenIdleBus_next, State.afterOp, State.deliver, LineStep]
    constructor
    · rintro ⟨u, ⟨h, rfl⟩, e⟩
      split at e
      · next w hw =>
        cases e
        obtain ⟨b, hb, hi, rfl⟩ := State.bufWrite_eq_some.mp hw
        exact ⟨h, b, hb, hi, rfl⟩
      · cases e
    · rintro ⟨h, b, hb, hi, rfl⟩
      refine ⟨_, ⟨h, rfl⟩, ?_⟩
      have hw := State.bufWrite_eq_some (s := s.setReadData (s.hs.lanes.get l)) (i := s.bufIndex off)
        (v := s.hs.lanes.get l) |>.mpr ⟨b, hb, hi, rfl⟩
      show (match (s.setReadData (s.hs.lanes.get l)).bufWrite (s.bufIndex off) (s.hs.lanes.get l) with
        | some t => (.next t : Result)
        | none => .refused .bufferContract) = _
      rw [hw]

/-! ## An operation -/

/-- What acceptance answers when it answers a next state (R192, R196). -/
def AcceptStep (s : State) (d : Dir) (a : VpAddr) (l : Len) (t : State) : Prop :=
  s.eng.phase = .idle ∧
    ((s.blocked = true ∧ t = s) ∨
      (s.blocked = false ∧ l = 0 ∧ t = (s.latchRequest d a l).restoreInterrupts.giveDone) ∨
      (s.blocked = false ∧ l ≠ 0 ∧ t = (s.latchRequest d a l).enterPhase .addressSet addressSetLines))

theorem State.accept_next {s t : State} {d : Dir} {a : VpAddr} {l : Len} (h : s.accept d a l = .next t) :
    AcceptStep s d a l t := by
  unfold State.accept at h
  split at h
  · cases h
  · next hp =>
    have hp' : s.eng.phase = .idle := Decidable.not_not.mp hp
    cases hb : s.blocked with
    | true => rw [hb, if_pos rfl] at h; cases h; exact ⟨hp', .inl ⟨hb, rfl⟩⟩
    | false =>
      rw [hb, if_neg (by decide)] at h
      split at h
      · next hl => cases h; exact ⟨hp', .inr (.inl ⟨hb, hl, rfl⟩)⟩
      · next hl => cases h; exact ⟨hp', .inr (.inr ⟨hb, hl, rfl⟩)⟩

/-- What an operation does when it answers a next state. -/
def ExecStep (s : State) : Instr → State → Prop
  | .vpWrite a l, t => AcceptStep s .write a l t
  | .vpRead a l, t => AcceptStep s .read a l t
  | .setTarget a, t => s.hs.req = false ∧ t = s.setAddr a
  | .setAutoIncrement on, t => s.hs.req = false ∧ t = s.setAutoInc (autoIncValue on)
  | .loadLane l v, t => s.hs.req = false ∧ t = s.setLane l v
  | .readLane l, t => s.hs.req = false ∧ t = s.setReadData (s.hs.lanes.get l)
  | .executeWrite m, t => s.hs.req = false ∧ m ≠ 0 ∧ t = s.startTransaction .write m
  | .executeRead, t => s.hs.req = false ∧ t = s.startTransaction .read fullMask
  | .pollCtrl, t => t = (s.setReadData s.hs.ctrl).setWaiting (s.eng.waiting && s.hs.req)
  | .devComplete d m, t => transactionLegal d m = true ∧
      ((s.hs.dir = d ∧ s.hs.mask = m ∧ s.deviceEnabled = true ∧ t = s.complete) ∨
        (¬ (s.hs.dir = d ∧ s.hs.mask = m ∧ s.deviceEnabled = true) ∧ t = s))
  | .release, t => s.hs.req = false ∧ t = s.setCtrl 0
  | .irqMask, t => t = s.maskInterrupts
  | .irqRestore, t => t = s.restoreInterrupts

/-- An operation that answers a next state does what `ExecStep` says. -/
theorem exec_next {s t : State} {i : Instr} (h : exec i s = .next t) : ExecStep s i t := by
  cases i with
  | vpWrite a l => exact State.accept_next h
  | vpRead a l => exact State.accept_next h
  | setTarget a => exact State.whenIdleBus_next.mp h
  | setAutoIncrement on => exact State.whenIdleBus_next.mp h
  | loadLane l v => exact State.whenIdleBus_next.mp h
  | readLane l => exact State.whenIdleBus_next.mp h
  | executeWrite m =>
    simp only [exec, execExecuteWrite] at h
    split at h
    · cases h
    · next hm => exact ⟨(State.whenIdleBus_next.mp h).1, hm, (State.whenIdleBus_next.mp h).2⟩
  | executeRead => exact State.whenIdleBus_next.mp h
  | pollCtrl => cases h; rfl
  | devComplete d m => exact execDevComplete_next h
  | release => exact State.whenIdleBus_next.mp h
  | irqMask => cases h; rfl
  | irqRestore => cases h; rfl

/-! ## Phases -/

/-- No pass through a phase before `Released` contains the line that ends the request. -/
theorem finish_not_mem (d : Dir) (n : Nat) :
    Micro.finish ∉ headLines d n ∧ Micro.finish ∉ bulkLines d ∧ Micro.finish ∉ tailLines d n := by
  have h1 : ∀ f : Lane → Nat → Micro, (∀ l k, f l k ≠ .finish) → ∀ ls k, Micro.finish ∉ atOffsets f k ls := by
    intro f hf ls
    induction ls with
    | nil => intro k; simp [atOffsets]
    | cons l ls ih => intro k; simp only [atOffsets, List.mem_cons, not_or]; exact ⟨(hf _ _).symm, ih _⟩
  have h2 : ∀ f : Lane → Nat → Micro, (∀ l k, f l k ≠ .finish) → ∀ ls, Micro.finish ∉ oneByOne f ls := by
    intro f hf ls
    simp only [oneByOne, List.mem_flatMap, not_exists, not_and]
    intro l _ h
    simp only [List.mem_cons, List.not_mem_nil, or_false, reduceCtorEq] at h
    exact hf _ _ h.symm
  have hs : ∀ l k, Micro.stage l k ≠ .finish := by intros; simp
  have he : ∀ l k, Micro.extract l k ≠ .finish := by intros; simp
  cases d <;> simp [headLines, bulkLines, tailLines, h1 _ hs, h1 _ he, h2 _ hs, h2 _ he]

/-- Only the passes of a read request contain lines that write the buffer. -/
theorem read_of_extracts {d : Dir} {n : Nat} {m : Micro} (hm : m ∈ headLines d n ++ bulkLines d ++ tailLines d n)
    (he : m.extracts.isSome = true) : d = .read := by
  have h1 : ∀ ls k, m ∉ atOffsets .stage k ls := by
    intro ls
    induction ls with
    | nil => intro k; simp [atOffsets]
    | cons l ls ih =>
      intro k
      simp only [atOffsets, List.mem_cons, not_or]
      exact ⟨by rintro rfl; simp [Micro.extracts] at he, ih _⟩
  cases d with
  | read => rfl
  | write =>
    exfalso
    simp only [headLines, bulkLines, tailLines, oneByOne, List.mem_append, List.mem_cons, List.mem_flatMap, List.not_mem_nil,
      or_false, h1, false_or] at hm
    rcases hm with (((⟨l, _, rfl | rfl⟩ | rfl) | rfl | rfl) | rfl | rfl | rfl) | rfl | rfl
    all_goals simp_all [Micro.extracts]

/-- After the lines that `rem` decides over, the next phase is `BulkLoop`, `Tail` or `Released`, by `rem`. -/
theorem State.enterByRem_cases (s : State) :
    (4 ≤ s.eng.rem.toNat ∧ ∃ q, .finish ∉ q ∧ s.enterByRem = s.enterPhase .bulkLoop q) ∨
    (s.eng.rem = 0 ∧ s.enterByRem = s.enterPhase .released releasedLines) ∨
    (1 ≤ s.eng.rem.toNat ∧ s.eng.rem.toNat ≤ 3 ∧
      s.enterByRem = s.enterPhase .tail (tailLines s.eng.op s.eng.rem.toNat)) := by
  by_cases h4 : 4 ≤ s.eng.rem.toNat
  · refine .inl ⟨h4, _, ?_, if_pos h4⟩
    split <;> simp [finish_not_mem s.eng.op 0]
  · by_cases h0 : s.eng.rem = 0
    · exact .inr (.inl ⟨h0, (if_neg h4).trans (if_pos h0)⟩)
    · have hn : s.eng.rem.toNat ≠ 0 := fun h => h0 (BitVec.eq_of_toNat_eq h)
      exact .inr (.inr ⟨by omega, by omega, (if_neg h4).trans (if_neg h0)⟩)

/-- The step that leaves a phase: nothing between requests, the end of the request after `Released`, and else an arrow of
R193, if only `AddressSet` was entered with `rem > 0`. -/
theorem State.leavePhase_cases (s : State) :
    (s.eng.phase = .idle ∧ s.leavePhase = s) ∨
    (s.eng.phase = .released ∧ s.leavePhase = s.giveDone) ∨
    (s.eng.phase ≠ .idle ∧ s.eng.phase ≠ .released ∧ ∃ p q, s.leavePhase = s.enterPhase p q ∧ p ≠ .idle ∧
      p ≠ .addressSet ∧ (.finish ∈ q → p = .released) ∧
      ((s.eng.phase = .addressSet → s.eng.rem ≠ 0) → p ≠ s.eng.phase →
        phaseArrow s.eng.vp s.eng.rem s.eng.phase p = true)) := by
  have er : s.eng.phase ≠ .idle → s.eng.phase ≠ .released → s.eng.phase ≠ .tail → s.leavePhase = s.enterByRem →
      (s.eng.phase = .addressSet → vpIsOdd s.eng.vp = false) →
      ∃ p q, s.leavePhase = s.enterPhase p q ∧ p ≠ .idle ∧ p ≠ .addressSet ∧ (.finish ∈ q → p = .released) ∧
        ((s.eng.phase = .addressSet → s.eng.rem ≠ 0) → p ≠ s.eng.phase →
          phaseArrow s.eng.vp s.eng.rem s.eng.phase p = true) := by
    intro hi hr ht he ho
    rw [he]
    rcases s.enterByRem_cases with ⟨h4, q, hq, e⟩ | ⟨h0, e⟩ | ⟨h1, h3, e⟩
    · refine ⟨_, q, e, by simp, by simp, fun h => absurd h hq, fun _ hn => ?_⟩
      cases hp : s.eng.phase <;> simp_all [phaseArrow]
    · refine ⟨_, _, e, by simp, by simp, fun _ => rfl, fun hz hn => ?_⟩
      cases hp : s.eng.phase <;> simp_all [phaseArrow]
    · refine ⟨_, _, e, by simp, by simp, fun h => absurd h (finish_not_mem _ _).2.2, fun _ hn => ?_⟩
      cases hp : s.eng.phase <;> simp_all [phaseArrow]
  cases hp : s.eng.phase with
  | idle => exact .inl ⟨rfl, by simp only [State.leavePhase, hp]⟩
  | released => exact .inr (.inl ⟨rfl, by simp only [State.leavePhase, hp]⟩)
  | tail =>
    refine .inr (.inr ⟨by simp, by simp, .released, releasedLines, by simp only [State.leavePhase, hp], by simp, by simp,
      fun _ => rfl, fun _ _ => rfl⟩)
  | partialHead => exact .inr (.inr ⟨by simp, by simp, hp ▸ er (by simp [hp]) (by simp [hp]) (by simp [hp])
      (by simp only [State.leavePhase, hp]) (by simp [hp])⟩)
  | bulkLoop => exact .inr (.inr ⟨by simp, by simp, hp ▸ er (by simp [hp]) (by simp [hp]) (by simp [hp])
      (by simp only [State.leavePhase, hp]) (by simp [hp])⟩)
  | addressSet =>
    refine .inr (.inr ⟨by simp, by simp, ?_⟩)
    cases ho : vpIsOdd s.eng.vp with
    | true =>
      refine ⟨.partialHead, headLines s.eng.op (min s.eng.rem.toNat 2), by simp [State.leavePhase, hp, ho], by simp,
        by simp, fun h => absurd h (finish_not_mem _ _).1, fun _ _ => by simp [phaseArrow, ho]⟩
    | false => exact hp ▸ er (by simp [hp]) (by simp [hp]) (by simp [hp]) (by simp [State.leavePhase, hp, ho]) (fun _ => ho)

/-! ## Turns -/

/-- A step is the turn of the agent that comes next. -/
theorem step_of_turn {s : State} {n : Turn} (h : s.nextTurn = n) : step s = s.popTurn.takeTurn n := by
  rw [← h]; rfl

/-- The Engine's turn: a poll, the next phase, or a line. -/
theorem State.engineTurn_next {s t : State} (h : s.engineTurn = .next t) :
    (s.eng.waiting = true ∧ t = (s.setReadData s.hs.ctrl).setWaiting (s.eng.waiting && s.hs.req)) ∨
    (s.eng.waiting = false ∧ s.eng.todo = [] ∧ t = s.leavePhase) ∨
    (s.eng.waiting = false ∧ ∃ m rest, s.eng.todo = m :: rest ∧ LineStep s.popLine m t) := by
  unfold State.engineTurn at h
  cases hw : s.eng.waiting with
  | true =>
    rw [hw, if_pos rfl] at h
    cases h
    exact .inl ⟨rfl, by rw [hw]⟩
  | false =>
    rw [hw, if_neg (by decide)] at h
    split at h
    · next hq => cases h; exact .inr (.inl ⟨rfl, hq, rfl⟩)
    · next m rest hq => exact .inr (.inr ⟨rfl, m, rest, hq, State.line_next.mp h⟩)

/-- The Device's step for the stored `CTRL`, whatever its direction. -/
theorem execDevComplete_turn {s t : State} {d : Dir} (h : execDevComplete d s.hs.mask s = .next t) :
    (s.deviceEnabled = true ∧ transactionLegal s.hs.dir s.hs.mask = true ∧ t = s.complete) ∨ t = s := by
  obtain ⟨hl, ⟨hdir, -, he, rfl⟩ | ⟨_, rfl⟩⟩ := execDevComplete_next h
  · exact .inl ⟨he, hdir ▸ hl, rfl⟩
  · exact .inr rfl

/-- What the Device's turn is for each stored `CTRL` value: a reserved one is refused, one that requests nothing is a hold,
and any other is `DEV_COMPLETE` with its own fields (R114, R116). -/
theorem State.deviceTurn_eq (s : State) :
    s.deviceTurn =
      if controlReserved s.hs.ctrl then .refused (.reservedWord .reservedCtrlBits)
      else if controlHigh s.hs.ctrl = 0b1000 then exec (.devComplete .write s.hs.mask) s
      else if controlHigh s.hs.ctrl = 0b1010 then exec (.devComplete .read s.hs.mask) s
      else .next s := by
  unfold State.deviceTurn
  simp only [decode, decodeControl]
  cases controlReserved s.hs.ctrl
  · by_cases h8 : controlHigh s.hs.ctrl = 0b1000
    · rw [if_pos h8, if_pos h8]; rfl
    · by_cases h10 : controlHigh s.hs.ctrl = 0b1010
      · rw [if_neg h8, if_neg h8, if_pos h10, if_pos h10]; rfl
      · rw [if_neg h8, if_neg h8, if_neg h10, if_neg h10]; rfl
  · rfl

/-- The Device's turn: a transaction completes, or nothing happens. -/
theorem State.deviceTurn_next {s t : State} (h : s.deviceTurn = .next t) :
    (s.deviceEnabled = true ∧ transactionLegal s.hs.dir s.hs.mask = true ∧ t = s.complete) ∨ t = s := by
  rw [State.deviceTurn_eq] at h
  split at h
  · cases h
  · split at h
    · exact execDevComplete_turn h
    · split at h
      · exact execDevComplete_turn h
      · cases h; exact .inr rfl

/-- A value written to `CTRL` is never the Device's step. -/
theorem decodeControlWrite_ne_devComplete (v : Byte) (d : Dir) (m : Mask) :
    decodeControlWrite v ≠ .ok (.devComplete d m) := by
  unfold decodeControlWrite
  repeat' split
  all_goals simp

/-- Only a `CTRL8` decodes to `DEV_COMPLETE`. -/
theorem decode_devComplete {ws rest : List PortWord} {d : Dir} {m : Mask}
    (h : decode ws = .ok (.devComplete d m, rest)) : ∃ c ws', ws = .ctrl8 c :: ws' := by
  match ws, h with
  | .ctrl8 c :: ws', _ => exact ⟨c, ws', rfl⟩
  | .req33 w :: ws', h =>
    exfalso
    simp only [decode, decodeRequest, Except.ok.injEq, Prod.mk.injEq] at h
    split at h <;> exact absurd h.1 (by simp)
  | .ieev1 w :: ws', h =>
    exfalso
    simp only [decode, decodeInterrupt, Except.ok.injEq, Prod.mk.injEq] at h
    split at h <;> exact absurd h.1 (by simp)
  | .hsev13 w :: ws', h =>
    exfalso
    simp only [decode, decodeRegisterWrite, decodeRegisterRead] at h
    repeat' split at h
    all_goals first
      | (simp only [Except.ok.injEq, Prod.mk.injEq, reduceCtorEq, false_and] at h; done)
      | (next hj =>
          simp only [Except.ok.injEq, Prod.mk.injEq] at h
          exact decodeControlWrite_ne_devComplete _ d m (h.1 ▸ hj))

/-- Words at the ports that run an operation run none of the Device's. -/
theorem State.runWords_next {s t : State} {w : PortWord} {rest : List PortItem} (hq : s.port.issue = .word w :: rest)
    (hw : ∀ c, w ≠ .ctrl8 c) (h : s.runWords = .next t) :
    ∃ i r q, decode (frontWords s.port.issue) = .ok (i, r) ∧ (∀ d m, i ≠ .devComplete d m) ∧
      exec i (s.setIssue q) = .next t := by
  unfold State.runWords at h
  split at h
  · next i r hd =>
    refine ⟨i, r, _, hd, ?_, h⟩
    rintro d m rfl
    rw [hq] at hd
    obtain ⟨c, ws, hc⟩ := decode_devComplete hd
    cases hc
    exact hw c rfl
  · cases h

/-- The Environment writer's turn: the lanes it names of a slot with storage, where `ENV_WRITES` lets it, and else nothing. -/
theorem State.envTurn_cases (s : State) (a : SlotAddr) (m : Mask) (q : Lanes) :
    (s.envAllowed = true ∧ s.par.slotBacked a = true ∧ s.envTurn a m q = { s with vpm := s.vpm.storeLanes a m q }) ∨
    ((s.envAllowed = false ∨ s.par.slotBacked a = false) ∧ s.envTurn a m q = s) := by
  unfold State.envTurn
  cases he : s.envAllowed <;> cases hb : s.par.slotBacked a <;> simp

/-- Words between requests run only while no transaction is outstanding. -/
theorem State.runWordsWhenFree_next {s t : State} (h : s.runWordsWhenFree = .next t) :
    (s.blocked = true ∧ t = s) ∨ (s.blocked = false ∧ s.runWords = .next t) := by
  unfold State.runWordsWhenFree at h
  cases hb : s.blocked with
  | true => rw [hb, if_pos rfl] at h; cases h; exact .inl ⟨rfl, rfl⟩
  | false => rw [hb, if_neg (by decide)] at h; exact .inr ⟨rfl, h⟩

/-- The operation a presented word stands for may run between requests: no wait is on, or `CTRL.REQ = 1` (a register word,
which is then refused unless it is a poll), or it is a poll (R136). -/
def State.MayRun (s : State) (i : Instr) : Prop := s.blocked = false ∨ s.hs.req = true ∨ i = .pollCtrl

/-- Register words run where `State.MayRun` says so, and else stay at the port. -/
theorem State.runRegisterWords_next {s t : State} (h : s.runRegisterWords = .next t) :
    t = s ∨ (s.runWords = .next t ∧ ∀ i r, decode (frontWords s.port.issue) = .ok (i, r) → s.MayRun i) := by
  unfold State.runRegisterWords at h
  split at h
  · next hd =>
    refine .inr ⟨h, fun i r hi => .inr (.inr ?_)⟩
    rw [hd] at hi; cases hi; rfl
  · split at h
    · next hr => exact .inr ⟨h, fun _ _ _ => .inr (.inl hr)⟩
    · rcases State.runWordsWhenFree_next h with ⟨_, e⟩ | ⟨hb, h⟩
      · exact .inl e
      · exact .inr ⟨h, fun _ _ _ => .inl hb⟩
  · next hd => exact .inr ⟨h, fun i r hi => by rw [hd] at hi; cases hi⟩

/-- Register words that decode to no operation are refused, whether or not a wait is on (R115, R116). -/
theorem State.runRegisterWords_error {s : State} {e : DecodeError} (hd : decode (frontWords s.port.issue) = .error e) :
    s.runRegisterWords = .refused (.reservedWord e) := by
  simp only [State.runRegisterWords, State.runWords, hd]

/-- A poll at the ports runs, whether or not a wait is on (R136). -/
theorem State.runRegisterWords_poll {s : State} {r : List PortWord}
    (hd : decode (frontWords s.port.issue) = .ok (.pollCtrl, r)) : s.runRegisterWords = s.runWords := by
  simp only [State.runRegisterWords, hd]

/-- Once the transaction is complete a register word that is no poll waits for the poll that ends the wait. -/
theorem State.runRegisterWords_held {s : State} {i : Instr} {r : List PortWord}
    (hd : decode (frontWords s.port.issue) = .ok (i, r)) (hi : i ≠ .pollCtrl) (hr : s.hs.req = false)
    (hb : s.blocked = true) : s.runRegisterWords = .next s := by
  have hf : s.runWordsWhenFree = .next s := if_pos hb
  unfold State.runRegisterWords
  rw [hd, hr, hf]
  cases i <;> first | exact absurd rfl hi | rfl

/-- A request word inside a request is refused. -/
theorem State.runWords_busy {s : State} {w : BitVec 33} {rest : List PortItem} (hp : s.eng.phase ≠ .idle)
    (hq : s.port.issue = .word (.req33 w) :: rest) : s.runWords = .refused .requestWhileBusy := by
  unfold State.runWords
  rw [hq]
  have hd : decode (frontWords (.word (.req33 w) :: rest)) = .ok (decodeRequest w, frontWords rest) := rfl
  rw [hd]
  have hb : ∀ q d a l, (s.setIssue q).accept d a l = .refused .requestWhileBusy :=
    fun q d a l => State.accept_busy d a l hp
  simp only [decodeRequest]
  split <;> exact hb _ _ _ _

/-- The ports' turn: nothing, the buffer in front is set between requests, or an operation other than `DEV_COMPLETE` runs
between requests where `State.MayRun` says so. -/
theorem State.presentTurn_next {s t : State} (h : s.presentTurn = .next t) :
    t = s ∨
    (s.eng.phase = .idle ∧ ∃ b rest, s.port.issue = .buffer b :: rest ∧ t = { s.setIssue rest with buf := b }) ∨
    (s.eng.phase = .idle ∧ ∃ i q, s.MayRun i ∧ (∀ d m, i ≠ .devComplete d m) ∧ exec i (s.setIssue q) = .next t) := by
  have free : ∀ {w rest}, s.port.issue = .word w :: rest → (∀ c, w ≠ .ctrl8 c) → s.eng.phase = .idle →
      (t = s ∨ (s.runWords = .next t ∧ ∀ i r, decode (frontWords s.port.issue) = .ok (i, r) → s.MayRun i)) →
      t = s ∨ (s.eng.phase = .idle ∧
        ∃ i q, s.MayRun i ∧ (∀ d m, i ≠ .devComplete d m) ∧ exec i (s.setIssue q) = .next t) := by
    intro w rest hq hw hp hr
    rcases hr with e | ⟨hr, hb⟩
    · exact .inl e
    · obtain ⟨i, r, q, hd, hi, he⟩ := State.runWords_next hq hw hr
      exact .inr ⟨hp, i, q, hb i r hd, hi, he⟩
  have held : s.runWordsWhenFree = .next t →
      t = s ∨ (s.runWords = .next t ∧ ∀ i r, decode (frontWords s.port.issue) = .ok (i, r) → s.MayRun i) :=
    fun hr => (State.runWordsWhenFree_next hr).imp (fun e => e.2) fun e => ⟨e.2, fun _ _ _ => .inl e.1⟩
  unfold State.presentTurn at h
  split at h
  · cases h; exact .inl rfl
  · split at h
    · next hp => cases h; exact .inr (.inl ⟨hp, _, _, by assumption, rfl⟩)
    · cases h; exact .inl rfl
  · next w rest hq =>
    split at h
    · next hp => exact (free hq (fun c => by simp) hp (held h)).imp_right .inr
    · next hp => rw [State.runWords_busy hp hq] at h; cases h
  · next w rest hq =>
    split at h
    · next hp => exact (free hq (fun c => by simp) hp (State.runRegisterWords_next h)).imp_right .inr
    · cases h
  · next w rest hq =>
    split at h
    · next hp => exact (free hq (fun c => by simp) hp (held h)).imp_right .inr
    · cases h
  · cases h

end Sys2Proof.Machine
end

