-- ==== Sys2Proof/Tests/Slice0.lean ====
section
/-! SUPPORT. Tests: refused and decoded words, one step on a small state for each operation with the values of the spec's
vectors (95_test_vectors.md), and for every statement with hypotheses a concrete state that meets them. -/

namespace Sys2Proof.Tests

open Sys2Proof Sys2Proof.Machine

/-! ## Helpers -/

/-- The next state of an outcome, if it has one. -/
def nextOf : Result → Option State
  | .next t => some t
  | _ => none

/-- The refusal of an outcome, if it is one. -/
def refusalOf : Result → Option Refusal
  | .refused r => some r
  | _ => none

/-- Slot `0x49` holds `00 01 02 03`. -/
def vpm49 : Memory := [(0x125, 1), (0x126, 2), (0x127, 3)]

/-- Between requests: `ADDR = 000049`, lanes `A0 A1 A2 A3`, slot `0x49` as above, `IE = 1`, a buffer of five bytes. -/
def base : State :=
  { State.reset with
    hs := { addrH := 0, addrM := 0, addrL := 0x49, autoInc := 0, lanes := ⟨0xA0, 0xA1, 0xA2, 0xA3⟩, ctrl := 0 }
    vpm := vpm49
    buf := some [0xB0, 0xB1, 0xB2, 0xB3, 0xB4]
    host := { State.reset.host with ie := true } }

/-- `base` with another `CTRL` and auto-increment setting, the Engine waiting. -/
def outstanding (c inc : Byte) : State :=
  { base with hs := { base.hs with ctrl := c, autoInc := inc }, eng := { base.eng with waiting := true } }

/-- `base` inside a request: a phase, the bytes left, the lines left and the lines' buffer index. -/
def inside (p : Phase) (vp : VpAddr) (rem idx : Len) (todo : List Micro) : State :=
  { base with
    eng := { base.eng with phase := p, vp := vp, rem := rem, idx := idx, slot := 0x49, ieSaved := true, todo := todo }
    host := { base.host with ie := false } }

/-- A draw of the values reset leaves open; `landed` names the lanes that reached the slot. -/
def draw (landed : Mask) : ResetDraw where
  op := .read
  vp := 5
  rem := 6
  idx := 7
  slot := 8
  ieSaved := true
  addrH := 1
  addrM := 2
  addrL := 3
  autoInc := 0xFF
  lanes := ⟨1, 2, 3, 4⟩
  ie := true
  landed := landed

/-- Every slot has storage when nothing is listed as unbacked. -/
theorem base_backed (a : VpAddr) (l : Len) : base.SlotsBacked a l := fun _ _ => rfl

theorem base_quiet : base.Quiet := by decide

/-! ## WellFormed: each check refuses an ill-formed term (R116) -/

theorem test_wf_empty_write : (Instr.executeWrite 0).wellFormed = false := by decide
theorem test_wf_dev_empty_write : (Instr.devComplete .write 0).wellFormed = false := by decide
theorem test_wf_dev_masked_read : (Instr.devComplete .read 0b0011).wellFormed = false := by decide
theorem test_wf_dev_read : (Instr.devComplete .read 0b1111).wellFormed = true := by decide
theorem test_wf_engine_masks :
    (List.finRange 16).filter (fun n => engineMask (BitVec.ofFin n)) = [2, 3, 8, 12, 14, 15] := by decide

/-! ## Decoding: words written out from the spec's encodings (B1, R102 to R108, R118) -/

/-- `vp_write(0x0093, buf, 9)` and the largest request (B1). -/
theorem test_decode_vp_write :
    decodeTableWord 40 0x000930009 = some (.vpWrite 0x0093 9) ∧
    decodeTableWord 40 0x0FFFFFFFF = some (.vpWrite 0xFFFF 65535) := by decide
theorem test_decode_vp_read :
    decodeTableWord 40 0x100100004 = some (.vpRead 0x0010 4) ∧
    decodeTableWord 40 0x1FFFFFFFF = some (.vpRead 0xFFFF 65535) := by decide
/-- `W ADDR_H=12; W ADDR_M=34; W ADDR_L=56` (B2 row 3). -/
theorem test_decode_set_target :
    decodeTableWord 40 0b100000001001010001001101001001001010110 = some (.setTarget 0x123456) := by decide
theorem test_decode_set_auto_increment :
    decodeTableWord 16 0b1001100000000 = some (.setAutoIncrement false) ∧
    decodeTableWord 16 0b1001100000001 = some (.setAutoIncrement true) := by decide
/-- `W LANE2=34` and `W LANE0=B1` (B1). -/
theorem test_decode_load_lane :
    decodeTableWord 16 0b1101000110100 = some (.loadLane .l2 0x34) ∧
    decodeTableWord 16 0b1100010110001 = some (.loadLane .l0 0xB1) := by decide
theorem test_decode_read_lane :
    decodeTableWord 16 0b0101100000000 = some (.readLane .l3) ∧
    decodeTableWord 16 0b0101000000000 = some (.readLane .l2) := by decide
theorem test_decode_execute_write : decodeTableWord 16 0b1010010001110 = some (.executeWrite 0b1110) := by decide
theorem test_decode_execute_read : decodeTableWord 16 0b1010010101111 = some .executeRead := by decide
theorem test_decode_poll_ctrl : decodeTableWord 16 0b0010000000000 = some .pollCtrl := by decide
/-- Stored `CTRL` values `0x83` and `0xAF` enable the Device; `0x2F` (completed read) does not (B1). -/
theorem test_decode_dev_complete :
    decodeTableWord 8 0b10000011 = some (.devComplete .write 0b0011) ∧
    decodeTableWord 8 0b10101111 = some (.devComplete .read 0b1111) ∧
    decodeTableWord 8 0b00101111 = none := by decide
theorem test_decode_release : decodeTableWord 16 0b1010000000000 = some .release := by decide
theorem test_decode_irq : decodeTableWord 8 0 = some .irqMask ∧ decodeTableWord 8 1 = some .irqRestore := by decide

/-- B1's reserved words are refused. -/
theorem test_decode_reserved :
    decodeTableWord 16 0x14A3 = none ∧ decodeTableWord 16 0x14CF = none ∧ decodeTableWord 16 0x149F = none ∧
    decodeTableWord 16 0x1500 = none ∧ decodeTableWord 16 0x1302 = none := by decide

/-- The encoder writes B1's words. -/
theorem test_encode :
    encode (.setTarget 0x49) = [.hsev13 0x1000, .hsev13 0x1100, .hsev13 0x1249] ∧
    encode (.vpRead 0x0093 9) = [.req33 0x100930009] ∧
    encode (.executeWrite 0b0010) = [.hsev13 0x1482] ∧ encode .executeRead = [.hsev13 0x14AF] := by decide

/-! ## Reset (R260) -/

theorem test_reset : State.reset.eng.phase = .idle ∧ State.reset.hs.ctrl = 0x00 ∧ State.reset.vpm.wf = true := by decide

/-! ## One step of each operation (B2) -/

/-- B2 row 3. -/
theorem test_set_target :
    (nextOf (exec (.setTarget 0x123456) base)).map (fun t => (t.hs.addrH, t.hs.addrM, t.hs.addrL)) =
      some (0x12, 0x34, 0x56) := by decide
/-- B2 row 5. -/
theorem test_set_auto_increment :
    (nextOf (exec (.setAutoIncrement true) base)).map (fun t => t.hs.autoInc) = some 0x01 := by decide
/-- B2 row 7. -/
theorem test_load_lane :
    (nextOf (exec (.loadLane .l0 0xFF) base)).map (fun t => t.hs.lanes) = some ⟨0xA0, 0xA1, 0xA2, 0xFF⟩ := by decide
/-- R133's example shape: lane 3 is the first of the four bytes. -/
theorem test_read_lane :
    (nextOf (exec (.readLane .l3) base)).map (fun t => t.port.readData) = some 0xA0 ∧
    (nextOf (exec (.readLane .l1) base)).map (fun t => t.port.readData) = some 0xA2 := by decide
/-- B2 row 9: the `CTRL` byte. -/
theorem test_execute_write :
    (nextOf (exec (.executeWrite 0b1100) base)).map (fun t => (t.hs.ctrl, t.vpm)) = some (0x8C, vpm49) := by decide
theorem test_execute_read :
    (nextOf (exec .executeRead base)).map (fun t => (t.hs.ctrl, t.eng.waiting)) = some (0xAF, true) := by decide
/-- B2 row 16: a poll of a transaction in flight changes nothing but the value read. -/
theorem test_poll_ctrl :
    (nextOf (exec .pollCtrl (outstanding 0x8C 0))).map (fun t => (t.port.readData, t.eng.waiting, t.hs.ctrl)) =
      some (0x8C, true, 0x8C) ∧
    (nextOf (exec .pollCtrl (outstanding 0x0C 0))).map (fun t => (t.port.readData, t.eng.waiting)) = some (0x0C, false) := by
  decide
/-- B2 row 11: mask `0010` stores lane 1 only; row 10: with auto-increment the address advances. -/
theorem test_dev_complete_write :
    (nextOf (exec (.devComplete .write 0b0010) (outstanding 0x82 0))).map (fun t => (t.vpm, t.hs.ctrl, t.hs.addr)) =
      some ([(0x125, 1), (0x126, 0xA2), (0x127, 3)], 0x02, 0x49) ∧
    (nextOf (exec (.devComplete .write 0b1111) (outstanding 0x8F 1))).map (fun t => (t.vpm, t.hs.ctrl, t.hs.addr)) =
      some ([(0x124, 0xA0), (0x125, 0xA1), (0x126, 0xA2), (0x127, 0xA3)], 0x0F, 0x4A) := by decide
/-- B2 row 13; row 14: the address wraps modulo `2^24`. -/
theorem test_dev_complete_read :
    (nextOf (exec (.devComplete .read 0b1111) (outstanding 0xAF 1))).map (fun t => (t.hs.lanes, t.hs.ctrl, t.hs.addr)) =
      some (⟨0, 1, 2, 3⟩, 0x2F, 0x4A) ∧
    (nextOf (exec (.devComplete .read 0b1111) ((outstanding 0xAF 1).setAddr 0xFFFFFF))).map (fun t => t.hs.addr) =
      some 0 := by decide
/-- B2 row 15. -/
theorem test_release :
    (nextOf (exec .release (base.setCtrl 0x0C))).map (fun t => (t.hs.ctrl, t.hs.addr)) = some (0x00, 0x49) := by decide
theorem test_irq_mask :
    (nextOf (exec .irqMask base)).map (fun t => (t.eng.ieSaved, t.host.ie)) = some (true, false) := by decide
/-- P3: with interrupts off before the request, `IRQ_RESTORE` restores 0. -/
theorem test_irq_restore :
    (nextOf (exec .irqRestore base)).map (fun t => t.host.ie) = some false := by decide
theorem test_vp_write :
    (nextOf (exec (.vpWrite 0x0093 9) base)).map (fun t => (t.eng.phase, t.eng.op, t.eng.vp, t.eng.rem, t.host.ie)) =
      some (.addressSet, .write, 0x0093, 9, false) := by decide
/-- P4, request 1: the zero-length request leaves `IE` and the registers. -/
theorem test_vp_write_zero :
    (nextOf (exec (.vpWrite 0x1234 0) base)).map (fun t => (t.eng.phase, t.hs, t.host)) =
      some (.idle, base.hs, base.host) := by decide
theorem test_vp_read :
    (nextOf (exec (.vpRead 0x0093 9) base)).map (fun t => (t.eng.phase, t.eng.op, t.eng.idx, t.eng.ieSaved)) =
      some (.addressSet, .read, 0, true) := by decide

/-! ## Witnesses: the hypotheses of the statements are met -/

theorem witness_decoded_words :
    decode [.hsev13 0x1249, .ieev1 0] = .error .brokenTarget ∧
    decode [.hsev13 0x1301, .ieev1 0] = .ok (.setAutoIncrement true, [.ieev1 0]) := by decide

/-- One word of every clause of `ReservedWordsAreRefused`, the first and last reserved indices among them. -/
theorem witness_reserved_words :
    (regReserved (eventReg 0x1500) = true ∧ regReserved (eventReg 0x0F00) = true) ∧
    (regAddrH ∈ [regAddrH, regAddrM, regAddrL, regAutoInc] ∧ regAutoInc ∈ [regAddrH, regAddrM, regAddrL, regAutoInc]) ∧
    ((0x02 : Byte) ≠ 0x00 ∧ (0x02 : Byte) ≠ 0x01) ∧
    ((0xCF : Byte).getLsbD 6 = true ∧ (0x9F : Byte).getLsbD 4 = true) ∧
    ((0b0011 : Mask) ≠ 0b1111 ∧ (0b1110 : Mask) ≠ 0b1111) ∧
    ((0x2F : Byte) ≠ 0 ∧ (0x2F : Byte).getLsbD 7 = false ∧ (0x2F : Byte).getLsbD 6 = false ∧
      (0x2F : Byte).getLsbD 4 = false) := by decide

theorem witness_reserved_transactions : (0 : Mask) ≠ 0b1111 ∧ (0b1110 : Mask) ≠ 0b1111 := by decide

/-- Three register writes waiting between requests, and a request word waiting inside a request. -/
theorem witness_step_runs_words :
    let s := base.setIssue [.word (.hsev13 0x1000), .word (.hsev13 0x1100), .word (.hsev13 0x1249), .buffer none]
    let r := (inside .tail 0x92 1 4 []).setIssue [.word (.req33 0x000930009)]
    (s.nextTurn = .present ∧ s.port.issue = (encode (.setTarget 0x49)).map .word ++ [.buffer none] ∧
      s.eng.phase = .idle ∧ s.blocked = false) ∧
    ({ r with sched := [.present] }.nextTurn = .present ∧ r.port.issue = (encode (.vpWrite 0x93 9)).map .word ++ [] ∧
      Instr.vpWrite 0x93 9 = requestInstr .write 0x93 9 ∧ r.eng.phase ≠ .idle) := by decide

/-- A request word and an interrupt-mask word that find a transaction from the ports outstanding; the polls left, with the
transaction complete and the wait not yet ended, are the same case. -/
theorem witness_ports_wait :
    (let s := { (outstanding 0x8C 0).setIssue [.word (.req33 0x000930009)] with sched := [.present] }
     s.eng.phase = .idle ∧ s.blocked = true ∧ s.nextTurn = .present ∧ s.port.issue = .word (.req33 0x000930009) :: []) ∧
    (let s := { (outstanding 0x0C 0).setIssue [.word (.ieev1 0)] with sched := [.present] }
     s.eng.phase = .idle ∧ s.blocked = true ∧ s.nextTurn = .present ∧ s.port.issue = .word (.ieev1 0) :: []) := by decide

/-- A register word that finds the transaction complete and the wait not yet ended waits too. -/
theorem witness_register_word_waits :
    let s := { (outstanding 0x0C 0).setIssue [.word (.hsev13 0x1B55)] with sched := [.present] }
    s.eng.phase = .idle ∧ s.blocked = true ∧ s.nextTurn = .present ∧ s.port.issue = .word (.hsev13 0x1B55) :: [] ∧
      s.hs.req = false ∧ decode (frontWords s.port.issue) = .ok (.loadLane .l3 0x55, []) := by
  exact ⟨by decide, by decide, by decide, by decide, by decide, rfl⟩

/-- A poll that finds the transaction complete, and one that does not. -/
theorem witness_poll_waits :
    (let s := { (outstanding 0x0C 0).setIssue [.word (.hsev13 0x0400)] with sched := [.present] }
     s.eng.phase = .idle ∧ s.blocked = true ∧ s.nextTurn = .present ∧
       s.port.issue = (encode .pollCtrl).map .word ++ [] ∧ s.hs.req = false) ∧
    (let s := { (outstanding 0x8C 0).setIssue [.word (.hsev13 0x0400)] with sched := [.present] }
     s.eng.phase = .idle ∧ s.blocked = true ∧ s.nextTurn = .present ∧
       s.port.issue = (encode .pollCtrl).map .word ++ [] ∧ s.hs.req = true) := by decide

/-- R136: a poll from the ports that reads `0x0C` ends the wait. -/
theorem test_poll_ends_the_wait :
    (nextOf (step { (outstanding 0x0C 0).setIssue [.word (.hsev13 0x0400)] with sched := [.present] })).map
      (fun t => (t.port.issue, t.port.readData, t.eng.waiting)) = some ([], 0x0C, false) := by decide

/-- B7 row 7: `W LANE3=55` while `CTRL = 8F` is refused. -/
theorem test_write_during_transaction :
    refusalOf (step { (outstanding 0x8F 0).setIssue [.word (.hsev13 0x1B55)] with sched := [.present] }) =
      some .transactionOutstanding := by decide

/-- A poll and a register write at the ports while `CTRL.REQ = 1`, a reserved word between requests, and a `CTRL8`. -/
theorem witness_port_words :
    (let s := { (outstanding 0x8F 0).setIssue [.word (.hsev13 0x0400)] with sched := [.present] }
     s.nextTurn = .present ∧ s.port.issue = (encode .pollCtrl).map .word ++ [] ∧ s.eng.phase = .idle ∧ s.hs.req = true ∧
       Instr.pollCtrl.formats.head? = some .hsev13) ∧
    (let s := { (outstanding 0x8F 0).setIssue [.word (.hsev13 0x1B55)] with sched := [.present] }
     s.nextTurn = .present ∧ s.eng.phase = .idle ∧ s.hs.req = true ∧ eventIsWrite 0x1B55 = true) ∧
    (let s := base.setIssue [.word (.hsev13 0x1500)]
     s.nextTurn = .present ∧ s.eng.phase = .idle ∧ s.blocked = false ∧
       decode (frontWords s.port.issue) = .error .reservedIndex) ∧
    (base.setIssue [.word (.ctrl8 0x8F)]).nextTurn = .present := ⟨by decide, by decide, by decide, by decide⟩

/-- The request of `witness_ports_wait` stays at its port and `IE` stays 1. -/
theorem test_ports_wait :
    (nextOf (step { (outstanding 0x8C 0).setIssue [.word (.req33 0x000930009)] with sched := [.present] })).map
      (fun t => (t.port.issue, t.host.ie, t.eng.phase)) = some ([.word (.req33 0x000930009)], true, .idle) := by decide

theorem witness_step_runs_device :
    (outstanding 0x8C 0).nextTurn = .device ∧ (outstanding 0x8C 0).hs.ctrl = controlStart .write 0b1100 ∧
    (outstanding 0xCF 0).nextTurn = .device ∧ (0xCF : Byte).getLsbD 6 = true ∧
    (outstanding 0x9F 0).nextTurn = .device ∧ (0x9F : Byte).getLsbD 4 = true ∧
    (base.withFetchWord 8 0x2F).nextTurn = .device ∧ (base.withFetchWord 8 0x2F).hs.req = false := by decide

/-- B1: a stored `CTRL` of `0xCF` or `0x9F` (reserved bits 6, 4) is refused. -/
theorem test_stored_reserved_bits :
    refusalOf (step (base.withFetchWord 8 0xCF)) = some (.reservedWord .reservedCtrlBits) ∧
    refusalOf (step (base.withFetchWord 8 0x9F)) = some (.reservedWord .reservedCtrlBits) ∧
    decodeTableWord 8 0xCF = none ∧ decodeTableWord 8 0x9F = none := by decide

/-- A wait for a Device that has stopped, and a staging line. -/
theorem witness_step_runs_line :
    (let s := { outstanding 0x88 1 with par := ⟨[], some 0, .betweenTransactions⟩ }
     s.nextTurn = .engine ∧ s.eng.waiting = true) ∧
    (let s := inside .tail 0x92 1 4 [.stage .l3 0, .executeWrite 0b1000]
     s.nextTurn = .engine ∧ s.eng.waiting = false ∧ s.eng.todo = .stage .l3 0 :: [.executeWrite 0b1000] ∧
       s.popTurn.popLine.lineOp (.stage .l3 0) = some (.loadLane .l3 0xB4)) := by decide

/-- The lines that change the Engine's own registers, and a staging line past the end of the buffer. -/
theorem witness_internal_lines :
    (let s := inside .addressSet 0x93 5 0 [.setSlot, .target]
     s.nextTurn = .engine ∧ s.eng.waiting = false ∧ s.eng.todo = .setSlot :: [.target]) ∧
    (let s := inside .bulkLoop 0x92 4 0 [.consume 4, .nextSlot]
     s.nextTurn = .engine ∧ s.eng.waiting = false ∧ s.eng.todo = .consume 4 :: [.nextSlot]) ∧
    (let s := inside .bulkLoop 0x92 4 0 [.nextSlot]
     s.nextTurn = .engine ∧ s.eng.todo = .nextSlot :: [] ∧ (nextOf (step s)).map (fun t => t.eng.slot) = some 0x4A) ∧
    (let s := inside .tail 0x92 1 5 [.stage .l3 0]
     s.nextTurn = .engine ∧ s.eng.todo = .stage .l3 0 :: [] ∧ s.bufRead (s.eng.idx.toNat + 0) = none) :=
  ⟨by decide, by decide, by decide, by decide⟩

/-- A line of every kind that issues an operation, with the buffer byte there and missing. -/
theorem witness_operation_lines :
    (∀ m ∈ [Micro.target, .autoInc true, .stage .l3 0, .executeWrite 0b1000, .executeRead, .extract .l3 0, .release, .finish],
      (inside .tail 0x92 1 4 [m]).nextTurn = .engine ∧ (inside .tail 0x92 1 4 [m]).eng.todo = m :: []) ∧
    (inside .tail 0x92 1 4 []).eng.waiting = false ∧ (inside .tail 0x92 1 4 []).hs.req = false ∧
    base.buf = some [0xB0, 0xB1, 0xB2, 0xB3, 0xB4] ∧ [0xB0, 0xB1, 0xB2, 0xB3, (0xB4 : Byte)][4 + 0]? = some 0xB4 ∧
    [0xB0, 0xB1, 0xB2, 0xB3, (0xB4 : Byte)].length ≤ 5 + 0 :=
  ⟨by decide, by decide, by decide, rfl, by decide, by decide⟩

/-- The Engine at the end of a phase's lines, whatever the phase and `rem`; among them each guard's boundary, `rem` 4, 3, 1
and 0, from an even and an odd start. -/
theorem witness_arrows (p : Phase) (a : VpAddr) (r : Len) :
    let s := { inside p a r 0 [] with sched := [.engine] }
    s.nextTurn = .engine ∧ s.eng.waiting = false ∧ s.eng.todo = [] ∧ s.eng.phase = p ∧ s.eng.rem = r ∧ s.eng.vp = a :=
  ⟨rfl, rfl, rfl, rfl, rfl, rfl⟩

theorem witness_arrow_guards :
    vpIsOdd 0x92 = false ∧ vpIsOdd 0x93 = true ∧ 4 ≤ (4 : Len).toNat ∧ 1 ≤ (3 : Len).toNat ∧ (3 : Len).toNat ≤ 3 ∧
    1 ≤ (1 : Len).toNat := by decide

theorem witness_placed_word :
    (decodeTableWord 16 0x1B12 = some (.loadLane .l3 0x12) ∧ State.reset.eng.phase = .idle ∧
      State.reset.blocked = false) ∧
    decodeTableWord 8 0x8F = some (.devComplete .write 0b1111) := by decide

/-- A reset that strikes while lanes 3 and 2 are on their way, lane 2 having landed. -/
theorem witness_reset_at_any_time :
    let s := { outstanding 0x8C 0 with sched := [.reset (draw 0b0101)] }
    s.nextTurn = .reset (draw 0b0101) ∧ s.vpm.wf = true ∧ s.hs.req = true ∧ s.par.slotBacked s.hs.addr = true ∧
      laneEnabled s.hs.mask .l2 = true ∧ laneEnabled (draw 0b0101).landed .l2 = true ∧
      laneEnabled (draw 0b0101).landed .l3 = false := by decide

/-- The invariant holds with a transaction outstanding inside a request, and a step leads on from there. -/
theorem witness_invariant :
    let s := { inside .tail 0x92 1 4 [.consume 1] with
      hs := (outstanding 0x88 1).hs, eng := { (inside .tail 0x92 1 4 [.consume 1]).eng with waiting := true } }
    s.Inv ∧ s.hs.req = true ∧ s.eng.phase ≠ .idle ∧ (nextOf (step s)).isSome = true := by decide

/-- For `SetTargetWritesTheThreeFields`, `SetAutoIncrementWritesTheToggle`, `LoadLaneStagesOneByte`,
`ReadLaneReturnsTheStagedByte`, `ReleaseClearsCtrl`, `AcceptedRequestIsLatched` and `ZeroLengthRequestTouchesNothing`:
between requests nothing is outstanding. -/
theorem witness_bus_free : base.hs.req = false ∧ base.eng.phase = .idle ∧
    base.blocked = false ∧ (Lane.l3 ≠ Lane.l0) ∧ (5 : Len) ≠ 0 := by decide

/-- For `WriteTransactionStoresTheEnabledLanes` and `ReadTransactionFillsAllFourLanes`. -/
theorem witness_transactions :
    (0b1100 : Mask) ≠ 0 ∧ base.hs.req = false ∧ base.vpm.wf = true ∧ base.par.slotBacked base.hs.addr = true ∧
      base.par.deviceAcks = true ∧ laneEnabled 0b1100 .l3 = true ∧ laneEnabled 0b1100 .l1 = false := by decide

/-- A write and a read the Device completes. -/
theorem witness_device_completes :
    (transactionLegal .write 0b0010 = true ∧ (outstanding 0x82 1).hs.ctrl = controlStart .write 0b0010) ∧
    (transactionLegal .read 0b1111 = true ∧ (outstanding 0xAF 1).hs.ctrl = controlStart .read 0b1111) ∧
    (outstanding 0x82 1).vpm.wf = true ∧ (outstanding 0x82 1).par.slotBacked (outstanding 0x82 1).hs.addr = true ∧
    (outstanding 0x82 1).par.deviceAcks = true ∧ (outstanding 0x82 1).par.acks = none := by decide

/-- Each of the ways to hold: no request, another direction, another mask, the first and the last slot of an unbacked range, no
acknowledgement. -/
theorem witness_device_holds :
    transactionLegal .write 0b1100 = true ∧ base.hs.req = false ∧
    (outstanding 0xAF 1).hs.dir ≠ .write ∧ (outstanding 0x82 1).hs.mask ≠ 0b1100 ∧
    Params.slotBacked ⟨[(0x49, 0x50)], none, .never⟩ 0x49 = false ∧ Params.slotBacked ⟨[(0x40, 0x49)], none, .never⟩ 0x49 = false ∧
    Params.deviceAcks ⟨[], some 0, .never⟩ = false := by decide

/-- A transaction outstanding; the Device's turn changes the registers. -/
theorem witness_outstanding :
    (outstanding 0x8C 0).hs.req = true ∧ (0b1100 : Mask) ≠ 0 ∧
    (nextOf (step (outstanding 0x8C 0))).map (fun t => t.hs.ctrl) = some 0x0C := by decide

theorem witness_busy : (inside .tail 0x92 1 4 []).eng.phase ≠ .idle := by decide

/-- A foreign access, and a register word and an interrupt-mask word presented during a request. -/
theorem witness_foreign :
    ({ base with sched := [.foreign 0x148F] }.nextTurn = .foreign 0x148F) ∧
    (let s := { (inside .tail 0x92 1 4 []).setIssue [.word (.hsev13 0x1400)] with sched := [.present] }
     s.nextTurn = .present ∧ s.eng.phase ≠ .idle ∧ s.port.issue = .word (.hsev13 0x1400) :: []) ∧
    (let s := { (inside .tail 0x92 1 4 []).setIssue [.word (.ieev1 1)] with sched := [.present] }
     s.nextTurn = .present ∧ s.eng.phase ≠ .idle ∧ s.port.issue = .word (.ieev1 1) :: []) := by decide

/-- The phase changes: at a reset, at an acceptance, and on an arrow. -/
theorem witness_phase_arrows :
    (let s := { inside .tail 0x92 1 4 [] with sched := [.reset (draw 0)] }
     s.Inv ∧ (nextOf (step s)).map (fun t => t.eng.phase) = some .idle) ∧
    (let s := base.setIssue [.word (.req33 0x000930009)]
     s.Inv ∧ (nextOf (step s)).map (fun t => t.eng.phase) = some .addressSet) ∧
    (let s := inside .partialHead 0x93 4 2 []
     s.Inv ∧ (nextOf (step s)).map (fun t => t.eng.phase) = some .bulkLoop) :=
  ⟨by decide, by decide, by decide⟩

/-- A step inside a request that changes `idx` and `rem`. -/
theorem witness_request_in_progress :
    let s := inside .tail 0x92 1 4 [.consume 1]
    s.eng.phase ≠ .idle ∧ (nextOf (step s)).map (fun t => (t.eng.phase, t.eng.idx, t.eng.rem)) = some (.tail, 5, 0) := by
  decide

/-- `IE` changes: by the host program, by an operation from the ports, and at the end of a request. -/
theorem witness_interrupt_enable :
    (let s := { base with sched := [.hostIe false] }
     s.Inv ∧ (nextOf (step s)).map (fun t => t.host.ie) = some false) ∧
    (let s := base.setIssue [.word (.ieev1 0)]
     s.Inv ∧ (nextOf (step s)).map (fun t => t.host.ie) = some false) ∧
    (let s := inside .released 0x92 0 5 [.finish]
     s.Inv ∧ s.host.ie = false ∧ (nextOf (step s)).map (fun t => (t.host.ie, t.eng.phase)) = some (true, .idle)) :=
  ⟨by decide, by decide, by decide⟩

/-- A handler's turn with `IE = 0`, inside a request, and with `IE = 1` and its source pending. -/
theorem witness_handler :
    (let s := { inside .tail 0x92 1 4 [] with sched := [.handle .tickTimer 9] }
     s.nextTurn = .handle .tickTimer 9 ∧ s.host.ie = false ∧ s.Inv ∧ s.eng.phase ≠ .idle) ∧
    (let s := { base with sched := [.handle .tickTimer 9], host := { base.host with pending := [.tickTimer] } }
     s.nextTurn = .handle .tickTimer 9 ∧ s.host.ie = true ∧ IrqSource.tickTimer ∈ s.host.pending) := by decide

/-- A source that is not yet pending, and one that is, its further firing remembered or not. -/
theorem witness_fired :
    { base with sched := [.fire .rtcSecond true] }.nextTurn = .fire .rtcSecond true ∧ IrqSource.rtcSecond ∉ base.host.pending ∧
    (let s := { base with sched := [.fire .tickTimer false], host := { base.host with pending := [.tickTimer] } }
     s.nextTurn = .fire .tickTimer false ∧ IrqSource.tickTimer ∈ s.host.pending) := by decide

/-- Each of the two counters changes in its own handler. -/
theorem witness_counters :
    (let s := { base with sched := [.handle .tickTimer 9], host := { base.host with pending := [.tickTimer] } }
     (nextOf (step s)).map (fun t => (t.host.tick, t.host.rtc)) = some (9, 0)) ∧
    (let s := { base with sched := [.handle .rtcSecond 7], host := { base.host with pending := [.rtcSecond] } }
     (nextOf (step s)).map (fun t => (t.host.tick, t.host.rtc)) = some (0, 7)) := by decide

/-- Memory changes by the Device, by the Environment writer and at a reset. -/
theorem witness_memory_writers :
    ((nextOf (step (outstanding 0x88 0))).map (fun t => decide (t.vpm = vpm49)) = some false) ∧
    ((nextOf (step { base with sched := [.env 0x49 0b0001 ⟨0, 0, 0, 9⟩] })).map (fun t => t.vpm) =
      some [(0x125, 1), (0x126, 2), (0x127, 9)]) ∧
    ((nextOf (step { outstanding 0x88 0 with sched := [.reset (draw 0b1000)] })).map (fun t => t.vpm.read 0x124) =
      some 0xA0) := by decide

/-- The handshake registers change by the Engine, by the Device, by a word from the ports and at a reset. -/
theorem witness_register_owners :
    ((nextOf (step (inside .tail 0x92 1 4 [.stage .l3 0]))).map (fun t => t.hs.lanes.b3) = some 0xB4) ∧
    ((nextOf (step (outstanding 0x8C 0))).map (fun t => t.hs.ctrl) = some 0x0C) ∧
    ((nextOf (step (base.setIssue [.word (.hsev13 0x1301)]))).map (fun t => t.hs.autoInc) = some 1) ∧
    ((nextOf (step { base with sched := [.reset (draw 0)] })).map (fun t => t.hs.addrL) = some 3) := by decide

/-- The Environment writer's turn between transactions and during one. -/
theorem witness_environment :
    (let s := { base with sched := [.env 0x49 0b1000 ⟨9, 9, 9, 9⟩] }
     s.nextTurn = .env 0x49 0b1000 ⟨9, 9, 9, 9⟩ ∧ s.vpm.wf = true ∧ s.hs.req = false ∧ s.par.slotBacked 0x49 = true ∧
       laneEnabled 0b1000 .l3 = true ∧ laneEnabled 0b1000 .l2 = false) ∧
    (let s := { outstanding 0x8C 0 with sched := [.env 0x49 0b1000 ⟨9, 9, 9, 9⟩] }
     s.nextTurn = .env 0x49 0b1000 ⟨9, 9, 9, 9⟩ ∧ s.hs.req = true ∧ s.envAllowed = false) ∧
    base.par.envWrites = .betweenTransactions := by decide

/-- The buffer changes: set between requests, and by an extraction of a read request; a buffer item inside a request. -/
theorem witness_buffer_owners :
    (let s := base.setIssue [.buffer (some [1])]
     s.Inv ∧ s.nextTurn = .present ∧ s.eng.phase = .idle ∧ s.port.issue = .buffer (some [1]) :: [] ∧ s.buf ≠ some [1]) ∧
    (let i := inside .tail 0x92 1 4 [.extract .l3 0, .consume 1]
     let s := { i with eng := { i.eng with op := .read } }
     s.Inv ∧ (nextOf (step s)).map (fun t => t.buf) = some (some [0xB0, 0xB1, 0xB2, 0xB3, 0xA0])) ∧
    (let s := { (inside .tail 0x92 1 4 []).setIssue [.buffer none] with sched := [.present] }
     s.nextTurn = .present ∧ s.port.issue = .buffer none :: [] ∧ s.eng.phase ≠ .idle) := ⟨by decide, by decide, by decide⟩

/-- The other values of `ENV_WRITES`: inside a request, and during a transaction. -/
theorem witness_env_writes :
    { inside .tail 0x92 1 4 [] with par := ⟨[], none, .betweenRequests⟩ }.envAllowed = false ∧
    { base with par := ⟨[], none, .betweenRequests⟩ }.envAllowed = true ∧
    { base with par := ⟨[], none, .never⟩ }.envAllowed = false ∧
    { outstanding 0x8C 0 with par := ⟨[], none, .always⟩ }.envAllowed = true := by decide

/-- P5's end state: the Device has stopped acknowledging. -/
theorem witness_hang :
    let s := { outstanding 0x88 1 with par := ⟨[], some 0, .betweenTransactions⟩ }
    s.hs.req = true ∧ s.eng.waiting = true ∧ s.deviceEnabled = false ∧ s.sched = [] := by decide

theorem witness_parity : vpIsOdd 0x0092 = false ∧ vpIsOdd 0x0093 = true ∧ vpIsOdd 0xFFFF = true := by decide

/-- B3's plans of lengths 2 and 9 from an odd start, and the lanes' order. -/
theorem witness_plan :
    plan 0x0093 2 = [⟨0x49, 0b0011, 0, 2, false⟩] ∧
    (plan 0x0093 9).map Shape.slot = [0x49, 0x4A, 0x4B] ∧ (9 : Len) ≠ 0 ∧
    (plan 0x0092 4).map Shape.slot = [0x49] ∧ maskLanes 0b1110 = [.l3, .l2, .l1] := by decide

/-- Lengths 1 and 2 from an odd start, an even start, and tails of one and of three bytes. -/
theorem witness_masks :
    vpIsOdd 0x0093 = true ∧ vpIsOdd 0x0092 = false ∧ (1 : Len) ≠ 0 ∧ (2 : Len) ≠ 0 ∧
    (tailShapes 0x0092 1).map Shape.lanes = [0b1000] ∧ (tailShapes 0x0093 9).map Shape.lanes = [0b1110] ∧
    (bulkShapes 0x0092 4).map Shape.lanes = [0b1111] := by decide

theorem witness_staged_lanes : headLanes 1 = [.l1] ∧ headLanes 2 = [.l1, .l0] ∧ tailLanes 3 = [.l3, .l2, .l1] := by decide

/-- For `WriteRequestStoresTheBuffer`, `ReadRequestFillsTheBuffer`, `ReadAfterWriteReproducesTheBuffer`,
`RequestIssuesItsPlan`, `RequestRunsUnderTheMask`, `SlotRegisterFollowsTheAddress`: five bytes from an odd address, the buffer exactly covering them. -/
theorem witness_request :
    base.Quiet ∧ (5 : Len) ≠ 0 ∧ base.vpm.wf = true ∧ base.SlotsBacked 0x93 5 ∧
    base.buf = some [0xB0, 0xB1, 0xB2, 0xB3, 0xB4] ∧ (5 : Len).toNat ≤ [0xB0, 0xB1, 0xB2, 0xB3, (0xB4 : Byte)].length :=
  ⟨base_quiet, by decide, by decide, base_backed 0x93 5, rfl, by decide⟩

/-- Buffers that are too short for a request: empty, ending inside a transaction, and ending where one ends. -/
theorem witness_short_buffer :
    base.Quiet ∧ base.vpm.wf = true ∧ base.SlotsBacked 0x92 9 ∧
    base.buf = some [0xB0, 0xB1, 0xB2, 0xB3, 0xB4] ∧ [0xB0, 0xB1, 0xB2, 0xB3, (0xB4 : Byte)].length < (9 : Len).toNat ∧
    { base with buf := some [] }.Quiet ∧ ([] : List Byte).length < (1 : Len).toNat ∧
    (plan 0x92 9).map Shape.first = [0, 4, 8] ∧ (plan 0x93 7).map (fun p => p.first + p.count) = [2, 6, 7] :=
  ⟨base_quiet, by decide, base_backed 0x92 9, rfl, by decide, by decide, by decide, by decide, by decide⟩

/-- A second quiet state with the same memory and buffer and other registers. -/
theorem witness_independence :
    let s := { base with hs := { base.hs with addrL := 7, autoInc := 1, lanes := ⟨0, 0, 0, 0⟩ }, host := State.reset.host }
    s.Quiet ∧ s.vpm = base.vpm ∧ s.buf = base.buf ∧ s.host ≠ base.host := by decide

/-- A null buffer, with the first slot backed and with it unbacked. -/
theorem witness_null_buffer :
    (let s := { base with buf := none }
     s.Quiet ∧ (1 : Len) ≠ 0 ∧ s.buf = none ∧ s.par.slotBacked (slotOfVp 0x93) = true) ∧
    (let s := { base with buf := none, par := ⟨[(0x49, 0x49)], none, .betweenTransactions⟩ }
     s.Quiet ∧ s.buf = none ∧ s.par.slotBacked (slotOfVp 0x93) = false) := by decide

end Sys2Proof.Tests
end

/-! PROOFS. Who writes VP memory: for each agent's turn, once, what it can do to memory, and the two statements about the
writers of memory. -/

namespace Sys2Proof.Machine

/-! ## The Engine and the ports leave memory alone (R40) -/

@[simp] theorem State.leavePhase_vpm (s : State) : s.leavePhase.vpm = s.vpm := by
  rcases s.leavePhase_cases with ⟨-, e⟩ | ⟨-, e⟩ | ⟨-, -, p, q, e, -⟩
  · rw [e]
  · rw [e, State.giveDone_vpm]
  · rw [e, State.enterPhase_vpm]

/-- A line of the sequencer starts transactions but moves no byte of memory: the Device does that (R40). -/
theorem LineStep.vpm_eq {s t : State} {m : Micro} (h : LineStep s m t) : t.vpm = s.vpm := by
  cases m with
  | setSlot => obtain rfl : t = _ := h; rfl
  | nextSlot => obtain rfl : t = _ := h; rfl
  | target => obtain ⟨-, rfl⟩ := h; rfl
  | autoInc on => obtain ⟨-, rfl⟩ := h; rfl
  | stage l off => obtain ⟨-, v, -, rfl⟩ := h; rfl
  | executeWrite k => obtain ⟨-, -, rfl⟩ := h; rfl
  | executeRead => obtain ⟨-, rfl⟩ := h; rfl
  | extract l off => obtain ⟨-, b, -, -, rfl⟩ := h; rfl
  | consume n => obtain rfl : t = _ := h; rfl
  | release => obtain ⟨-, rfl⟩ := h; rfl
  | finish => obtain rfl : t = _ := h; rfl

theorem State.engineTurn_vpm {s t : State} (h : s.engineTurn = .next t) : t.vpm = s.vpm := by
  rcases State.engineTurn_next h with ⟨-, rfl⟩ | ⟨-, -, rfl⟩ | ⟨-, m, rest, -, hl⟩
  · rfl
  · exact s.leavePhase_vpm
  · exact hl.vpm_eq

theorem AcceptStep.vpm_eq {s t : State} {d : Dir} {a : VpAddr} {l : Len} (h : AcceptStep s d a l t) :
    t.vpm = s.vpm := by
  obtain ⟨-, ⟨-, rfl⟩ | ⟨-, -, rfl⟩ | ⟨-, -, rfl⟩⟩ := h <;> rfl

/-- Of the thirteen operations only `DEV_COMPLETE` can write memory. -/
theorem ExecStep.vpm_eq {s t : State} {i : Instr} (h : ExecStep s i t) (hi : ∀ d m, i ≠ .devComplete d m) :
    t.vpm = s.vpm := by
  cases i with
  | vpWrite a l => exact AcceptStep.vpm_eq h
  | vpRead a l => exact AcceptStep.vpm_eq h
  | setTarget a => obtain ⟨-, rfl⟩ := h; rfl
  | setAutoIncrement on => obtain ⟨-, rfl⟩ := h; rfl
  | loadLane l v => obtain ⟨-, rfl⟩ := h; rfl
  | readLane l => obtain ⟨-, rfl⟩ := h; rfl
  | executeWrite m => obtain ⟨-, -, rfl⟩ := h; rfl
  | executeRead => obtain ⟨-, rfl⟩ := h; rfl
  | pollCtrl => obtain rfl : t = _ := h; rfl
  | devComplete d m => exact absurd rfl (hi d m)
  | release => obtain ⟨-, rfl⟩ := h; rfl
  | irqMask => obtain rfl : t = _ := h; rfl
  | irqRestore => obtain rfl : t = _ := h; rfl

theorem State.presentTurn_vpm {s t : State} (h : s.presentTurn = .next t) : t.vpm = s.vpm := by
  rcases State.presentTurn_next h with rfl | ⟨-, b, rest, -, rfl⟩ | ⟨-, i, q, -, hi, he⟩
  · rfl
  · rfl
  · exact (exec_next he).vpm_eq hi

/-! ## The host leaves memory alone (R235) -/

@[simp] theorem State.fireTurn_vpm (s : State) (src : IrqSource) (keep : Bool) : (s.fireTurn src keep).vpm = s.vpm := by
  unfold State.fireTurn; split <;> rfl

@[simp] theorem State.handleTurn_vpm (s : State) (src : IrqSource) (v : Nat) : (s.handleTurn src v).vpm = s.vpm := by
  unfold State.handleTurn; split <;> rfl

@[simp] theorem State.hostIeTurn_vpm (s : State) (b : Bool) : (s.hostIeTurn b).vpm = s.vpm := by
  unfold State.hostIeTurn; split <;> rfl

/-! ## The Device (R137) -/

/-- Completion clears `CTRL.REQ`, whatever the direction. -/
@[simp] theorem State.complete_req (s : State) : s.complete.hs.req = false := by
  cases hd : s.hs.dir with
  | write => rw [State.complete_write hd]; exact req_done s.hs s.hs.ctrl
  | read => rw [State.complete_read hd]; exact req_done s.hs s.hs.ctrl

theorem State.complete_vpm_of_read {s : State} (h : s.hs.dir = .read) : s.complete.vpm = s.vpm := by
  rw [State.complete_read h]

/-- An enabled Device has a transaction outstanding. -/
theorem State.req_of_deviceEnabled {s : State} (h : s.deviceEnabled = true) : s.hs.req = true := by
  simp only [State.deviceEnabled, Bool.and_eq_true] at h
  exact h.1.1

/-- The Device's turn writes memory only where it completes a write transaction. -/
theorem State.deviceTurn_vpm_ne {s t : State} (h : s.deviceTurn = .next t) (hv : t.vpm ≠ s.vpm) :
    s.hs.req = true ∧ s.hs.dir = .write ∧ t.hs.req = false := by
  rcases State.deviceTurn_next h with ⟨he, -, rfl⟩ | rfl
  · cases hd : s.hs.dir with
    | write => exact ⟨State.req_of_deviceEnabled he, rfl, s.complete_req⟩
    | read => exact absurd (State.complete_vpm_of_read hd) hv
  · exact absurd rfl hv

/-! ## The Environment writer (R9, R91) -/

theorem State.envAllowed_never {s : State} (h : s.par.envWrites = .never) : s.envAllowed = false := by
  simp [State.envAllowed, h]

theorem State.envAllowed_betweenRequests {s : State} (h : s.par.envWrites = .betweenRequests) :
    s.envAllowed = true ↔ s.eng.phase = .idle ∧ s.hs.req = false := by
  simp [State.envAllowed, h]

theorem State.envAllowed_betweenTransactions {s : State} (h : s.par.envWrites = .betweenTransactions) :
    s.envAllowed = true ↔ s.hs.req = false := by
  simp [State.envAllowed, h]

theorem State.envAllowed_always {s : State} (h : s.par.envWrites = .always) : s.envAllowed = true := by
  simp [State.envAllowed, h]

/-- Whether the writer may act does not depend on the turns to come. -/
@[simp] theorem State.envAllowed_popTurn (s : State) : s.popTurn.envAllowed = s.envAllowed := rfl

theorem State.envTurn_of_allowed {s : State} {a : SlotAddr} {m : Mask} {q : Lanes} (he : s.envAllowed = true)
    (hb : s.par.slotBacked a = true) : s.envTurn a m q = { s with vpm := s.vpm.storeLanes a m q } := by
  simp [State.envTurn, he, hb]

theorem State.envTurn_of_not_allowed {s : State} {a : SlotAddr} {m : Mask} {q : Lanes}
    (h : s.envAllowed = false ∨ s.par.slotBacked a = false) : s.envTurn a m q = s := by
  rcases h with h | h <;> simp [State.envTurn, h]

theorem State.envAllowed_of_envTurn_vpm_ne {s : State} {a : SlotAddr} {m : Mask} {q : Lanes}
    (hv : (s.envTurn a m q).vpm ≠ s.vpm) : s.envAllowed = true := by
  rcases s.envTurn_cases a m q with ⟨he, -, -⟩ | ⟨-, e⟩
  · exact he
  · exact absurd (congrArg State.vpm e) hv

/-- The step at which the Environment writer's turn comes. -/
theorem step_env {s : State} {a : SlotAddr} {m : Mask} {q : Lanes} (h : s.nextTurn = .env a m q) :
    step s = .next (s.popTurn.envTurn a m q) :=
  step_of_turn h

/-! ## Reset (R262) -/

theorem State.req_of_resetMemory_ne {s : State} {landed : Mask} (hv : s.resetMemory landed ≠ s.vpm) :
    s.hs.req = true := by
  cases hr : s.hs.req with
  | true => rfl
  | false => exact absurd (by simp [State.resetMemory, hr]) hv

/-! ## The statements -/

/-- Settles O41, by the turns: the Engine, the ports and the host leave memory as it is, a foreign access is refused, and
for the Device, the Environment writer and a reset the lemmas above give the condition under which the turn writes. -/
theorem memoryHasItsWriters : Obligations.MemoryHasItsWriters := by
  unfold Obligations.MemoryHasItsWriters
  intro s t h hv
  rw [step_of_turn rfl] at h
  generalize s.nextTurn = n at h ⊢
  cases n with
  | engine => exact absurd (State.engineTurn_vpm h) hv
  | present => exact absurd (State.presentTurn_vpm h) hv
  | device => exact .inl ⟨rfl, State.deviceTurn_vpm_ne (s := s.popTurn) h hv⟩
  | env a m q =>
    cases h
    have he : s.envAllowed = true := State.envAllowed_of_envTurn_vpm_ne (s := s.popTurn) hv
    exact .inr (.inl ⟨a, m, q, rfl, he, fun hp => (State.envAllowed_betweenTransactions hp).mp he⟩)
  | fire src keep => cases h; exact absurd (State.fireTurn_vpm _ _ _) hv
  | handle src v => cases h; exact absurd (State.handleTurn_vpm _ _ _) hv
  | hostIe b => cases h; exact absurd (State.hostIeTurn_vpm _ _) hv
  | foreign w => cases h
  | reset d =>
    cases h
    exact .inr (.inr ⟨d, rfl, State.req_of_resetMemory_ne (s := s.popTurn) hv⟩)

/-- Settles O44: where the writer may act its turn is `Memory.storeLanes`, whose bytes are known by linear address, and
`ENV_WRITES` decides where that is, value by value. -/
theorem environmentWritesWhereItMay : Obligations.EnvironmentWritesWhereItMay := by
  unfold Obligations.EnvironmentWritesWhereItMay
  intro s a m q hn hwf
  refine ⟨fun h => ?_, fun he hb => ⟨s.vpm.storeLanes a m q, ?_, ?_, ?_⟩, State.envAllowed_betweenTransactions,
    State.envAllowed_betweenRequests, State.envAllowed_never, State.envAllowed_always⟩
  · rw [step_env hn, State.envTurn_of_not_allowed (s := s.popTurn) h]
  · rw [step_env hn, State.envTurn_of_allowed (s := s.popTurn) he hb, State.popTurn_vpm]
  · exact fun l hl => Memory.read_storeLanes_enabled hwf a m q l hl
  · exact fun x hx => Memory.read_storeLanes_other hwf a m q x hx

end Sys2Proof.Machine

/-! PROOFS. What each turn leaves alone, said once for each turn, and who changes `IE`, the counters, the handshake
registers, the buffer and the parameters of a request. -/

namespace Sys2Proof.Machine

/-! ## The Device leaves the Engine, the host and the buffer alone (R137) -/

@[simp] theorem State.complete_eng (s : State) : s.complete.eng = s.eng := by
  cases hd : s.hs.dir with
  | write => rw [State.complete_write hd]
  | read => rw [State.complete_read hd]

@[simp] theorem State.complete_host (s : State) : s.complete.host = s.host := by
  cases hd : s.hs.dir with
  | write => rw [State.complete_write hd]
  | read => rw [State.complete_read hd]

@[simp] theorem State.complete_buf (s : State) : s.complete.buf = s.buf := by
  cases hd : s.hs.dir with
  | write => rw [State.complete_write hd]
  | read => rw [State.complete_read hd]

/-- The Device's turn moves data between the registers and memory; the Engine, the host and the buffer are not its own. -/
theorem State.deviceTurn_frame {s t : State} (h : s.deviceTurn = .next t) :
    t.eng = s.eng ∧ t.host = s.host ∧ t.buf = s.buf := by
  rcases State.deviceTurn_next h with ⟨-, -, rfl⟩ | rfl
  · exact ⟨s.complete_eng, s.complete_host, s.complete_buf⟩
  · exact ⟨rfl, rfl, rfl⟩

/-! ## The Environment writer writes memory only (R91) -/

theorem State.envTurn_frame (s : State) (a : SlotAddr) (m : Mask) (q : Lanes) :
    (s.envTurn a m q).eng = s.eng ∧ (s.envTurn a m q).hs = s.hs ∧ (s.envTurn a m q).host = s.host ∧
      (s.envTurn a m q).buf = s.buf := by
  rcases s.envTurn_cases a m q with ⟨-, -, e⟩ | ⟨-, e⟩ <;> rw [e] <;> exact ⟨rfl, rfl, rfl, rfl⟩

/-! ## The host's turns change the host only (R235 to R237) -/

/-- A source that fires changes the pending list only. -/
theorem State.fireTurn_eq (s : State) (src : IrqSource) (keep : Bool) :
    s.fireTurn src keep = { s with host := { s.host with pending :=
      if keep = false ∧ src ∈ s.host.pending then s.host.pending else s.host.pending ++ [src] } } := by
  unfold State.fireTurn
  by_cases hc : keep = false ∧ src ∈ s.host.pending
  · rw [if_pos hc, if_pos (by simpa using hc)]
  · rw [if_neg hc, if_neg (by simpa using hc)]

/-- A handler's turn runs the handler, with `IE = 1` and its source pending, or does nothing (R237). -/
theorem State.handleTurn_cases (s : State) (src : IrqSource) (v : Nat) :
    (s.host.ie = true ∧ src ∈ s.host.pending ∧ s.handleTurn src v = { s with host := s.host.handled src v }) ∨
    s.handleTurn src v = s := by
  unfold State.handleTurn
  by_cases hc : s.host.ie = true ∧ src ∈ s.host.pending
  · exact .inl ⟨hc.1, hc.2, if_pos (by simpa using hc)⟩
  · exact .inr (if_neg (by simpa using hc))

/-- A handler runs to its end under the `IE` it was entered with. -/
@[simp] theorem HostSide.handled_ie (h : HostSide) (src : IrqSource) (v : Nat) : (h.handled src v).ie = h.ie := by
  cases src <;> rfl

theorem HostSide.tick_of_handled_ne {h : HostSide} {src : IrqSource} {v : Nat} (hv : (h.handled src v).tick ≠ h.tick) :
    src = .tickTimer := by
  cases src with
  | tickTimer => rfl
  | rtcSecond => exact absurd rfl hv
  | serialReceive => exact absurd rfl hv

theorem HostSide.rtc_of_handled_ne {h : HostSide} {src : IrqSource} {v : Nat} (hv : (h.handled src v).rtc ≠ h.rtc) :
    src = .rtcSecond := by
  cases src with
  | tickTimer => exact absurd rfl hv
  | rtcSecond => rfl
  | serialReceive => exact absurd rfl hv

theorem State.handleTurn_frame (s : State) (src : IrqSource) (v : Nat) :
    (s.handleTurn src v).eng = s.eng ∧ (s.handleTurn src v).hs = s.hs ∧ (s.handleTurn src v).buf = s.buf ∧
      (s.handleTurn src v).host.ie = s.host.ie := by
  rcases s.handleTurn_cases src v with ⟨-, -, e⟩ | e
  · rw [e]; exact ⟨rfl, rfl, rfl, s.host.handled_ie src v⟩
  · rw [e]; exact ⟨rfl, rfl, rfl, rfl⟩

/-- The host program's write of `IE` takes effect between requests only (R192). -/
theorem State.hostIeTurn_cases (s : State) (b : Bool) :
    (s.eng.phase = .idle ∧ s.hostIeTurn b = { s with host := { s.host with ie := b } }) ∨ s.hostIeTurn b = s := by
  unfold State.hostIeTurn
  by_cases hp : s.eng.phase = .idle
  · exact .inl ⟨hp, if_pos hp⟩
  · exact .inr (if_neg hp)

theorem State.hostIeTurn_frame (s : State) (b : Bool) :
    (s.hostIeTurn b).eng = s.eng ∧ (s.hostIeTurn b).hs = s.hs ∧ (s.hostIeTurn b).buf = s.buf ∧
      (s.hostIeTurn b).host.tick = s.host.tick ∧ (s.hostIeTurn b).host.rtc = s.host.rtc := by
  rcases s.hostIeTurn_cases b with ⟨-, e⟩ | e <;> rw [e] <;> exact ⟨rfl, rfl, rfl, rfl, rfl⟩

/-! ## The end of a phase -/

/-- Leaving a phase changes the Engine's place and counts `done`, nothing else. -/
theorem State.leavePhase_frame (s : State) :
    s.leavePhase.hs = s.hs ∧ s.leavePhase.buf = s.buf ∧ s.leavePhase.host = s.host := by
  rcases s.leavePhase_cases with ⟨-, e⟩ | ⟨-, e⟩ | ⟨-, -, p, q, e, -⟩ <;> rw [e] <;> exact ⟨rfl, rfl, rfl⟩

/-! ## Lines (R170, R180) -/

/-- Two states of the Engine in the same request: its parameters and the saved `IE` are the same, and so is `idx + rem`
(R21, R90). -/
def Engine.SameRequest (e f : Engine) : Prop :=
  f.op = e.op ∧ f.vp = e.vp ∧ f.ieSaved = e.ieSaved ∧ f.idx + f.rem = e.idx + e.rem

theorem Engine.SameRequest.refl (e : Engine) : e.SameRequest e := ⟨rfl, rfl, rfl, rfl⟩

/-- What `consume` takes off `rem` it adds to `idx`. -/
theorem State.consume_sameRequest (s : State) (n : Nat) : s.eng.SameRequest (s.consume n).eng := by
  refine ⟨rfl, rfl, rfl, ?_⟩
  simp only [State.consume_eng]
  ring

/-- Every line but the last one of a request leaves the request, its phase and the host as they are: the host is touched by
the `IRQ_RESTORE` of the last one only (R199). -/
theorem LineStep.frame {s t : State} {m : Micro} (h : LineStep s m t) (hm : m ≠ .finish) :
    s.eng.SameRequest t.eng ∧ t.eng.phase = s.eng.phase ∧ t.host = s.host := by
  have same : s.eng.SameRequest s.eng := .refl _
  cases m with
  | setSlot => obtain rfl : t = _ := h; exact ⟨same, rfl, rfl⟩
  | nextSlot => obtain rfl : t = _ := h; exact ⟨same, rfl, rfl⟩
  | target => obtain ⟨-, rfl⟩ := h; exact ⟨same, rfl, rfl⟩
  | autoInc on => obtain ⟨-, rfl⟩ := h; exact ⟨same, rfl, rfl⟩
  | stage l off => obtain ⟨-, v, -, rfl⟩ := h; exact ⟨same, rfl, rfl⟩
  | executeWrite k => obtain ⟨-, -, rfl⟩ := h; exact ⟨same, rfl, rfl⟩
  | executeRead => obtain ⟨-, rfl⟩ := h; exact ⟨same, rfl, rfl⟩
  | extract l off => obtain ⟨-, b, -, -, rfl⟩ := h; exact ⟨same, rfl, rfl⟩
  | consume n => obtain rfl : t = _ := h; exact ⟨s.consume_sameRequest n, rfl, rfl⟩
  | release => obtain ⟨-, rfl⟩ := h; exact ⟨same, rfl, rfl⟩
  | finish => exact absurd rfl hm

/-- Only an extraction writes the buffer (R181). -/
theorem LineStep.buf_eq {s t : State} {m : Micro} (h : LineStep s m t) (hm : m.extracts = none) : t.buf = s.buf := by
  cases m with
  | setSlot => obtain rfl : t = _ := h; rfl
  | nextSlot => obtain rfl : t = _ := h; rfl
  | target => obtain ⟨-, rfl⟩ := h; rfl
  | autoInc on => obtain ⟨-, rfl⟩ := h; rfl
  | stage l off => obtain ⟨-, v, -, rfl⟩ := h; rfl
  | executeWrite k => obtain ⟨-, -, rfl⟩ := h; rfl
  | executeRead => obtain ⟨-, rfl⟩ := h; rfl
  | extract l off => exact absurd hm (by simp [Micro.extracts])
  | consume n => obtain rfl : t = _ := h; rfl
  | release => obtain ⟨-, rfl⟩ := h; rfl
  | finish => obtain rfl : t = _ := h; rfl

/-- A line that ends a request ends it in `Idle` with the saved `IE`. -/
theorem LineStep.of_finish {s t : State} (h : LineStep s .finish t) :
    t.eng.phase = .idle ∧ t.host = { s.host with ie := s.eng.ieSaved } := by
  obtain rfl : t = _ := h
  exact ⟨rfl, rfl⟩

/-! ## Operations -/

/-- What acceptance and the interrupt-mask operations may change of the host: `IE`. -/
def HostSide.SameButIe (h k : HostSide) : Prop := k.pending = h.pending ∧ k.tick = h.tick ∧ k.rtc = h.rtc

/-- No operation writes the buffer by itself, and of the host none changes anything but `IE`. -/
theorem ExecStep.frame {s t : State} {i : Instr} (h : ExecStep s i t) : t.buf = s.buf ∧ s.host.SameButIe t.host := by
  have same : ∀ {u : State}, u.host = s.host → s.host.SameButIe u.host := fun e => e ▸ ⟨rfl, rfl, rfl⟩
  have accepted : ∀ {d a l}, AcceptStep s d a l t → t.buf = s.buf ∧ s.host.SameButIe t.host := by
    rintro d a l ⟨-, ⟨-, rfl⟩ | ⟨-, -, rfl⟩ | ⟨-, -, rfl⟩⟩ <;> exact ⟨rfl, rfl, rfl, rfl⟩
  cases i with
  | vpWrite a l => exact accepted h
  | vpRead a l => exact accepted h
  | setTarget a => obtain ⟨-, rfl⟩ := h; exact ⟨rfl, same rfl⟩
  | setAutoIncrement on => obtain ⟨-, rfl⟩ := h; exact ⟨rfl, same rfl⟩
  | loadLane l v => obtain ⟨-, rfl⟩ := h; exact ⟨rfl, same rfl⟩
  | readLane l => obtain ⟨-, rfl⟩ := h; exact ⟨rfl, same rfl⟩
  | executeWrite m => obtain ⟨-, -, rfl⟩ := h; exact ⟨rfl, same rfl⟩
  | executeRead => obtain ⟨-, rfl⟩ := h; exact ⟨rfl, same rfl⟩
  | pollCtrl => obtain rfl : t = _ := h; exact ⟨rfl, same rfl⟩
  | devComplete d m =>
    obtain ⟨-, ⟨-, -, -, rfl⟩ | ⟨-, rfl⟩⟩ := h
    · exact ⟨s.complete_buf, same s.complete_host⟩
    · exact ⟨rfl, same rfl⟩
  | release => obtain ⟨-, rfl⟩ := h; exact ⟨rfl, same rfl⟩
  | irqMask => obtain rfl : t = _ := h; exact ⟨rfl, rfl, rfl, rfl⟩
  | irqRestore => obtain rfl : t = _ := h; exact ⟨rfl, rfl, rfl, rfl⟩

/-! ## The Engine's turn -/

/-- The Engine's turn changes of the host at most `IE`, and that only by the line that ends a request. -/
theorem State.engineTurn_host {s t : State} (h : s.engineTurn = .next t) :
    t.host = s.host ∨ (.finish ∈ s.eng.todo ∧ t.eng.phase = .idle ∧ t.host = { s.host with ie := s.eng.ieSaved }) := by
  rcases State.engineTurn_next h with ⟨-, rfl⟩ | ⟨-, -, rfl⟩ | ⟨-, m, rest, hq, hl⟩
  · exact .inl rfl
  · exact .inl s.leavePhase_frame.2.2
  · by_cases hm : m = .finish
    · subst hm
      obtain ⟨hp, hh⟩ := hl.of_finish
      exact .inr ⟨hq ▸ List.mem_cons_self, hp, hh⟩
    · exact .inl (hl.frame hm).2.2

/-- The Engine's turn writes the buffer only by the extraction it has in front (R181). -/
theorem State.engineTurn_buf {s t : State} (h : s.engineTurn = .next t) (hb : t.buf ≠ s.buf) :
    ∃ l off rest b, s.eng.todo = .extract l off :: rest ∧ s.buf = some b ∧ s.eng.idx.toNat + off < b.length ∧
      t.buf = some (b.set (s.eng.idx.toNat + off) (s.hs.lanes.get l)) := by
  rcases State.engineTurn_next h with ⟨-, rfl⟩ | ⟨-, -, rfl⟩ | ⟨-, m, rest, hq, hl⟩
  · exact absurd rfl hb
  · exact absurd s.leavePhase_frame.2.1 hb
  · cases m with
    | extract l off =>
      obtain ⟨-, b, hsb, hi, rfl⟩ := hl
      exact ⟨l, off, rest, b, hq, hsb, hi, rfl⟩
    | _ => exact absurd (hl.buf_eq rfl) hb

/-- Inside a request the Engine's turn ends the request or goes on with it. -/
theorem State.engineTurn_sameRequest {s t : State} (h : s.engineTurn = .next t) (ht : t.eng.phase ≠ .idle) :
    s.eng.SameRequest t.eng := by
  rcases State.engineTurn_next h with ⟨-, rfl⟩ | ⟨-, -, rfl⟩ | ⟨-, m, rest, -, hl⟩
  · exact .refl _
  · rcases s.leavePhase_cases with ⟨-, e⟩ | ⟨-, e⟩ | ⟨-, -, p, q, e, -⟩ <;> rw [e] <;> exact .refl _
  · exact (hl.frame fun hm => ht (hm ▸ hl).of_finish.1).1

/-! ## The ports' turn -/

/-- Inside a request a presented item changes nothing (R192). -/
theorem State.presentTurn_busy {s t : State} (h : s.presentTurn = .next t) (hp : s.eng.phase ≠ .idle) : t = s := by
  rcases State.presentTurn_next h with e | ⟨hi, -⟩ | ⟨hi, -⟩
  · exact e
  · exact absurd hi hp
  · exact absurd hi hp

theorem State.presentTurn_host {s t : State} (h : s.presentTurn = .next t) : s.host.SameButIe t.host := by
  rcases State.presentTurn_next h with rfl | ⟨-, b, rest, -, rfl⟩ | ⟨-, i, q, -, -, he⟩
  · exact ⟨rfl, rfl, rfl⟩
  · exact ⟨rfl, rfl, rfl⟩
  · exact (exec_next he).frame.2

/-- The ports' turn changes the buffer only by setting the one in front, between requests. -/
theorem State.presentTurn_buf {s t : State} (h : s.presentTurn = .next t) (hb : t.buf ≠ s.buf) :
    s.eng.phase = .idle ∧ ∃ b rest, s.port.issue = .buffer b :: rest ∧ t.buf = b := by
  rcases State.presentTurn_next h with rfl | ⟨hp, b, rest, hq, rfl⟩ | ⟨-, i, q, -, -, he⟩
  · exact absurd rfl hb
  · exact ⟨hp, b, rest, hq, rfl⟩
  · exact absurd (exec_next he).frame.1 hb

/-- A buffer in front is set between requests and stays at its port inside one. -/
theorem State.presentTurn_buffer {s : State} {b : Option (List Byte)} {rest : List PortItem}
    (hq : s.port.issue = .buffer b :: rest) :
    s.presentTurn = .next (if s.eng.phase = .idle then { s.setIssue rest with buf := b } else s) := by
  unfold State.presentTurn
  rw [hq]
  by_cases hp : s.eng.phase = .idle
  · simp only [if_pos hp]
  · simp only [if_neg hp]

/-! ## The statements about owners -/

/-- Settles O39, by the two cases of the firing: remembered or not. -/
theorem firedSourceBecomesPending : Obligations.FiredSourceBecomesPending := by
  unfold Obligations.FiredSourceBecomesPending
  intro s src keep hn
  refine ⟨if keep = false ∧ src ∈ s.host.pending then s.host.pending else s.host.pending ++ [src], ?_, ?_, ?_, ?_⟩
  · rw [step_of_turn hn]
    exact congrArg _ (s.popTurn.fireTurn_eq src keep)
  · split
    · next hc => exact hc.2
    · exact List.mem_append_right _ List.mem_cons_self
  · exact fun hs hk => if_pos ⟨hk, hs⟩
  · intro h
    refine if_neg ?_
    rintro ⟨hk, hs⟩
    rcases h with h | h
    · exact h hs
    · rw [hk] at h; cases h

/-- Settles O36, by the turns: only the Engine's changes the Engine's registers inside a request and leaves it there. -/
theorem requestInProgressKeepsItsParameters : Obligations.RequestInProgressKeepsItsParameters := by
  unfold Obligations.RequestInProgressKeepsItsParameters
  intro s t hp h ht
  show s.eng.SameRequest t.eng
  rw [step_of_turn rfl] at h
  generalize s.nextTurn = n at h
  have same : t.eng = s.eng → s.eng.SameRequest t.eng := fun e => e ▸ .refl _
  cases n with
  | engine => exact State.engineTurn_sameRequest (s := s.popTurn) h ht
  | device => exact same (State.deviceTurn_frame h).1
  | present => exact same (by rw [State.presentTurn_busy h hp]; rfl)
  | env a m q => cases h; exact same (s.popTurn.envTurn_frame a m q).1
  | fire src keep => cases h; exact same (by rw [State.fireTurn_eq]; rfl)
  | handle src v => cases h; exact same (s.popTurn.handleTurn_frame src v).1
  | hostIe b => cases h; exact same (s.popTurn.hostIeTurn_frame b).1
  | foreign w => cases h
  | reset d => cases h; exact absurd rfl ht

/-- Settles O40, by the turns: an operation changes of the host at most `IE`, and a handler its own counter. -/
theorem countersChangeOnlyInHandlers : Obligations.CountersChangeOnlyInHandlers := by
  unfold Obligations.CountersChangeOnlyInHandlers
  intro s t h
  rw [step_of_turn rfl] at h
  generalize s.nextTurn = n at h ⊢
  have keeps : t.host.tick = s.host.tick → t.host.rtc = s.host.rtc →
      (t.host.tick ≠ s.host.tick → ∃ v, n = .handle .tickTimer v ∧ s.host.ie = true) ∧
      (t.host.rtc ≠ s.host.rtc → ∃ v, n = .handle .rtcSecond v ∧ s.host.ie = true) :=
    fun ht hr => ⟨fun c => absurd ht c, fun c => absurd hr c⟩
  have same : t.host = s.host → _ := fun e => keeps (e ▸ rfl) (e ▸ rfl)
  cases n with
  | engine =>
    rcases State.engineTurn_host h with e | ⟨-, -, e⟩ <;> exact keeps (by rw [e]; rfl) (by rw [e]; rfl)
  | device => exact same (State.deviceTurn_frame h).2.1
  | present =>
    obtain ⟨-, ht, hr⟩ := State.presentTurn_host h
    exact keeps ht hr
  | env a m q => cases h; exact same (s.popTurn.envTurn_frame a m q).2.2.1
  | fire src keep => cases h; exact keeps (by rw [State.fireTurn_eq]; rfl) (by rw [State.fireTurn_eq]; rfl)
  | handle src v =>
    cases h
    rcases s.popTurn.handleTurn_cases src v with ⟨hie, -, e⟩ | e
    · refine ⟨fun hc => ⟨v, ?_, hie⟩, fun hc => ⟨v, ?_, hie⟩⟩
      · rw [e] at hc; rw [HostSide.tick_of_handled_ne hc]
      · rw [e] at hc; rw [HostSide.rtc_of_handled_ne hc]
    · exact same (by rw [e]; rfl)
  | hostIe b =>
    cases h
    obtain ⟨-, -, -, ht, hr⟩ := s.popTurn.hostIeTurn_frame b
    exact keeps ht hr
  | foreign w => cases h
  | reset d => cases h; exact keeps rfl rfl

/-- Settles O42, by the turns: the Environment writer and the host leave the registers as they are, and so does a presented
item inside a request. -/
theorem handshakeRegistersHaveTheirOwners : Obligations.HandshakeRegistersHaveTheirOwners := by
  unfold Obligations.HandshakeRegistersHaveTheirOwners
  intro s t h hne
  rw [step_of_turn rfl] at h
  generalize s.nextTurn = n at h ⊢
  cases n with
  | engine => exact .inl rfl
  | device => exact .inr (.inl rfl)
  | present =>
    refine .inr (.inr (.inl ⟨rfl, ?_⟩))
    by_contra hp
    exact hne (by rw [State.presentTurn_busy h hp]; rfl)
  | env a m q => cases h; exact absurd (s.popTurn.envTurn_frame a m q).2.1 hne
  | fire src keep => cases h; exact absurd (by rw [State.fireTurn_eq]; rfl) hne
  | handle src v => cases h; exact absurd (s.popTurn.handleTurn_frame src v).2.1 hne
  | hostIe b => cases h; exact absurd (s.popTurn.hostIeTurn_frame b).2.1 hne
  | foreign w => cases h
  | reset d => exact .inr (.inr (.inr ⟨d, rfl⟩))

/-- Settles O37, by the turns: the Engine's changes `IE` only by the line that ends a request, which the invariant places in
`Released`. -/
theorem interruptEnableHasItsOwners : Obligations.InterruptEnableHasItsOwners := by
  unfold Obligations.InterruptEnableHasItsOwners
  intro s t hinv h hne
  obtain ⟨-, -, -, -, -, -, hfinish, -⟩ := hinv
  rw [step_of_turn rfl] at h
  generalize s.nextTurn = n at h ⊢
  have same : t.host ≠ s.host := fun e => hne (e ▸ rfl)
  cases n with
  | engine =>
    rcases State.engineTurn_host h with e | ⟨hm, hp, e⟩
    · exact absurd e same
    · exact .inr (.inr (.inr ⟨rfl, hfinish hm, hp, by rw [e]; rfl⟩))
  | device => exact absurd (State.deviceTurn_frame h).2.1 same
  | present =>
    refine .inr (.inr (.inl ⟨rfl, ?_⟩))
    by_contra hp
    exact same (by rw [State.presentTurn_busy h hp]; rfl)
  | env a m q => cases h; exact absurd (s.popTurn.envTurn_frame a m q).2.2.1 same
  | fire src keep => cases h; exact absurd (by rw [State.fireTurn_eq]; rfl) hne
  | handle src v => cases h; exact absurd (s.popTurn.handleTurn_frame src v).2.2.2 hne
  | hostIe b => exact .inl ⟨b, rfl⟩
  | foreign w => cases h
  | reset d => exact .inr (.inl ⟨d, rfl⟩)

/-- Settles O43, by the turns: the ports set the buffer between requests, and the Engine writes it by an extraction, which the
invariant places inside a read request. -/
theorem bufferHasItsOwners : Obligations.BufferHasItsOwners := by
  unfold Obligations.BufferHasItsOwners
  constructor
  · intro s t hinv h hne
    obtain ⟨-, -, -, -, -, hidle, -, -, -, -, hread⟩ := hinv
    rw [step_of_turn rfl] at h
    generalize s.nextTurn = n at h ⊢
    cases n with
    | engine =>
      obtain ⟨l, off, rest, b, hq, hb⟩ := State.engineTurn_buf (s := s.popTurn) h hne
      refine .inr ⟨rfl, fun hp => ?_, hread (.extract l off) ?_ rfl, l, off, rest, b, hq, hb⟩
      · exact absurd (hq.symm.trans (hidle hp)) (List.cons_ne_nil _ _)
      · exact hq ▸ List.mem_cons_self
    | device => exact absurd (State.deviceTurn_frame h).2.2 hne
    | present => exact .inl ⟨rfl, State.presentTurn_buf (s := s.popTurn) h hne⟩
    | env a m q => cases h; exact absurd (s.popTurn.envTurn_frame a m q).2.2.2 hne
    | fire src keep => cases h; exact absurd (by rw [State.fireTurn_eq]; rfl) hne
    | handle src v => cases h; exact absurd (s.popTurn.handleTurn_frame src v).2.2.1 hne
    | hostIe b => cases h; exact absurd (s.popTurn.hostIeTurn_frame b).2.2.1 hne
    | foreign w => cases h
    | reset d => cases h; exact absurd rfl hne
  · intro s b rest hn hq
    have hturn : step s = .next _ := (step_of_turn hn).trans (State.presentTurn_buffer (s := s.popTurn) hq)
    exact ⟨fun hp => hturn.trans (congrArg _ (if_pos hp)), fun hp => hturn.trans (congrArg _ (if_neg hp))⟩

end Sys2Proof.Machine

/-! PROOFS. Every step keeps the invariant of a run: its four parts (memory, the bus, `IE` inside a request, the lines of
the phases), each kept by each agent's turn. -/

namespace Sys2Proof.Machine

/-! ## The parts of the invariant -/

/-- The part about `CTRL`: no reserved bit (R32), and an outstanding transaction is none of the reserved ones (R116) and is
waited for (R136). -/
def State.BusInv (s : State) : Prop :=
  s.hs.reservedClear = true ∧ (s.hs.req = true → transactionLegal s.hs.dir s.hs.mask = true ∧ s.eng.waiting = true)

/-- The part about `IE` (R200). -/
def State.MaskedInv (s : State) : Prop := s.eng.phase ≠ .idle → s.host.ie = false

/-- The part about the Engine's place: the lines of each phase are the phase's own (R193, R194, R199), a wait stands in the
phases that have transactions (R231), and only a read request extracts (R34). -/
def Engine.LinesInv (e : Engine) : Prop :=
  (e.phase = .idle → e.todo = []) ∧
  (.finish ∈ e.todo → e.phase = .released) ∧
  (e.phase = .addressSet → e.rem ≠ 0 ∧ ∀ m ∈ e.todo, m ∈ addressSetLines) ∧
  (e.phase = .released → ∀ m ∈ e.todo, m ∈ releasedLines) ∧
  (e.waiting = true → e.phase ≠ .addressSet ∧ e.phase ≠ .released) ∧
  (∀ m ∈ e.todo, m.extracts.isSome = true → e.op = .read)

theorem State.inv_iff (s : State) : s.Inv ↔ s.vpm.wf = true ∧ s.BusInv ∧ s.MaskedInv ∧ s.eng.LinesInv := by
  constructor
  · rintro ⟨hm, hr, hl, hw, hi, hlines⟩
    exact ⟨hm, ⟨hr, fun h => ⟨hl h, hw h⟩⟩, hi, hlines⟩
  · rintro ⟨hm, ⟨hr, hb⟩, hi, hlines⟩
    exact ⟨hm, hr, fun h => (hb h).1, fun h => (hb h).2, hi, hlines⟩

/-! ## The bus -/

/-- The bus part reads `CTRL` and the wait only. -/
theorem State.BusInv.of_ctrl {s t : State} (h : s.BusInv) (hc : t.hs.ctrl = s.hs.ctrl)
    (hw : t.eng.waiting = s.eng.waiting) : t.BusInv := by
  simpa only [State.BusInv, Handshake.reservedClear, Handshake.req, Handshake.dir, Handshake.mask, hc, hw] using h

/-- A transaction that is not reserved starts with the Engine waiting for it. -/
theorem State.busInv_startTransaction (s : State) {d : Dir} {m : Mask} (hl : transactionLegal d m = true) :
    (s.startTransaction d m).BusInv := by
  refine ⟨reservedClear_start s.hs d m, fun _ => ⟨?_, rfl⟩⟩
  rw [State.startTransaction_hs, dir_start, mask_start]
  exact hl

/-- With `CTRL` clear nothing is outstanding. -/
theorem State.busInv_of_ctrl_zero {s : State} (hc : s.hs.ctrl = 0) : s.BusInv := by
  simp only [State.BusInv, Handshake.reservedClear, Handshake.req, hc]
  exact ⟨by decide, fun h => absurd h (by decide)⟩

/-- A poll ends the wait only where it reads `REQ = 0`. -/
theorem State.BusInv.poll {s : State} (h : s.BusInv) :
    ((s.setReadData s.hs.ctrl).setWaiting (s.eng.waiting && s.hs.req)).BusInv := by
  obtain ⟨hc, hb⟩ := h
  exact ⟨hc, fun hr => ⟨(hb hr).1, Bool.and_eq_true_iff.mpr ⟨(hb hr).2, hr⟩⟩⟩

theorem State.complete_ctrl (s : State) : s.complete.hs.ctrl = controlDone s.hs.ctrl := by
  cases hd : s.hs.dir with
  | write => rw [State.complete_write hd]
  | read => rw [State.complete_read hd]

theorem State.BusInv.complete {s : State} (h : s.BusInv) : s.complete.BusInv := by
  refine ⟨?_, fun hr => absurd hr (by simp)⟩
  have hd := reservedClear_done h.1
  simpa only [Handshake.reservedClear, s.complete_ctrl] using hd

theorem transactionLegal_write {m : Mask} (h : m ≠ 0) : transactionLegal .write m = true := by
  simpa [transactionLegal] using h

theorem LineStep.busInv {s t : State} {m : Micro} (h : LineStep s m t) (hb : s.BusInv) : t.BusInv := by
  cases m with
  | setSlot => obtain rfl : t = _ := h; exact hb.of_ctrl rfl rfl
  | nextSlot => obtain rfl : t = _ := h; exact hb.of_ctrl rfl rfl
  | target => obtain ⟨-, rfl⟩ := h; exact hb.of_ctrl rfl rfl
  | autoInc on => obtain ⟨-, rfl⟩ := h; exact hb.of_ctrl rfl rfl
  | stage l off => obtain ⟨-, v, -, rfl⟩ := h; exact hb.of_ctrl rfl rfl
  | executeWrite k => obtain ⟨-, hk, rfl⟩ := h; exact s.busInv_startTransaction (transactionLegal_write hk)
  | executeRead => obtain ⟨-, rfl⟩ := h; exact s.busInv_startTransaction rfl
  | extract l off => obtain ⟨-, b, -, -, rfl⟩ := h; exact hb.of_ctrl rfl rfl
  | consume n => obtain rfl : t = _ := h; exact hb.of_ctrl rfl rfl
  | release => obtain ⟨-, rfl⟩ := h; exact State.busInv_of_ctrl_zero rfl
  | finish => obtain rfl : t = _ := h; exact hb.of_ctrl rfl rfl

theorem ExecStep.busInv {s t : State} {i : Instr} (h : ExecStep s i t) (hb : s.BusInv) : t.BusInv := by
  have accepted : ∀ {d a l}, AcceptStep s d a l t → t.BusInv := by
    rintro d a l ⟨-, ⟨-, rfl⟩ | ⟨-, -, rfl⟩ | ⟨-, -, rfl⟩⟩ <;> exact hb.of_ctrl rfl rfl
  cases i with
  | vpWrite a l => exact accepted h
  | vpRead a l => exact accepted h
  | setTarget a => obtain ⟨-, rfl⟩ := h; exact hb.of_ctrl rfl rfl
  | setAutoIncrement on => obtain ⟨-, rfl⟩ := h; exact hb.of_ctrl rfl rfl
  | loadLane l v => obtain ⟨-, rfl⟩ := h; exact hb.of_ctrl rfl rfl
  | readLane l => obtain ⟨-, rfl⟩ := h; exact hb.of_ctrl rfl rfl
  | executeWrite m => obtain ⟨-, hm, rfl⟩ := h; exact s.busInv_startTransaction (transactionLegal_write hm)
  | executeRead => obtain ⟨-, rfl⟩ := h; exact s.busInv_startTransaction rfl
  | pollCtrl => obtain rfl : t = _ := h; exact hb.poll
  | devComplete d m =>
    obtain ⟨-, ⟨-, -, -, rfl⟩ | ⟨-, rfl⟩⟩ := h
    · exact hb.complete
    · exact hb
  | release => obtain ⟨-, rfl⟩ := h; exact State.busInv_of_ctrl_zero rfl
  | irqMask => obtain rfl : t = _ := h; exact hb.of_ctrl rfl rfl
  | irqRestore => obtain rfl : t = _ := h; exact hb.of_ctrl rfl rfl

/-! ## The lines of the phases -/

theorem Engine.linesInv_of_idle {e : Engine} (hp : e.phase = .idle) (hq : e.todo = []) : e.LinesInv := by
  simp [Engine.LinesInv, hp, hq]

theorem Engine.linesInv_of_accepted {e : Engine} (hp : e.phase = .addressSet) (hq : e.todo = addressSetLines)
    (hr : e.rem ≠ 0) (hw : e.waiting = false) : e.LinesInv := by
  refine ⟨?_, ?_, fun _ => ⟨hr, fun m hm => hq ▸ hm⟩, ?_, ?_, ?_⟩
  all_goals simp [hp, hq, hw, addressSetLines, Micro.extracts]

/-- Taking the front line off leaves the phase's lines its own. -/
theorem Engine.LinesInv.tail {e : Engine} (h : e.LinesInv) : ({ e with todo := e.todo.tail } : Engine).LinesInv := by
  obtain ⟨hidle, hfin, haddr, hrel, hwait, hext⟩ := h
  refine ⟨fun hp => ?_, fun hm => hfin (List.mem_of_mem_tail hm),
    fun hp => ⟨(haddr hp).1, fun m hm => (haddr hp).2 m (List.mem_of_mem_tail hm)⟩,
    fun hp m hm => hrel hp m (List.mem_of_mem_tail hm), hwait, fun m hm => hext m (List.mem_of_mem_tail hm)⟩
  show e.todo.tail = []
  rw [hidle hp]; rfl

/-- A poll may end the wait. -/
theorem Engine.LinesInv.setWaiting {e : Engine} (h : e.LinesInv) {b : Bool} (hb : b = true → e.waiting = true) :
    ({ e with waiting := b } : Engine).LinesInv := by
  obtain ⟨hidle, hfin, haddr, hrel, hwait, hext⟩ := h
  exact ⟨hidle, hfin, haddr, hrel, fun hw => hwait (hb hw), hext⟩

/-- A line that is none of `AddressSet`'s and `Released`'s starts no wait there. -/
theorem Engine.LinesInv.startWaiting {e : Engine} (h : e.LinesInv) (ha : e.phase ≠ .addressSet)
    (hr : e.phase ≠ .released) : ({ e with waiting := true } : Engine).LinesInv := by
  obtain ⟨hidle, hfin, haddr, hrel, -, hext⟩ := h
  exact ⟨hidle, hfin, haddr, hrel, fun _ => ⟨ha, hr⟩, hext⟩

theorem Engine.LinesInv.phase_ne_addressSet {e : Engine} (h : e.LinesInv) {m : Micro} (hm : m ∈ e.todo)
    (hn : m ∉ addressSetLines) : e.phase ≠ .addressSet := by
  obtain ⟨-, -, haddr, -⟩ := h
  exact fun hp => hn ((haddr hp).2 m hm)

theorem Engine.LinesInv.phase_ne_released {e : Engine} (h : e.LinesInv) {m : Micro} (hm : m ∈ e.todo)
    (hn : m ∉ releasedLines) : e.phase ≠ .released := by
  obtain ⟨-, -, -, hrel, -⟩ := h
  exact fun hp => hn (hrel hp m hm)

/-- Outside `AddressSet` the invariant does not read `rem`, and nowhere `idx`. -/
theorem Engine.LinesInv.setCounts {e : Engine} (h : e.LinesInv) (ha : e.phase ≠ .addressSet) (i : BitVec 16) (r : Len) :
    ({ e with idx := i, rem := r } : Engine).LinesInv := by
  obtain ⟨hidle, hfin, -, hrel, hwait, hext⟩ := h
  exact ⟨hidle, hfin, fun hp => absurd hp ha, hrel, hwait, hext⟩

theorem LineStep.linesInv {s t : State} {m : Micro} (h : LineStep s.popLine m t) (hm : m ∈ s.eng.todo)
    (he : s.eng.LinesInv) : t.eng.LinesInv := by
  have started : m ∉ addressSetLines → m ∉ releasedLines → ∀ d k, (s.popLine.startTransaction d k).eng.LinesInv :=
    fun ha hr _ _ => he.tail.startWaiting (he.phase_ne_addressSet hm ha) (he.phase_ne_released hm hr)
  cases m with
  | setSlot => obtain rfl : t = _ := h; exact he.tail
  | nextSlot => obtain rfl : t = _ := h; exact he.tail
  | target => obtain ⟨-, rfl⟩ := h; exact he.tail
  | autoInc on => obtain ⟨-, rfl⟩ := h; exact he.tail
  | stage l off => obtain ⟨-, v, -, rfl⟩ := h; exact he.tail
  | executeWrite k => obtain ⟨-, -, rfl⟩ := h; exact started (by simp [addressSetLines]) (by simp [releasedLines]) _ _
  | executeRead => obtain ⟨-, rfl⟩ := h; exact started (by simp [addressSetLines]) (by simp [releasedLines]) _ _
  | extract l off => obtain ⟨-, b, -, -, rfl⟩ := h; exact he.tail
  | consume n =>
    obtain rfl : t = _ := h
    exact he.tail.setCounts (he.phase_ne_addressSet hm (by simp [addressSetLines])) _ _
  | release => obtain ⟨-, rfl⟩ := h; exact he.tail
  | finish => obtain rfl : t = _ := h; exact Engine.linesInv_of_idle rfl rfl

/-! ## Phase changes (R193) -/

/-- The lines with which a phase after `AddressSet` is entered, in a request of direction `d`. -/
def PassLines (d : Dir) : Phase → List Micro → Prop
  | .partialHead, q => ∃ n, q = headLines d n
  | .bulkLoop, q => q = bulkLines d ∨ q = .autoInc true :: bulkLines d
  | .tail, q => ∃ n, q = tailLines d n
  | .released, q => q = releasedLines
  | _, _ => False

theorem State.enterByRem_pass (s : State) : ∃ p q, s.enterByRem = s.enterPhase p q ∧ PassLines s.eng.op p q := by
  unfold State.enterByRem
  split
  · refine ⟨_, _, rfl, ?_⟩
    split
    · exact .inl rfl
    · exact .inr rfl
  · split
    · exact ⟨_, _, rfl, rfl⟩
    · exact ⟨_, _, rfl, _, rfl⟩

/-- Leaving a phase: nothing between requests, the end of the request, or a phase entered with its own lines. -/
theorem State.leavePhase_pass (s : State) :
    (s.eng.phase = .idle ∧ s.leavePhase = s) ∨ (s.eng.phase = .released ∧ s.leavePhase = s.giveDone) ∨
    (s.eng.phase ≠ .idle ∧ ∃ p q, s.leavePhase = s.enterPhase p q ∧ PassLines s.eng.op p q) := by
  unfold State.leavePhase
  split
  · next hp => exact .inl ⟨hp, rfl⟩
  · next hp =>
    refine .inr (.inr ⟨by simp [hp], ?_⟩)
    split
    · exact ⟨_, _, rfl, _, rfl⟩
    · exact s.enterByRem_pass
  · next hp => exact .inr (.inr ⟨by simp [hp], s.enterByRem_pass⟩)
  · next hp => exact .inr (.inr ⟨by simp [hp], s.enterByRem_pass⟩)
  · next hp => exact .inr (.inr ⟨by simp [hp], _, _, rfl, rfl⟩)
  · next hp => exact .inr (.inl ⟨hp, rfl⟩)

/-- The lines of a pass end the request only in `Released`, and extract only in a read request. -/
theorem PassLines.lines {d : Dir} {p : Phase} {q : List Micro} (h : PassLines d p q) :
    p ≠ .idle ∧ p ≠ .addressSet ∧ (.finish ∈ q → p = .released) ∧ (p = .released → q = releasedLines) ∧
      ∀ m ∈ q, m.extracts.isSome = true → d = .read := by
  cases p with
  | idle => exact h.elim
  | addressSet => exact h.elim
  | partialHead =>
    obtain ⟨n, rfl⟩ := h
    exact ⟨nofun, nofun, fun hf => absurd hf (finish_not_mem d n).1, nofun,
      fun m hm he => read_of_extracts (n := n) (by simp [hm]) he⟩
  | bulkLoop =>
    have hq : ∀ m ∈ q, m = .autoInc true ∨ m ∈ bulkLines d := by
      rcases h with rfl | rfl
      · exact fun m hm => .inr hm
      · exact fun m hm => List.mem_cons.mp hm
    refine ⟨nofun, nofun, fun hf => ?_, nofun, fun m hm he => ?_⟩
    · exact absurd ((hq _ hf).resolve_left nofun) (finish_not_mem d 0).2.1
    · rcases hq m hm with rfl | hm
      · exact absurd he (by simp [Micro.extracts])
      · exact read_of_extracts (n := 0) (by simp [hm]) he
  | tail =>
    obtain ⟨n, rfl⟩ := h
    exact ⟨nofun, nofun, fun hf => absurd hf (finish_not_mem d n).2.2, nofun,
      fun m hm he => read_of_extracts (n := n) (by simp [hm]) he⟩
  | released =>
    obtain rfl : q = _ := h
    refine ⟨nofun, nofun, fun _ => rfl, fun _ => rfl, fun m hm he => ?_⟩
    simp only [releasedLines, List.mem_cons, List.not_mem_nil, or_false] at hm
    rcases hm with rfl | rfl <;> exact absurd he (by simp [Micro.extracts])

theorem Engine.linesInv_of_pass {e : Engine} (h : PassLines e.op e.phase e.todo) (hw : e.waiting = false) : e.LinesInv := by
  obtain ⟨hi, ha, hf, hr, hx⟩ := h.lines
  exact ⟨fun hp => absurd hp hi, hf, fun hp => absurd hp ha, fun hp m hm => hr hp ▸ hm, by simp [hw], hx⟩

/-- Leaving a phase, with no wait on, keeps the invariant. -/
theorem State.Inv.leavePhase {s : State} (h : s.Inv) (hw : s.eng.waiting = false) : s.leavePhase.Inv := by
  obtain ⟨hmem, hbus, hie, hlines⟩ := s.inv_iff.mp h
  refine (State.inv_iff _).mpr ?_
  rcases s.leavePhase_pass with ⟨-, e⟩ | ⟨-, e⟩ | ⟨hp, p, q, e, hpass⟩
  · rw [e]; exact ⟨hmem, hbus, hie, hlines⟩
  · rw [e]; exact ⟨hmem, hbus.of_ctrl rfl rfl, fun c => absurd rfl c, Engine.linesInv_of_idle rfl rfl⟩
  · rw [e]; exact ⟨hmem, hbus.of_ctrl rfl rfl, fun _ => hie hp, Engine.linesInv_of_pass hpass hw⟩

/-! ## The turns -/

theorem State.Inv.line {s t : State} {m : Micro} (h : s.Inv) (hm : m ∈ s.eng.todo) (hl : LineStep s.popLine m t) :
    t.Inv := by
  obtain ⟨hmem, hbus, hie, hlines⟩ := s.inv_iff.mp h
  have hbus' : s.popLine.BusInv := hbus.of_ctrl rfl rfl
  refine t.inv_iff.mpr ⟨by rw [hl.vpm_eq]; exact hmem, hl.busInv hbus', fun hp => ?_, hl.linesInv hm hlines⟩
  have hm' : m ≠ .finish := fun e => hp (e ▸ hl).of_finish.1
  obtain ⟨-, hphase, hhost⟩ := hl.frame hm'
  rw [hhost]
  exact hie (hphase ▸ hp)

theorem State.Inv.engineTurn {s t : State} (h : s.Inv) (ht : s.engineTurn = .next t) : t.Inv := by
  rcases State.engineTurn_next ht with ⟨-, rfl⟩ | ⟨hw, -, rfl⟩ | ⟨-, m, rest, hq, hl⟩
  · obtain ⟨hmem, hbus, hie, hlines⟩ := s.inv_iff.mp h
    exact (State.inv_iff _).mpr ⟨hmem, hbus.poll, hie, hlines.setWaiting fun hb => (Bool.and_eq_true_iff.mp hb).1⟩
  · exact h.leavePhase hw
  · exact h.line (hq ▸ List.mem_cons_self) hl

theorem State.complete_wf {s : State} (h : s.vpm.wf = true) : s.complete.vpm.wf = true := by
  cases hd : s.hs.dir with
  | write => rw [State.complete_write hd]; exact Memory.wf_storeLanes _ _ _ h
  | read => rw [State.complete_vpm_of_read hd]; exact h

theorem State.Inv.deviceTurn {s t : State} (h : s.Inv) (ht : s.deviceTurn = .next t) : t.Inv := by
  obtain ⟨hmem, hbus, hie, hlines⟩ := s.inv_iff.mp h
  rcases State.deviceTurn_next ht with ⟨-, -, rfl⟩ | rfl
  · refine (State.inv_iff _).mpr ⟨State.complete_wf hmem, hbus.complete, ?_, ?_⟩
    · rw [State.MaskedInv, s.complete_eng, s.complete_host]; exact hie
    · rw [s.complete_eng]; exact hlines
  · exact h

/-- Between requests an operation leaves the Engine between requests, or is the acceptance of a request. -/
theorem ExecStep.engine_of_idle {s t : State} {i : Instr} (h : ExecStep s i t) (hp : s.eng.phase = .idle)
    (hq : s.eng.todo = []) :
    (t.eng.phase = .idle ∧ t.eng.todo = []) ∨
    (t.eng.phase = .addressSet ∧ t.eng.todo = addressSetLines ∧ t.eng.rem ≠ 0 ∧ t.eng.waiting = false ∧
      t.host.ie = false) := by
  have accepted : ∀ {d a l}, AcceptStep s d a l t → (t.eng.phase = .idle ∧ t.eng.todo = []) ∨
      (t.eng.phase = .addressSet ∧ t.eng.todo = addressSetLines ∧ t.eng.rem ≠ 0 ∧ t.eng.waiting = false ∧
        t.host.ie = false) := by
    rintro d a l ⟨-, ⟨-, rfl⟩ | ⟨-, -, rfl⟩ | ⟨hb, hl, rfl⟩⟩
    · exact .inl ⟨hp, hq⟩
    · exact .inl ⟨rfl, rfl⟩
    · exact .inr ⟨rfl, rfl, hl, (State.blocked_eq_false.mp hb).1, rfl⟩
  cases i with
  | vpWrite a l => exact accepted h
  | vpRead a l => exact accepted h
  | setTarget a => obtain ⟨-, rfl⟩ := h; exact .inl ⟨hp, hq⟩
  | setAutoIncrement on => obtain ⟨-, rfl⟩ := h; exact .inl ⟨hp, hq⟩
  | loadLane l v => obtain ⟨-, rfl⟩ := h; exact .inl ⟨hp, hq⟩
  | readLane l => obtain ⟨-, rfl⟩ := h; exact .inl ⟨hp, hq⟩
  | executeWrite m => obtain ⟨-, -, rfl⟩ := h; exact .inl ⟨hp, hq⟩
  | executeRead => obtain ⟨-, rfl⟩ := h; exact .inl ⟨hp, hq⟩
  | pollCtrl => obtain rfl : t = _ := h; exact .inl ⟨hp, hq⟩
  | devComplete d m =>
    obtain ⟨-, ⟨-, -, -, rfl⟩ | ⟨-, rfl⟩⟩ := h
    · rw [s.complete_eng]; exact .inl ⟨hp, hq⟩
    · exact .inl ⟨hp, hq⟩
  | release => obtain ⟨-, rfl⟩ := h; exact .inl ⟨hp, hq⟩
  | irqMask => obtain rfl : t = _ := h; exact .inl ⟨hp, hq⟩
  | irqRestore => obtain rfl : t = _ := h; exact .inl ⟨hp, hq⟩

/-- An operation the ports run between requests keeps the invariant. -/
theorem State.Inv.exec_of_idle {s t : State} {i : Instr} (h : s.Inv) (hp : s.eng.phase = .idle)
    (hi : ∀ d m, i ≠ .devComplete d m) (ht : ExecStep s i t) : t.Inv := by
  obtain ⟨hmem, hbus, -, hlines⟩ := s.inv_iff.mp h
  refine t.inv_iff.mpr ⟨by rw [ht.vpm_eq hi]; exact hmem, ht.busInv hbus, ?_⟩
  rcases ht.engine_of_idle hp (hlines.1 hp) with ⟨hp', hq'⟩ | ⟨hp', hq', hr, hw, hie⟩
  · exact ⟨fun c => absurd hp' c, Engine.linesInv_of_idle hp' hq'⟩
  · exact ⟨fun _ => hie, Engine.linesInv_of_accepted hp' hq' hr hw⟩

theorem State.Inv.presentTurn {s t : State} (h : s.Inv) (ht : s.presentTurn = .next t) : t.Inv := by
  rcases State.presentTurn_next ht with rfl | ⟨-, b, rest, -, rfl⟩ | ⟨hp, i, q, -, hi, he⟩
  · exact h
  · exact h
  · have h' : (s.setIssue q).Inv := h
    exact h'.exec_of_idle hp hi (exec_next he)

theorem State.Inv.envTurn {s : State} (h : s.Inv) (a : SlotAddr) (m : Mask) (q : Lanes) : (s.envTurn a m q).Inv := by
  rcases s.envTurn_cases a m q with ⟨-, -, e⟩ | ⟨-, e⟩
  · rw [e]; exact ⟨Memory.wf_storeLanes a m q h.1, h.2⟩
  · rw [e]; exact h

/-- The invariant reads of the host `IE` only. -/
theorem State.Inv.setHost {s : State} (h : s.Inv) {k : HostSide} (hk : s.eng.phase ≠ .idle → k.ie = false) :
    { s with host := k }.Inv := by
  obtain ⟨hmem, hbus, -, hlines⟩ := s.inv_iff.mp h
  exact (State.inv_iff _).mpr ⟨hmem, hbus, hk, hlines⟩

theorem State.Inv.fireTurn {s : State} (h : s.Inv) (src : IrqSource) (keep : Bool) : (s.fireTurn src keep).Inv := by
  rw [State.fireTurn_eq]
  exact h.setHost (s.inv_iff.mp h).2.2.1

theorem State.Inv.handleTurn {s : State} (h : s.Inv) (src : IrqSource) (v : Nat) : (s.handleTurn src v).Inv := by
  rcases s.handleTurn_cases src v with ⟨-, -, e⟩ | e
  · obtain ⟨-, -, hie, -⟩ := s.inv_iff.mp h
    rw [e]
    exact h.setHost fun hp => (s.host.handled_ie src v).trans (hie hp)
  · rw [e]; exact h

theorem State.Inv.hostIeTurn {s : State} (h : s.Inv) (b : Bool) : (s.hostIeTurn b).Inv := by
  rcases s.hostIeTurn_cases b with ⟨hp, e⟩ | e
  · rw [e]; exact h.setHost fun c => absurd hp c
  · rw [e]; exact h

theorem State.resetMemory_wf {s : State} (h : s.vpm.wf = true) (landed : Mask) : (s.resetMemory landed).wf = true := by
  unfold State.resetMemory
  split
  · exact Memory.wf_storeLanes _ _ _ h
  · exact h

/-- A reset makes the invariant true but for memory, which it keeps canonical. -/
theorem State.Inv.resetTurn {s : State} (h : s.Inv) (d : ResetDraw) : (s.resetTurn d).Inv :=
  (State.inv_iff _).mpr
    ⟨State.resetMemory_wf h.1 d.landed, State.busInv_of_ctrl_zero rfl, fun c => absurd rfl c, Engine.linesInv_of_idle rfl rfl⟩

/-- Settles O15, by the turns: each agent's keeps the invariant. -/
theorem stepKeepsTheInvariant : Obligations.StepKeepsTheInvariant := by
  unfold Obligations.StepKeepsTheInvariant
  intro s t hinv h
  rw [step_of_turn rfl] at h
  generalize s.nextTurn = n at h
  have hinv' : s.popTurn.Inv := hinv
  cases n with
  | engine => exact hinv'.engineTurn h
  | device => exact hinv'.deviceTurn h
  | present => exact hinv'.presentTurn h
  | env a m q => cases h; exact hinv'.envTurn a m q
  | fire src keep => cases h; exact hinv'.fireTurn src keep
  | handle src v => cases h; exact hinv'.handleTurn src v
  | hostIe b => cases h; exact hinv'.hostIeTurn b
  | foreign w => cases h
  | reset d => cases h; exact hinv'.resetTurn d

end Sys2Proof.Machine

/-! PROOFS. Runs in which no other agent takes a turn: the schedule is empty, and the block moves by itself (R281). -/

namespace Sys2Proof.Machine

/-! ## Runs and the transactions they issue -/

/-- `n` steps lead from `s` to `t` and start the transactions `D`. -/
def RunIssues (n : Nat) (s : State) (D : List Descriptor) (t : State) : Prop :=
  runN n s = .next t ∧ transactions n s = D

theorem RunIssues.refl (s : State) : RunIssues 0 s [] s := ⟨rfl, rfl⟩

theorem RunIssues.of_step {s t : State} (h : step s = .next t) : RunIssues 1 s (started s t) t := by
  refine ⟨?_, ?_⟩
  · rw [runN_succ, h]; rfl
  · simp only [transactions, h, List.append_nil]

theorem transactions_add {m : Nat} {s t : State} (h : runN m s = .next t) (n : Nat) :
    transactions (m + n) s = transactions m s ++ transactions n t := by
  induction m generalizing s with
  | zero => cases h; simp [transactions]
  | succ m ih =>
    rw [runN_succ] at h
    obtain ⟨u, hu, hrun⟩ := andThen_eq_next.mp h
    rw [show m + 1 + n = (m + n) + 1 by omega]
    simp only [transactions, hu, ih hrun, List.append_assoc]

theorem RunIssues.trans {m n : Nat} {s t u : State} {D E : List Descriptor} (h : RunIssues m s D t)
    (h' : RunIssues n t E u) : RunIssues (m + n) s (D ++ E) u := by
  obtain ⟨hr, ht⟩ := h
  obtain ⟨hr', ht'⟩ := h'
  refine ⟨?_, ?_⟩
  · rw [runN_add, hr]; exact hr'
  · rw [transactions_add hr, ht, ht']

theorem started_of_req {s t : State} (h : s.hs.req = true) : started s t = [] := by simp [started, h]

theorem started_of_not_req {s t : State} (h : t.hs.req = false) : started s t = [] := by simp [started, h]

theorem started_of_start {s t : State} (h : s.hs.req = false) (h' : t.hs.req = true) : started s t = [t.descriptor] := by
  simp [started, h, h']

/-- A step with a transaction already outstanding, or none after it, starts none. -/
theorem RunIssues.of_step_silent {s t : State} (h : step s = .next t) (hr : s.hs.req = true ∨ t.hs.req = false) :
    RunIssues 1 s [] t := by
  have hs := RunIssues.of_step h
  rwa [hr.elim started_of_req started_of_not_req] at hs

/-! ## The block's own turn -/

theorem step_of_sched_nil {s : State} (h : s.sched = []) : step s = s.takeTurn s.ownTurn := by
  have hpop : s.popTurn = s := by
    obtain ⟨eng, hs, vpm, buf, host, par, port, sched⟩ := s
    cases h; rfl
  have hturn : s.nextTurn = s.ownTurn := by simp [State.nextTurn, h]
  rw [step_of_turn hturn, hpop]

/-- With nothing outstanding the Engine moves if it has work. -/
theorem step_engine {s : State} (h : s.sched = []) (hr : s.hs.req = false) (hb : s.engineBusy = true) :
    step s = s.engineTurn := by
  have hturn : s.ownTurn = .engine := by simp [State.ownTurn, State.deviceEnabled, hr, hb]
  rw [step_of_sched_nil h, hturn]; rfl

theorem step_line {s t : State} {m : Micro} {rest : List Micro} (h : s.sched = []) (hr : s.hs.req = false)
    (hw : s.eng.waiting = false) (hq : s.eng.todo = m :: rest) (hl : LineStep s.popLine m t) : step s = .next t := by
  rw [step_engine h hr (by simp [State.engineBusy, hq])]
  simp only [State.engineTurn, hw, hq, Bool.false_eq_true, if_false]
  exact State.line_next.mpr hl

theorem step_leavePhase {s : State} (h : s.sched = []) (hr : s.hs.req = false) (hw : s.eng.waiting = false)
    (hq : s.eng.todo = []) (hp : s.eng.phase ≠ .idle) : step s = .next s.leavePhase := by
  rw [step_engine h hr (by simp [State.engineBusy, hp])]
  simp [State.engineTurn, hw, hq]

/-- The poll that finds the transaction complete. -/
theorem step_lastPoll {s : State} (h : s.sched = []) (hr : s.hs.req = false) (hw : s.eng.waiting = true) :
    step s = .next ((s.setReadData s.hs.ctrl).setWaiting false) := by
  rw [step_engine h hr (by simp [State.engineBusy, hw])]
  simp [State.engineTurn, exec, execPollCtrl, hw, hr]

/-- The Device's turn at a transaction that was started and that it can complete. -/
theorem State.deviceTurn_of_start {s : State} {d : Dir} {m : Mask} (hc : s.hs.ctrl = controlStart d m)
    (hl : transactionLegal d m = true) (he : s.deviceEnabled = true) : s.deviceTurn = .next s.complete := by
  obtain ⟨-, hd, hm, hclear⟩ := fields_of_ctrl hc
  have hres : controlReserved s.hs.ctrl = false := by simpa [Handshake.reservedClear] using hclear
  have hrun : ∀ e, e = d → exec (.devComplete e s.hs.mask) s = .next s.complete := by
    rintro e rfl
    exact execDevComplete_enabled (hm ▸ hl) hd rfl he
  rw [State.deviceTurn_eq, hres, hc, controlHigh_start]
  cases d with
  | write => exact hrun .write rfl
  | read => exact hrun .read rfl

theorem State.complete_sched (s : State) : s.complete.sched = s.sched := by
  cases hd : s.hs.dir with
  | write => rw [State.complete_write hd]
  | read => rw [State.complete_read hd]

/-- A transaction outstanding, with storage behind its slot and a Device that acknowledges, is over two steps later: the
Device's step and the poll that ends the wait. -/
theorem runIssues_complete {s : State} {d : Dir} {m : Mask} (h : s.sched = []) (hc : s.hs.ctrl = controlStart d m)
    (hw : s.eng.waiting = true) (hl : transactionLegal d m = true) (hb : s.par.slotBacked s.hs.addr = true)
    (ha : s.par.acks = none) :
    RunIssues 2 s [] ((s.complete.setReadData s.complete.hs.ctrl).setWaiting false) := by
  have hreq : s.hs.req = true := (fields_of_ctrl hc).1
  have he : s.deviceEnabled = true := by simp [State.deviceEnabled, Params.deviceAcks, hreq, hb, ha]
  have hturn : step s = .next s.complete := by
    have hown : s.ownTurn = .device := if_pos he
    rw [step_of_sched_nil h, hown]
    exact State.deviceTurn_of_start hc hl he
  have hpoll := step_lastPoll (s.complete_sched.trans h) s.complete_req (by rw [s.complete_eng, hw])
  exact (RunIssues.of_step_silent hturn (.inl hreq)).trans (.of_step_silent hpoll (.inr s.complete_req))

/-- A line that starts a transaction leads, three steps later, to the transaction's end. -/
theorem runIssues_transaction {s : State} {line : Micro} {rest : List Micro} {d : Dir} {m : Mask} (h : s.sched = [])
    (hr : s.hs.req = false) (hw : s.eng.waiting = false) (hq : s.eng.todo = line :: rest)
    (hl : LineStep s.popLine line (s.popLine.startTransaction d m)) (hlegal : transactionLegal d m = true)
    (hb : s.par.slotBacked s.hs.addr = true) (ha : s.par.acks = none) :
    ∃ v, RunIssues 3 s [(s.popLine.startTransaction d m).descriptor]
      (((s.popLine.startTransaction d m).complete.setReadData v).setWaiting false) := by
  have hreq : (s.popLine.startTransaction d m).hs.req = true := req_start _ d m
  have hstart := RunIssues.of_step (step_line h hr hw hq hl)
  rw [started_of_start hr hreq] at hstart
  exact ⟨_, hstart.trans (runIssues_complete (s := s.popLine.startTransaction d m) h rfl rfl hlegal hb ha)⟩

end Sys2Proof.Machine

/-! PROOFS. What the runs of one request have in common, whatever the states they start from: `Shared` holds it, and
`Leads` says that every run in such a place gets to the next one in the same number of steps and with the same
transactions. -/

namespace Sys2Proof.Machine

/-! ## The common part of the states of a request -/

/-- What a request has determined of the state so far.  Of the lanes that is those in `known`. -/
structure Shared where
  /-- The Engine, but for `ieSaved`. -/
  eng : Engine
  /-- `HS.ADDR`. -/
  addr : SlotAddr
  /-- `HS.AUTOINC`. -/
  inc : Byte
  /-- The lanes; determined where `known` lists them. -/
  lanes : Lanes
  known : List Lane
  vpm : Memory
  buf : List Byte

/-- A state inside a request, between transactions, that holds what the request has determined and the saved `IE` of its
own; the Device always acknowledges, no other agent is about to act, and the slots in `B` have storage. -/
structure Shows (B : SlotAddr → Prop) (ie : Bool) (c : Shared) (s : State) : Prop where
  eng : s.eng = { c.eng with ieSaved := ie }
  waiting : c.eng.waiting = false
  busy : c.eng.phase ≠ .idle
  addr : s.hs.addr = c.addr
  inc : s.hs.autoInc = c.inc
  lanes : ∀ k ∈ c.known, s.hs.lanes.get k = c.lanes.get k
  req : s.hs.req = false
  vpm : s.vpm = c.vpm
  buf : s.buf = some c.buf
  acks : s.par.acks = none
  backed : ∀ x, B x → s.par.slotBacked x = true
  sched : s.sched = []

/-- Every run that shows `c` shows `c'` after the same number of steps, having started the same transactions. -/
def Leads (B : SlotAddr → Prop) (c c' : Shared) : Prop :=
  ∃ n D, ∀ ie s, Shows B ie c s → ∃ t, RunIssues n s D t ∧ Shows B ie c' t

variable {B : SlotAddr → Prop}

theorem Leads.refl (c : Shared) : Leads B c c := ⟨0, [], fun _ s hs => ⟨s, .refl s, hs⟩⟩

theorem Leads.trans {c c' c'' : Shared} (h : Leads B c c') (h' : Leads B c' c'') : Leads B c c'' := by
  obtain ⟨n, D, h⟩ := h
  obtain ⟨m, E, h'⟩ := h'
  refine ⟨n + m, D ++ E, fun ie s hs => ?_⟩
  obtain ⟨t, hrun, ht⟩ := h ie s hs
  obtain ⟨u, hrun', hu⟩ := h' ie t ht
  exact ⟨u, hrun.trans hrun', hu⟩

/-! ## One line -/

/-- The same place with other lines to carry out. -/
def Shared.goOn (c : Shared) (q : List Micro) : Shared := { c with eng := { c.eng with todo := q } }

/-- What a line that starts no transaction does to what is common. -/
def Carries (B : SlotAddr → Prop) (m : Micro) (c c' : Shared) : Prop :=
  ∀ ie s, Shows B ie c s → ∃ t, LineStep s m t ∧ Shows B ie c' t

theorem Shows.waiting_eq {c : Shared} {ie : Bool} {s : State} (h : Shows B ie c s) : s.eng.waiting = false := by
  rw [h.eng]; exact h.waiting

theorem Shows.todo_eq {c : Shared} {ie : Bool} {s : State} (h : Shows B ie c s) : s.eng.todo = c.eng.todo := by
  rw [h.eng]

theorem Shows.popLine {c : Shared} {m : Micro} {rest : List Micro} {ie : Bool} {s : State}
    (h : Shows B ie (c.goOn (m :: rest)) s) : Shows B ie (c.goOn rest) s.popLine :=
  { h with eng := by rw [State.popLine_eng, h.eng]; rfl }

/-- A line that starts no transaction is one step. -/
theorem Carries.leads {c c' : Shared} {m : Micro} {rest : List Micro} (h : Carries B m (c.goOn rest) c') :
    Leads B (c.goOn (m :: rest)) c' := by
  refine ⟨1, [], fun ie s hs => ?_⟩
  obtain ⟨t, hl, ht⟩ := h ie _ hs.popLine
  exact ⟨t, .of_step_silent (step_line hs.sched hs.req hs.waiting_eq hs.todo_eq hl) (.inr ht.req), ht⟩

/-- The Engine's `slot` register moved on. -/
def Shared.nextSlot (c : Shared) : Shared := { c with eng := { c.eng with slot := c.eng.slot + 1 } }

theorem carries_nextSlot (c : Shared) : Carries B .nextSlot c c.nextSlot :=
  fun _ s h => ⟨s.setSlot (s.eng.slot + 1), rfl, { h with eng := by rw [State.setSlot_eng, h.eng]; rfl }⟩

/-- `HS.ADDR` set to the `slot` register. -/
def Shared.aim (c : Shared) : Shared := { c with addr := c.eng.slot }

theorem carries_target (c : Shared) : Carries B .target c c.aim :=
  fun _ s h => ⟨s.setAddr s.eng.slot, ⟨h.req, rfl⟩,
    { h with addr := by rw [State.setAddr_hs, addr_withAddr, h.eng]; rfl }⟩

/-- Another auto-increment setting. -/
def Shared.withInc (c : Shared) (v : Byte) : Shared := { c with inc := v }

theorem carries_autoInc (c : Shared) (on : Bool) : Carries B (.autoInc on) c (c.withInc (autoIncValue on)) :=
  fun _ s h => ⟨s.setAutoInc (autoIncValue on), ⟨h.req, rfl⟩, { h with inc := rfl }⟩

/-- `idx` and `rem` after `n` bytes. -/
def Shared.consume (c : Shared) (n : Nat) : Shared :=
  { c with eng := { c.eng with idx := c.eng.idx + BitVec.ofNat 16 n, rem := c.eng.rem - BitVec.ofNat 16 n } }

theorem carries_consume (c : Shared) (n : Nat) : Carries B (.consume n) c (c.consume n) :=
  fun _ s h => ⟨s.consume n, rfl, { h with eng := by rw [State.consume_eng, h.eng]; rfl }⟩

/-- Other lanes staged. -/
def Shared.withLanes (c : Shared) (q : Lanes) (kn : List Lane) : Shared := { c with lanes := q, known := kn }

/-- Another buffer. -/
def Shared.withBuf (c : Shared) (b : List Byte) : Shared := { c with buf := b }

/-- The lanes with one more loaded. -/
def Shared.load (c : Shared) (k : Lane) (v : Byte) : Shared :=
  c.withLanes (c.lanes.set k v) (k :: c.known)

theorem carries_stage (c : Shared) (k : Lane) {off : Nat} {v : Byte} (hv : c.buf[c.eng.idx.toNat + off]? = some v) :
    Carries B (.stage k off) c (c.load k v) := by
  intro ie s h
  have hread : s.bufRead (s.bufIndex off) = some v := by
    simp only [State.bufRead, State.bufIndex, h.buf, h.eng, hv]
  refine ⟨s.setLane k v, ⟨h.req, v, hread, rfl⟩, { h with lanes := fun x hx => ?_ }⟩
  show (s.hs.lanes.set k v).get x = (c.lanes.set k v).get x
  rw [Lanes.get_set, Lanes.get_set]
  by_cases hk : x = k
  · rw [if_pos hk, if_pos hk]
  · rw [if_neg hk, if_neg hk]
    exact h.lanes x ((List.mem_cons.mp hx).resolve_left hk)

/-- The buffer with the byte of a lane stored. -/
def Shared.deliver (c : Shared) (k : Lane) (off : Nat) : Shared :=
  c.withBuf (c.buf.set (c.eng.idx.toNat + off) (c.lanes.get k))

@[simp] theorem Shared.length_deliver (c : Shared) (k : Lane) (off : Nat) :
    (c.deliver k off).buf.length = c.buf.length := List.length_set ..

theorem carries_extract (c : Shared) {k : Lane} {off : Nat} (hk : k ∈ c.known)
    (hoff : c.eng.idx.toNat + off < c.buf.length) :
    Carries B (.extract k off) c (c.deliver k off) := by
  intro ie s h
  have hidx : s.bufIndex off = c.eng.idx.toNat + off := by rw [State.bufIndex, h.eng]
  refine ⟨_, ⟨h.req, c.buf, h.buf, hidx ▸ hoff, rfl⟩, { h with buf := ?_ }⟩
  rw [hidx, h.lanes k hk]; rfl

/-! ## One transaction -/

/-- `HS.ADDR` after a transaction: it advances with `AUTOINC[0] = 1` (R26). -/
def Shared.nextAddr (c : Shared) : SlotAddr := if c.inc.getLsbD 0 then c.addr + 1 else c.addr

theorem Shared.nextAddr_of_on {c : Shared} (h : c.inc = autoIncValue true) : c.nextAddr = c.addr + 1 :=
  if_pos (by rw [h]; decide)

theorem Shared.nextAddr_of_off {c : Shared} (h : c.inc = autoIncValue false) : c.nextAddr = c.addr :=
  if_neg (by rw [h]; decide)

/-- Storing lanes reads the enabled ones only. -/
theorem Memory.storeLanes_congr {k : Mask} {q r : Lanes} (h : ∀ x, laneEnabled k x = true → q.get x = r.get x)
    (m : Memory) (a : SlotAddr) : m.storeLanes a k q = m.storeLanes a k r := by
  have hone : ∀ (m : Memory) (x : Lane), m.storeLane a k q x = m.storeLane a k r x := by
    intro m x
    unfold Memory.storeLane
    split
    · next hx => rw [h x hx]
    · rfl
  simp only [Memory.storeLanes, hone]

/-- What a transaction reports of the lanes is the enabled ones. -/
theorem map_maskLanes_congr {k : Mask} {q r : Lanes} (h : ∀ x, laneEnabled k x = true → q.get x = r.get x) :
    (maskLanes k).map q.get = (maskLanes k).map r.get :=
  List.map_congr_left fun x hx => h x (List.mem_filter.mp hx).2

/-- The part of a completed transaction that does not depend on its direction. -/
theorem State.complete_frame (s : State) :
    s.complete.hs.addr = (if s.hs.advances then s.hs.addr + 1 else s.hs.addr) ∧
      s.complete.hs.autoInc = s.hs.autoInc ∧ s.complete.par = s.par.acked := by
  have haddr : ∀ (q : Lanes) (v : Byte),
      ({ (if s.hs.advances then s.hs.withAddr (s.hs.addr + 1) else s.hs) with lanes := q, ctrl := v } : Handshake).addr =
        if s.hs.advances then s.hs.addr + 1 else s.hs.addr := by
    intro q v
    split
    · exact addr_withAddr s.hs (s.hs.addr + 1)
    · rfl
  have hinc : (if s.hs.advances then s.hs.withAddr (s.hs.addr + 1) else s.hs).autoInc = s.hs.autoInc := by
    split <;> rfl
  cases hd : s.hs.dir with
  | write => rw [State.complete_write hd]; exact ⟨haddr _ _, hinc, rfl⟩
  | read => rw [State.complete_read hd]; exact ⟨haddr _ _, hinc, rfl⟩

theorem State.complete_lanes_of_write {s : State} (h : s.hs.dir = .write) : s.complete.hs.lanes = s.hs.lanes := by
  rw [State.complete_write h]
  cases s.hs.advances <;> rfl

theorem State.complete_lanes_of_read {s : State} (h : s.hs.dir = .read) :
    s.complete.hs.lanes = s.vpm.slot s.hs.addr := by
  rw [State.complete_read h]

/-- After a transaction what is common is as before, but for the address, the lanes and memory. -/
theorem Shows.afterTransaction {c : Shared} {ie : Bool} {s u : State} {v : Byte} {q : Lanes} {kn : List Lane} {m : Memory}
    (h : Shows B ie c s) {d : Dir} {k : Mask} (hu : u = (s.startTransaction d k).complete)
    (hlanes : ∀ x ∈ kn, u.hs.lanes.get x = q.get x) (hvpm : u.vpm = m) :
    Shows B ie { c with addr := c.nextAddr, lanes := q, known := kn, vpm := m } ((u.setReadData v).setWaiting false) := by
  obtain ⟨haddr, hinc, hpar⟩ := (s.startTransaction d k).complete_frame
  rw [← hu] at haddr hinc hpar
  have heng : u.eng = { s.eng with waiting := true } := by rw [hu, State.complete_eng]; rfl
  refine
    { eng := ?_, waiting := h.waiting, busy := h.busy, addr := ?_, inc := hinc.trans h.inc, lanes := hlanes,
      req := ?_, vpm := hvpm, buf := ?_, acks := ?_, backed := fun x hx => ?_, sched := ?_ }
  · rw [State.setWaiting_eng, State.setReadData_eng, heng, h.eng, ← h.waiting]
  · refine haddr.trans ?_
    show (if s.hs.autoInc.getLsbD 0 then s.hs.addr + 1 else s.hs.addr) = c.nextAddr
    rw [h.inc, h.addr]; rfl
  · rw [State.setWaiting_hs, State.setReadData_hs, hu, State.complete_req]
  · rw [State.setWaiting_buf, State.setReadData_buf, hu, State.complete_buf]; exact h.buf
  · rw [State.setWaiting_par, State.setReadData_par, hpar]
    show s.par.acks.map _ = none
    rw [h.acks]; rfl
  · rw [State.setWaiting_par, State.setReadData_par, hpar]; exact h.backed x hx
  · rw [State.setWaiting_sched, State.setReadData_sched, hu, State.complete_sched]; exact h.sched

/-- The descriptor of a transaction, by what the registers held when it was started. -/
theorem State.descriptor_of_start (s : State) (d : Dir) (k : Mask) :
    (s.startTransaction d k).descriptor =
      { dir := d, slot := s.hs.addr, mask := k, autoinc := s.hs.advances,
        payload := match d with
          | .write => (maskLanes k).map s.hs.lanes.get
          | .read => s.vpm.slotBytes s.hs.addr } := by
  have hdir : (s.startTransaction d k).hs.dir = d := dir_start _ d k
  have hmask : (s.startTransaction d k).hs.mask = k := mask_start _ d k
  simp only [State.descriptor, hdir, hmask]
  rfl

/-- After a write transaction with mask `k`. -/
def Shared.wrote (c : Shared) (k : Mask) : Shared :=
  { c with addr := c.nextAddr, vpm := c.vpm.storeLanes c.addr k c.lanes }

/-- After a read transaction: all four lanes are known. -/
def Shared.fetched (c : Shared) : Shared :=
  { c with addr := c.nextAddr, lanes := c.vpm.slot c.addr, known := bulkLanes }

/-- A write transaction of known lanes. -/
theorem leads_executeWrite (c : Shared) {k : Mask} (rest : List Micro) (hk : k ≠ 0)
    (hknown : ∀ x, laneEnabled k x = true → x ∈ c.known) (hB : B c.addr) :
    Leads B (c.goOn (.executeWrite k :: rest))
      ((c.wrote k).goOn rest) := by
  refine ⟨3, [⟨.write, c.addr, k, (maskLanes k).map c.lanes.get, c.inc.getLsbD 0⟩], fun ie s hs => ?_⟩
  have hlanes : ∀ x, laneEnabled k x = true → s.hs.lanes.get x = c.lanes.get x := fun x hx => hs.lanes x (hknown x hx)
  have hslot : s.par.slotBacked s.hs.addr = true := by rw [hs.addr]; exact hs.backed _ hB
  obtain ⟨v, hrun⟩ := runIssues_transaction (d := .write) (m := k) hs.sched hs.req hs.waiting_eq hs.todo_eq
    ⟨hs.req, hk, rfl⟩ (transactionLegal_write hk) hslot hs.acks
  have hdir : (s.popLine.startTransaction .write k).hs.dir = .write := dir_start _ _ _
  have hmask : (s.popLine.startTransaction .write k).hs.mask = k := mask_start _ _ _
  have hdesc : (s.popLine.startTransaction .write k).descriptor =
      ⟨.write, c.addr, k, (maskLanes k).map c.lanes.get, c.inc.getLsbD 0⟩ := by
    rw [State.descriptor_of_start, Handshake.advances, State.popLine_hs, hs.addr, hs.inc]
    exact congrArg (Descriptor.mk .write c.addr k · _) (map_maskLanes_congr hlanes)
  rw [hdesc] at hrun
  refine ⟨_, hrun, hs.popLine.afterTransaction rfl (fun x hx => ?_) ?_⟩
  · rw [State.complete_lanes_of_write hdir]; exact hs.lanes x hx
  · rw [State.complete_write hdir, hmask]
    show s.vpm.storeLanes s.hs.addr k s.hs.lanes = _
    rw [hs.vpm, hs.addr]
    exact Memory.storeLanes_congr hlanes _ _

theorem leads_executeRead (c : Shared) (rest : List Micro) (hB : B c.addr) :
    Leads B (c.goOn (.executeRead :: rest)) (c.fetched.goOn rest) := by
  refine ⟨3, [⟨.read, c.addr, fullMask, c.vpm.slotBytes c.addr, c.inc.getLsbD 0⟩], fun ie s hs => ?_⟩
  have hslot : s.par.slotBacked s.hs.addr = true := by rw [hs.addr]; exact hs.backed _ hB
  obtain ⟨v, hrun⟩ := runIssues_transaction (d := .read) (m := fullMask) hs.sched hs.req hs.waiting_eq hs.todo_eq
    ⟨hs.req, rfl⟩ rfl hslot hs.acks
  have hdir : (s.popLine.startTransaction .read fullMask).hs.dir = .read := dir_start _ _ _
  have hdesc : (s.popLine.startTransaction .read fullMask).descriptor =
      ⟨.read, c.addr, fullMask, c.vpm.slotBytes c.addr, c.inc.getLsbD 0⟩ := by
    rw [State.descriptor_of_start, Handshake.advances, State.popLine_hs, State.popLine_vpm, hs.addr, hs.inc, hs.vpm]
    rfl
  rw [hdesc] at hrun
  refine ⟨_, hrun, hs.popLine.afterTransaction rfl (fun x _ => ?_) ?_⟩
  · rw [State.complete_lanes_of_read hdir]
    show (s.vpm.slot s.hs.addr).get x = _
    rw [hs.vpm, hs.addr]; rfl
  · rw [State.complete_vpm_of_read hdir]; exact hs.vpm

/-! ## Passes -/

/-- Staging a list of lanes from the buffer makes them known. -/
theorem leads_stages (rest : List Micro) (ls : List Lane) : ∀ (c : Shared) (off : Nat),
    c.eng.idx.toNat + off + ls.length ≤ c.buf.length →
    ∃ q kn, (∀ x, x ∈ ls ∨ x ∈ c.known → x ∈ kn) ∧
      Leads B (c.goOn (atOffsets .stage off ls ++ rest)) ((c.withLanes q kn).goOn rest) := by
  induction ls with
  | nil => exact fun c off _ => ⟨c.lanes, c.known, fun x hx => hx.resolve_left List.not_mem_nil, .refl _⟩
  | cons l ls ih =>
    intro c off hlen
    rw [List.length_cons] at hlen
    have hv : c.buf[c.eng.idx.toNat + off]? = some _ := List.getElem?_eq_getElem (by omega)
    have hline := carries_stage (B := B) (c.goOn (atOffsets .stage (off + 1) ls ++ rest)) l hv
    obtain ⟨q, kn, hkn, hleads⟩ := ih (c.load l _) (off + 1) (by simp only [Shared.load, Shared.withLanes]; omega)
    refine ⟨q, kn, fun x hx => hkn x ?_, hline.leads.trans hleads⟩
    simp only [Shared.load, Shared.withLanes, List.mem_cons] at hx ⊢
    tauto

/-- Extracting known lanes fills bytes of the buffer. -/
theorem leads_extracts (rest : List Micro) (ls : List Lane) : ∀ (c : Shared) (off : Nat),
    (∀ x ∈ ls, x ∈ c.known) → c.eng.idx.toNat + off + ls.length ≤ c.buf.length →
    ∃ b, b.length = c.buf.length ∧
      Leads B (c.goOn (atOffsets .extract off ls ++ rest)) ((c.withBuf b).goOn rest) := by
  induction ls with
  | nil => exact fun c off _ _ => ⟨c.buf, rfl, .refl _⟩
  | cons l ls ih =>
    intro c off hkn hlen
    rw [List.length_cons] at hlen
    have hline := carries_extract (B := B) (c.goOn (atOffsets .extract (off + 1) ls ++ rest))
      (hkn l List.mem_cons_self) (off := off) (by simp only [Shared.goOn]; omega)
    obtain ⟨b, hb, hleads⟩ := ih (c.deliver l off) (off + 1) (fun x hx => hkn x (List.mem_cons_of_mem l hx))
      (by rw [c.length_deliver]; simp only [Shared.deliver, Shared.withBuf]; omega)
    exact ⟨b, hb.trans (c.length_deliver l off), hline.leads.trans hleads⟩

theorem Shared.consume_zero (c : Shared) : c.consume 0 = c := by simp [Shared.consume]

theorem Shared.consume_consume (c : Shared) (m n : Nat) : (c.consume m).consume n = c.consume (m + n) := by
  simp only [Shared.consume, BitVec.ofNat_add]
  congr 2
  · ring
  · ring

/-- `idx` and `rem` as numbers, within a request. -/
theorem Shared.consume_toNat {c : Shared} {n : Nat} (h : n ≤ c.eng.rem.toNat)
    (hs : c.eng.idx.toNat + c.eng.rem.toNat < 2 ^ 16) :
    (c.consume n).eng.idx.toNat = c.eng.idx.toNat + n ∧ (c.consume n).eng.rem.toNat = c.eng.rem.toNat - n := by
  simp only [Shared.consume, BitVec.toNat_add, BitVec.toNat_sub, BitVec.toNat_ofNat]
  omega

/-- The head's staging lines, each followed by its `consume`. -/
theorem leads_headStages (rest : List Micro) (ls : List Lane) : ∀ c : Shared,
    ls.length ≤ c.eng.rem.toNat → c.eng.idx.toNat + c.eng.rem.toNat < 2 ^ 16 →
    c.eng.idx.toNat + ls.length ≤ c.buf.length →
    ∃ q kn, (∀ x, x ∈ ls ∨ x ∈ c.known → x ∈ kn) ∧
      Leads B (c.goOn (oneByOne .stage ls ++ rest)) (((c.withLanes q kn).consume ls.length).goOn rest) := by
  induction ls with
  | nil =>
    refine fun c _ _ _ => ⟨c.lanes, c.known, fun x hx => hx.resolve_left List.not_mem_nil, ?_⟩
    rw [List.length_nil, Shared.consume_zero]
    exact .refl _
  | cons l ls ih =>
    intro c hrem hsum hlen
    rw [List.length_cons] at hrem hlen
    obtain ⟨v, hv⟩ : ∃ v, c.buf[c.eng.idx.toNat + 0]? = some v := ⟨_, List.getElem?_eq_getElem (by omega)⟩
    have hline := carries_stage (B := B) (c.goOn (.consume 1 :: (oneByOne .stage ls ++ rest))) l hv
    have hcount := carries_consume (B := B) ((c.load l v).goOn (oneByOne .stage ls ++ rest)) 1
    obtain ⟨hidx', hrem'⟩ : ((c.load l v).consume 1).eng.idx.toNat = c.eng.idx.toNat + 1 ∧
        ((c.load l v).consume 1).eng.rem.toNat = c.eng.rem.toNat - 1 :=
      Shared.consume_toNat (c := c.load l v) (by simp only [Shared.load, Shared.withLanes]; omega) hsum
    obtain ⟨q, kn, hkn, hleads⟩ := ih ((c.load l v).consume 1) (by omega) (by omega)
      (by rw [hidx']; simp only [Shared.consume, Shared.load, Shared.withLanes]; omega)
    refine ⟨q, kn, fun x hx => hkn x ?_, hline.leads.trans (hcount.leads.trans ?_)⟩
    · simp only [Shared.consume, Shared.load, Shared.withLanes, List.mem_cons] at hx ⊢
      tauto
    · rw [List.length_cons, Nat.add_comm, ← Shared.consume_consume]
      exact hleads

/-- The head's extracting lines, each followed by its `consume`. -/
theorem leads_headExtracts (rest : List Micro) (ls : List Lane) : ∀ c : Shared, (∀ x ∈ ls, x ∈ c.known) →
    ls.length ≤ c.eng.rem.toNat → c.eng.idx.toNat + c.eng.rem.toNat < 2 ^ 16 →
    c.eng.idx.toNat + ls.length ≤ c.buf.length →
    ∃ b, b.length = c.buf.length ∧
      Leads B (c.goOn (oneByOne .extract ls ++ rest)) (((c.withBuf b).consume ls.length).goOn rest) := by
  induction ls with
  | nil =>
    refine fun c _ _ _ _ => ⟨c.buf, rfl, ?_⟩
    rw [List.length_nil, Shared.consume_zero]
    exact .refl _
  | cons l ls ih =>
    intro c hkn hrem hsum hlen
    rw [List.length_cons] at hrem hlen
    have hline : Carries B (.extract l 0) (c.goOn (.consume 1 :: (oneByOne .extract ls ++ rest)))
        ((c.deliver l 0).goOn (.consume 1 :: (oneByOne .extract ls ++ rest))) :=
      carries_extract (c.goOn _) (hkn l List.mem_cons_self) (by simp only [Shared.goOn]; omega)
    have hcount := carries_consume (B := B) ((c.deliver l 0).goOn (oneByOne .extract ls ++ rest)) 1
    obtain ⟨hidx', hrem'⟩ : ((c.deliver l 0).consume 1).eng.idx.toNat = c.eng.idx.toNat + 1 ∧
        ((c.deliver l 0).consume 1).eng.rem.toNat = c.eng.rem.toNat - 1 :=
      Shared.consume_toNat (c := c.deliver l 0) (by simp only [Shared.deliver, Shared.withBuf]; omega) hsum
    have hbuf : ((c.deliver l 0).consume 1).buf.length = c.buf.length := c.length_deliver l 0
    obtain ⟨b, hb, hleads⟩ := ih ((c.deliver l 0).consume 1) (fun x hx => hkn x (List.mem_cons_of_mem l hx))
      (by omega) (by omega) (by omega)
    refine ⟨b, hb.trans hbuf, hline.leads.trans (hcount.leads.trans ?_)⟩
    rw [List.length_cons, Nat.add_comm, ← Shared.consume_consume]
    exact hleads

/-- What a pass that carries `n` bytes does to the registers the next pass starts from. -/
structure Shared.Carried (n : Nat) (c c' : Shared) : Prop where
  eng : c'.eng = (c.consume n).eng
  addr : c'.addr = c.nextAddr
  inc : c'.inc = c.inc
  length : c'.buf.length = c.buf.length

theorem mem_bulkLanes (x : Lane) : x ∈ bulkLanes := by cases x <;> decide

/-- The lines of a bulk or tail transaction over the lanes `ls`, before the counters move (R173, R174, R183, R184). -/
def offsetLines (d : Dir) (k : Mask) (ls : List Lane) : List Micro :=
  match d with
  | .write => atOffsets .stage 0 ls ++ [.executeWrite k]
  | .read => .executeRead :: atOffsets .extract 0 ls

theorem bulkLines_eq (d : Dir) : bulkLines d = offsetLines d fullMask bulkLanes ++ [.consume 4, .nextSlot] := by
  cases d <;> rfl

theorem tailLines_eq (d : Dir) (n : Nat) :
    tailLines d n = offsetLines d (tailMask n) (tailLanes n) ++ [.consume n] := by
  cases d <;> rfl

/-- The lines of the head's transaction over the lanes `ls` (R172, R182). -/
def headPass (d : Dir) (k : Mask) (ls : List Lane) : List Micro :=
  match d with
  | .write => oneByOne .stage ls ++ [.executeWrite k]
  | .read => .executeRead :: oneByOne .extract ls

theorem headLines_eq (d : Dir) (n : Nat) :
    headLines d n = headPass d (headMask n) (headLanes n) ++ [.nextSlot, .target] := by
  cases d <;> rfl

/-- A bulk or tail pass: whatever the direction, its lines lead to the end of the pass. -/
theorem leads_offsetPass (c : Shared) (d : Dir) {k : Mask} (ls : List Lane) (rest : List Micro) (hk : k ≠ 0)
    (hkl : ∀ x, laneEnabled k x = true → x ∈ ls) (hB : B c.addr) (hlen : c.eng.idx.toNat + ls.length ≤ c.buf.length) :
    ∃ c', c.Carried ls.length c' ∧
      Leads B (c.goOn (offsetLines d k ls ++ .consume ls.length :: rest)) (c'.goOn rest) := by
  have hcount : ∀ c' : Shared, Leads B (c'.goOn (.consume ls.length :: rest)) ((c'.consume ls.length).goOn rest) :=
    fun c' => (carries_consume (c'.goOn rest) _).leads
  cases d with
  | write =>
    obtain ⟨q, kn, hkn, hstage⟩ :=
      leads_stages (B := B) (.executeWrite k :: .consume ls.length :: rest) ls c 0 (by omega)
    have hexec := leads_executeWrite (B := B) (c.withLanes q kn) (.consume ls.length :: rest) hk
      (fun x hx => hkn x (.inl (hkl x hx))) hB
    refine ⟨((c.withLanes q kn).wrote k).consume ls.length, ⟨rfl, rfl, rfl, rfl⟩, ?_⟩
    rw [offsetLines, List.append_assoc]
    exact hstage.trans (hexec.trans (hcount _))
  | read =>
    have hexec := leads_executeRead (B := B) c (atOffsets .extract 0 ls ++ .consume ls.length :: rest) hB
    obtain ⟨b, hb, hextract⟩ := leads_extracts (B := B) (.consume ls.length :: rest) ls
      c.fetched 0 (fun x _ => mem_bulkLanes x)
      hlen
    exact ⟨(c.fetched.withBuf b).consume ls.length, ⟨rfl, rfl, rfl, hb⟩, hexec.trans (hextract.trans (hcount _))⟩

/-- The head's pass. -/
theorem leads_headPass (c : Shared) (d : Dir) {k : Mask} (ls : List Lane) (rest : List Micro) (hk : k ≠ 0)
    (hkl : ∀ x, laneEnabled k x = true → x ∈ ls) (hB : B c.addr) (hrem : ls.length ≤ c.eng.rem.toNat)
    (hsum : c.eng.idx.toNat + c.eng.rem.toNat < 2 ^ 16) (hlen : c.eng.idx.toNat + ls.length ≤ c.buf.length) :
    ∃ c', c.Carried ls.length c' ∧ Leads B (c.goOn (headPass d k ls ++ rest)) (c'.goOn rest) := by
  cases d with
  | write =>
    obtain ⟨q, kn, hkn, hstage⟩ := leads_headStages (B := B) (.executeWrite k :: rest) ls c hrem hsum hlen
    have hexec := leads_executeWrite (B := B) ((c.withLanes q kn).consume ls.length) rest hk
      (fun x hx => hkn x (.inl (hkl x hx))) hB
    refine ⟨((c.withLanes q kn).consume ls.length).wrote k, ⟨rfl, rfl, rfl, rfl⟩, ?_⟩
    rw [headPass, List.append_assoc]
    exact hstage.trans hexec
  | read =>
    have hexec := leads_executeRead (B := B) c (oneByOne .extract ls ++ rest) hB
    obtain ⟨b, hb, hextract⟩ := leads_headExtracts (B := B) rest ls
      c.fetched (fun x _ => mem_bulkLanes x)
      hrem hsum hlen
    exact ⟨(c.fetched.withBuf b).consume ls.length, ⟨rfl, rfl, rfl, hb⟩, hexec.trans hextract⟩

end Sys2Proof.Machine

/-! PROOFS. The phases of a request that nothing disturbs, from acceptance to `done`, and the independence of the past. -/

namespace Sys2Proof.Machine

/-! ## Leaving a phase -/

/-- Another phase entered with its lines. -/
def Shared.enter (c : Shared) (p : Phase) (q : List Micro) : Shared := { c with eng := { c.eng with phase := p, todo := q } }

/-- With its lines carried out a phase is left in one step. -/
theorem leads_leavePhase {B : SlotAddr → Prop} (c : Shared) {p : Phase} {q : List Micro} (hp : p ≠ .idle)
    (h : ∀ s : State, s.eng.phase = c.eng.phase → s.eng.op = c.eng.op → s.eng.vp = c.eng.vp → s.eng.rem = c.eng.rem →
      s.leavePhase = s.enterPhase p q) :
    Leads B (c.goOn []) (c.enter p q) := by
  refine ⟨1, [], fun ie s hs => ?_⟩
  have hbusy : s.eng.phase ≠ .idle := by rw [hs.eng]; exact hs.busy
  have hleave : s.leavePhase = s.enterPhase p q := by
    apply h <;> rw [hs.eng] <;> rfl
  have hstep := step_leavePhase hs.sched hs.req hs.waiting_eq hs.todo_eq hbusy
  rw [hleave] at hstep
  exact ⟨_, .of_step_silent hstep (.inr hs.req),
    { hs with busy := hp, eng := by rw [State.enterPhase_eng, hs.eng]; rfl }⟩

/-- The phases after which `rem` decides (R193). -/
def ByRem (p : Phase) (vp : VpAddr) : Prop :=
  p = .partialHead ∨ p = .bulkLoop ∨ (p = .addressSet ∧ vpIsOdd vp = false)

theorem State.leavePhase_byRem {s : State} (h : ByRem s.eng.phase s.eng.vp) : s.leavePhase = s.enterByRem := by
  rcases h with hp | hp | ⟨hp, ho⟩
  · simp only [State.leavePhase, hp]
  · simp only [State.leavePhase, hp]
  · simp [State.leavePhase, hp, ho]

theorem State.enterByRem_bulk {s : State} (h : 4 ≤ s.eng.rem.toNat) :
    s.enterByRem = s.enterPhase .bulkLoop
      (if s.eng.phase = .bulkLoop then bulkLines s.eng.op else .autoInc true :: bulkLines s.eng.op) :=
  if_pos h

theorem State.enterByRem_released {s : State} (h : s.eng.rem.toNat = 0) :
    s.enterByRem = s.enterPhase .released releasedLines :=
  (if_neg (by omega)).trans (if_pos (BitVec.eq_of_toNat_eq h))

theorem State.enterByRem_tail {s : State} (h : s.eng.rem.toNat < 4) (h0 : s.eng.rem.toNat ≠ 0) :
    s.enterByRem = s.enterPhase .tail (tailLines s.eng.op s.eng.rem.toNat) :=
  (if_neg (by omega)).trans (if_neg fun c => h0 (by rw [c]; rfl))

/-! ## Between two passes -/

/-- A slot that a request of length `l` from `a` touches. -/
def Touched (a : VpAddr) (l : Len) (x : SlotAddr) : Prop := ∃ k, k < l.toNat ∧ slotOfByte (requestByte a k) = x

/-- A slot's four linear bytes are its own (R64). -/
theorem slotOfByte_eq {x : SlotAddr} {b : Nat} (h : 4 * x.toNat ≤ b) (h' : b < 4 * x.toNat + 4) : slotOfByte b = x := by
  have hb : b / 4 = x.toNat := by omega
  rw [slotOfByte, hb, BitVec.ofNat_toNat, BitVec.setWidth_eq]

/-- Between the passes of a request: `HS.ADDR` is the slot of the next byte, a whole one, if there is a next byte. -/
structure Shared.Between (d : Dir) (a : VpAddr) (l : Len) (c : Shared) : Prop where
  op : c.eng.op = d
  vp : c.eng.vp = a
  phase : ByRem c.eng.phase a
  slot : c.eng.slot = c.addr
  place : c.eng.rem.toNat ≠ 0 → 4 * c.addr.toNat = requestByte a c.eng.idx.toNat
  count : c.eng.idx.toNat + c.eng.rem.toNat = l.toNat
  cover : l.toNat ≤ c.buf.length
  inc : c.eng.phase = .bulkLoop → c.inc = autoIncValue true

variable {d : Dir} {a : VpAddr} {l : Len}

theorem Shared.Between.touched {c : Shared} (h : c.Between d a l) (hr : c.eng.rem.toNat ≠ 0) : Touched a l c.addr := by
  have hcount := h.count
  exact ⟨c.eng.idx.toNat, by omega, slotOfByte_eq (h.place hr).le (by rw [h.place hr]; omega)⟩

/-- The end of the passes: the lines of `Released` are left. -/
def Shared.AtReleased (c : Shared) : Prop := c.eng.todo = releasedLines

theorem Shared.Between.leads_released {c : Shared} (h : c.Between d a l) (hr : c.eng.rem.toNat = 0) :
    ∃ c' : Shared, c'.AtReleased ∧ Leads (Touched a l) (c.goOn []) c' := by
  refine ⟨c.enter .released releasedLines, rfl, leads_leavePhase c nofun fun s hp _ hvp hrem => ?_⟩
  rw [State.leavePhase_byRem (by rw [hp, hvp, h.vp]; exact h.phase), State.enterByRem_released (by rw [hrem, hr])]

theorem tailLanes_length {n : Nat} (h : n < 4) : (tailLanes n).length = n := by
  interval_cases n <;> rfl

theorem tailMask_ne_zero {n : Nat} (h : n ≠ 0) : tailMask n ≠ 0 := by
  unfold tailMask
  split
  · exact absurd rfl h
  all_goals decide

/-- The lanes a tail's mask enables are the tail's (R111, R112). -/
theorem mem_tailLanes_of_enabled {n : Nat} (h : n < 4) {x : Lane} (hx : laneEnabled (tailMask n) x = true) :
    x ∈ tailLanes n := by
  interval_cases n <;> cases x <;> revert hx <;> decide

/-- The last pass, over one to three bytes, and the phase after it (R174, R198). -/
theorem Shared.Between.leads_tail {c : Shared} (h : c.Between d a l) (hr : c.eng.rem.toNat < 4)
    (h0 : c.eng.rem.toNat ≠ 0) : ∃ c' : Shared, c'.AtReleased ∧ Leads (Touched a l) (c.goOn []) c' := by
  have hcount := h.count
  have hcover := h.cover
  have hlen := tailLanes_length hr
  have hleave : Leads (Touched a l) (c.goOn []) (c.enter .tail (tailLines d c.eng.rem.toNat)) :=
    leads_leavePhase c nofun fun s hp hop hvp hrem => by
      rw [State.leavePhase_byRem (by rw [hp, hvp, h.vp]; exact h.phase),
        State.enterByRem_tail (by rw [hrem]; exact hr) (by rw [hrem]; exact h0), hop, hrem, h.op]
  obtain ⟨c', hc', hpass⟩ := leads_offsetPass (B := Touched a l) (c.enter .tail []) d (tailLanes c.eng.rem.toNat) []
    (tailMask_ne_zero h0) (fun x hx => mem_tailLanes_of_enabled hr hx) (h.touched h0)
    (by simp only [Shared.enter]; omega)
  rw [hlen, ← tailLines_eq] at hpass
  have hphase : c'.eng.phase = .tail := by rw [hc'.eng]; rfl
  refine ⟨c'.enter .released releasedLines, rfl, hleave.trans (hpass.trans ?_)⟩
  exact leads_leavePhase c' nofun fun s hp _ _ _ => by simp only [State.leavePhase, hp, hphase]

/-- `BulkLoop` is entered with the auto-increment off or on and carries its pass out with it on (R197). -/
theorem Shared.Between.leads_switchOn {c : Shared} (h : c.Between d a l) :
    Leads (Touched a l) (c.enter .bulkLoop (if c.eng.phase = .bulkLoop then bulkLines d else .autoInc true :: bulkLines d))
      ((c.withInc (autoIncValue true)).enter .bulkLoop (bulkLines d)) := by
  by_cases hp : c.eng.phase = .bulkLoop
  · have hinc : c.withInc (autoIncValue true) = c := by rw [Shared.withInc, ← h.inc hp]
    rw [if_pos hp, hinc]
    exact .refl _
  · rw [if_neg hp]
    exact (carries_autoInc ((c.enter .bulkLoop []).goOn (bulkLines d)) true).leads

/-- The next slot's address, while the bytes of a request go on. -/
theorem toNat_addr_add_one {x : SlotAddr} (h : 4 * x.toNat ≤ requestByte a l.toNat) : (x + 1).toNat = x.toNat + 1 := by
  have ha := a.isLt
  have hl := l.isLt
  simp only [requestByte] at h
  rw [BitVec.toNat_add, show (1 : SlotAddr).toNat = 1 from rfl]
  exact Nat.mod_eq_of_lt (by omega)

/-- After a pass through `BulkLoop` and the step to the next slot the request is between two passes again. -/
theorem Shared.Between.afterBulk {c c' : Shared} (h : c.Between d a l) (hr : 4 ≤ c.eng.rem.toNat)
    (hc' : ((c.withInc (autoIncValue true)).enter .bulkLoop []).Carried 4 c') :
    c'.nextSlot.Between d a l ∧ c'.nextSlot.eng.rem.toNat = c.eng.rem.toNat - 4 := by
  have hcount := h.count
  have hl := l.isLt
  have hplace := h.place (by omega)
  simp only [requestByte] at hplace
  obtain ⟨hidx, hrem⟩ := Shared.consume_toNat (c := (c.withInc (autoIncValue true)).enter .bulkLoop []) (n := 4)
    (by simp only [Shared.enter, Shared.withInc]; omega) (by simp only [Shared.enter, Shared.withInc]; omega)
  have heng := hc'.eng
  have haddr : c'.addr = c.addr + 1 := hc'.addr.trans (Shared.nextAddr_of_on rfl)
  have hidx' : c'.nextSlot.eng.idx.toNat = c.eng.idx.toNat + 4 := by rw [Shared.nextSlot, heng]; exact hidx
  have hrem' : c'.nextSlot.eng.rem.toNat = c.eng.rem.toNat - 4 := by rw [Shared.nextSlot, heng]; exact hrem
  refine ⟨{ op := ?_, vp := ?_, phase := ?_, slot := ?_, place := fun _ => ?_, count := ?_, cover := ?_,
            inc := fun _ => hc'.inc }, hrem'⟩
  · rw [Shared.nextSlot, heng]; exact h.op
  · rw [Shared.nextSlot, heng]; exact h.vp
  · rw [Shared.nextSlot, heng]; exact .inr (.inl rfl)
  · show c'.eng.slot + 1 = c'.addr
    rw [haddr, heng]
    exact congrArg (· + 1) h.slot
  · show 4 * c'.addr.toNat = _
    rw [haddr, toNat_addr_add_one (a := a) (l := l) (by simp only [requestByte]; omega), hidx', requestByte]
    omega
  · omega
  · show l.toNat ≤ c'.buf.length
    rw [hc'.length]; exact h.cover

/-- One pass through `BulkLoop` (R173, R183, R197). -/
theorem Shared.Between.leads_bulk {c : Shared} (h : c.Between d a l) (hr : 4 ≤ c.eng.rem.toNat) :
    ∃ c' : Shared, c'.Between d a l ∧ c'.eng.rem.toNat = c.eng.rem.toNat - 4 ∧
      Leads (Touched a l) (c.goOn []) (c'.goOn []) := by
  have hcount := h.count
  have hcover := h.cover
  have hleave : Leads (Touched a l) (c.goOn []) (c.enter .bulkLoop
      (if c.eng.phase = .bulkLoop then bulkLines d else .autoInc true :: bulkLines d)) :=
    leads_leavePhase c nofun fun s hp hop hvp hrem => by
      rw [State.leavePhase_byRem (by rw [hp, hvp, h.vp]; exact h.phase), State.enterByRem_bulk (by rw [hrem]; exact hr),
        hp, hop, h.op]
  obtain ⟨c', hc', hpass⟩ := leads_offsetPass (B := Touched a l) ((c.withInc (autoIncValue true)).enter .bulkLoop []) d
    (k := fullMask) bulkLanes [.nextSlot] (by decide) (fun x _ => mem_bulkLanes x) (h.touched (by omega))
    (by simp only [Shared.enter, Shared.withInc, bulkLanes, List.length_cons, List.length_nil]; omega)
  have hbulk : Leads (Touched a l) ((c.withInc (autoIncValue true)).enter .bulkLoop (bulkLines d))
      (c'.goOn [.nextSlot]) := by
    rw [bulkLines_eq]; exact hpass
  have hslot : Leads (Touched a l) (c'.goOn [.nextSlot]) (c'.nextSlot.goOn []) := (carries_nextSlot (c'.goOn [])).leads
  obtain ⟨hbetween, hrem⟩ := h.afterBulk hr hc'
  exact ⟨c'.nextSlot, hbetween, hrem, hleave.trans (h.leads_switchOn.trans (hbulk.trans hslot))⟩

/-- From between two passes the request gets to `Released`, by induction on the bytes left. -/
theorem Shared.Between.leads_end {c : Shared} (h : c.Between d a l) :
    ∃ c' : Shared, c'.AtReleased ∧ Leads (Touched a l) (c.goOn []) c' := by
  by_cases h4 : 4 ≤ c.eng.rem.toNat
  · obtain ⟨c', hc', hrem, hbulk⟩ := h.leads_bulk h4
    obtain ⟨c'', hc'', hend⟩ := hc'.leads_end
    exact ⟨c'', hc'', hbulk.trans hend⟩
  · by_cases h0 : c.eng.rem.toNat = 0
    · exact h.leads_released h0
    · exact h.leads_tail (by omega) h0
termination_by c.eng.rem.toNat

/-! ## The start of a request (R192, R194) -/

/-- After `AddressSet`'s three lines, whatever came before the request. -/
def Shared.start (d : Dir) (a : VpAddr) (l : Len) (m : Memory) (b : List Byte) : Shared where
  eng :=
    { phase := .addressSet, op := d, vp := a, rem := l, idx := 0, slot := slotOfVp a, ieSaved := false, todo := [],
      waiting := false }
  addr := slotOfVp a
  inc := autoIncValue false
  lanes := ⟨0, 0, 0, 0⟩
  known := []
  vpm := m
  buf := b

theorem slotOfVp_toNat (a : VpAddr) : (slotOfVp a).toNat = a.toNat / 2 := by
  have ha := a.isLt
  simp only [slotOfVp, BitVec.toNat_setWidth, BitVec.toNat_ushiftRight, Nat.shiftRight_eq_div_pow]
  omega

theorem vpIsOdd_eq (a : VpAddr) : vpIsOdd a = decide (a.toNat % 2 = 1) := by
  simp only [vpIsOdd, BitVec.getLsbD, Nat.testBit_zero]

theorem touched_first (hl : l ≠ 0) : Touched a l (slotOfVp a) := by
  have hl' : l.toNat ≠ 0 := fun h => hl (BitVec.eq_of_toNat_eq h)
  have hslot := slotOfVp_toNat a
  refine ⟨0, by omega, slotOfByte_eq ?_ ?_⟩ <;> simp only [requestByte] <;> omega

/-- From an even start `rem` decides at once. -/
theorem Shared.start_between (m : Memory) {b : List Byte} (ha : vpIsOdd a = false) (hb : l.toNat ≤ b.length) :
    (Shared.start d a l m b).Between d a l := by
  refine
    { op := rfl, vp := rfl, phase := .inr (.inr ⟨rfl, ha⟩), slot := rfl, place := fun _ => ?_, count := ?_, cover := hb,
      inc := nofun }
  · have heven : ¬ a.toNat % 2 = 1 := by simpa [vpIsOdd_eq] using ha
    show 4 * (slotOfVp a).toNat = requestByte a 0
    rw [slotOfVp_toNat, requestByte]
    omega
  · exact Nat.zero_add _

/-- The head's lanes are those its mask enables (R110, R112). -/
theorem headLanes_facts {n : Nat} (h1 : 1 ≤ n) (h2 : n ≤ 2) :
    (headLanes n).length = n ∧ headMask n ≠ 0 ∧ ∀ x, laneEnabled (headMask n) x = true → x ∈ headLanes n := by
  interval_cases n <;> exact ⟨rfl, by decide, fun x => by cases x <;> decide⟩

/-- After the head and the step to the first whole slot an odd request is between two passes. -/
theorem Shared.between_afterHead {m : Memory} {b : List Byte} {c' : Shared} (ha : vpIsOdd a = true)
    (hb : l.toNat ≤ b.length)
    (hc' : ((Shared.start d a l m b).enter .partialHead []).Carried (min l.toNat 2) c') :
    c'.nextSlot.aim.Between d a l := by
  have hlt := l.isLt
  have hodd : a.toNat % 2 = 1 := by simpa [vpIsOdd_eq] using ha
  have hslot := slotOfVp_toNat a
  obtain ⟨hidx, hrem⟩ := Shared.consume_toNat (c := (Shared.start d a l m b).enter .partialHead [])
    (n := min l.toNat 2) (Nat.min_le_left _ _) (by simpa [Shared.start, Shared.enter] using hlt)
  have heng := hc'.eng
  have hidx' : c'.nextSlot.aim.eng.idx.toNat = 0 + min l.toNat 2 := by
    rw [Shared.aim, Shared.nextSlot, heng]; exact hidx
  have hrem' : c'.nextSlot.aim.eng.rem.toNat = l.toNat - min l.toNat 2 := by
    rw [Shared.aim, Shared.nextSlot, heng]; exact hrem
  have haddr : c'.nextSlot.aim.addr = slotOfVp a + 1 := by
    show c'.eng.slot + 1 = _
    rw [heng]; rfl
  refine
    { op := ?_, vp := ?_, phase := ?_, slot := rfl, place := fun hr => ?_, count := ?_, cover := ?_, inc := fun hp => ?_ }
  · rw [Shared.aim, Shared.nextSlot, heng]; rfl
  · rw [Shared.aim, Shared.nextSlot, heng]; rfl
  · rw [Shared.aim, Shared.nextSlot, heng]; exact .inl rfl
  · rw [haddr, toNat_addr_add_one (a := a) (l := l) (by simp only [requestByte]; omega), hidx', requestByte]
    omega
  · omega
  · show l.toNat ≤ c'.buf.length
    rw [hc'.length]; exact hb
  · rw [Shared.aim, Shared.nextSlot, heng] at hp
    cases hp

/-- From an odd start the head comes first (R172, R182, R195). -/
theorem Shared.start_leads_head (m : Memory) {b : List Byte} (ha : vpIsOdd a = true) (hl : l ≠ 0)
    (hb : l.toNat ≤ b.length) :
    ∃ c' : Shared, c'.Between d a l ∧ Leads (Touched a l) ((Shared.start d a l m b).goOn []) (c'.goOn []) := by
  have hl' : l.toNat ≠ 0 := fun h => hl (BitVec.eq_of_toNat_eq h)
  have hlt := l.isLt
  obtain ⟨hlen, hmask, hlanes⟩ := headLanes_facts (n := min l.toNat 2) (by omega) (by omega)
  have hleave : Leads (Touched a l) ((Shared.start d a l m b).goOn [])
      ((Shared.start d a l m b).enter .partialHead (headLines d (min l.toNat 2))) :=
    leads_leavePhase _ nofun fun s hp hop hvp hrem => by
      have hp' : s.eng.phase = .addressSet := hp
      have ho : vpIsOdd s.eng.vp = true := by rw [hvp]; exact ha
      simp only [State.leavePhase, hp', ho, if_true, hop, hrem]
      rfl
  obtain ⟨c', hc', hpass⟩ := leads_headPass (B := Touched a l) ((Shared.start d a l m b).enter .partialHead []) d
    (headLanes (min l.toNat 2)) [.nextSlot, .target] hmask hlanes (touched_first hl)
    (by rw [hlen]; exact Nat.min_le_left _ _) (by simpa [Shared.start, Shared.enter] using hlt)
    (by rw [hlen]; show 0 + _ ≤ b.length; omega)
  have hhead : Leads (Touched a l) ((Shared.start d a l m b).enter .partialHead (headLines d (min l.toNat 2)))
      (c'.goOn [.nextSlot, .target]) := by
    rw [headLines_eq]; exact hpass
  have hnext : Leads (Touched a l) (c'.goOn [.nextSlot, .target]) (c'.nextSlot.goOn [.target]) :=
    (carries_nextSlot (c'.goOn [.target])).leads
  have haim : Leads (Touched a l) (c'.nextSlot.goOn [.target]) (c'.nextSlot.aim.goOn []) :=
    (carries_target (c'.nextSlot.goOn [])).leads
  exact ⟨c'.nextSlot.aim, Shared.between_afterHead ha hb (hlen ▸ hc'), hleave.trans (hhead.trans (hnext.trans haim))⟩

/-- Every request that does something gets from `AddressSet` to `Released`. -/
theorem Shared.start_leads_end (m : Memory) {b : List Byte} (hl : l ≠ 0) (hb : l.toNat ≤ b.length) :
    ∃ c' : Shared, c'.AtReleased ∧ Leads (Touched a l) ((Shared.start d a l m b).goOn []) c' := by
  cases ha : vpIsOdd a with
  | false => exact (Shared.start_between m ha hb).leads_end
  | true =>
    obtain ⟨c, hc, hhead⟩ := Shared.start_leads_head (d := d) m ha hl hb
    obtain ⟨c', hc', hend⟩ := hc.leads_end
    exact ⟨c', hc', hhead.trans hend⟩

/-- The three lines of `AddressSet` (R194). -/
theorem runIssues_addressSet {s : State} (h : s.sched = []) (hr : s.hs.req = false) (hw : s.eng.waiting = false)
    (hq : s.eng.todo = addressSetLines) :
    ∃ t, RunIssues 3 s [] t ∧ t.eng = { s.eng with slot := slotOfVp s.eng.vp, todo := [] } ∧
      t.hs = { s.hs.withAddr (slotOfVp s.eng.vp) with autoInc := autoIncValue false } ∧ t.vpm = s.vpm ∧ t.buf = s.buf ∧
      t.par = s.par ∧ t.sched = s.sched := by
  have h1 : step s = .next (s.popLine.setSlot (slotOfVp s.eng.vp)) := step_line h hr hw hq rfl
  generalize hu : s.popLine.setSlot (slotOfVp s.eng.vp) = u at h1
  have hu1 : u.eng = { s.eng with slot := slotOfVp s.eng.vp, todo := [.target, .autoInc false] } := by
    rw [← hu, State.setSlot_eng, State.popLine_eng, hq]; rfl
  have hu2 : u.hs = s.hs := by rw [← hu]; rfl
  have hur : u.hs.req = false := by rw [hu2]; exact hr
  have h2 : step u = .next (u.popLine.setAddr u.eng.slot) :=
    step_line (m := .target) (by rw [← hu]; exact h) hur (by rw [hu1]; exact hw) (by rw [hu1]) ⟨hur, rfl⟩
  generalize hv : u.popLine.setAddr u.eng.slot = v at h2
  have hv1 : v.eng = { s.eng with slot := slotOfVp s.eng.vp, todo := [.autoInc false] } := by
    rw [← hv, State.setAddr_eng, State.popLine_eng, hu1]; rfl
  have hv2 : v.hs = s.hs.withAddr (slotOfVp s.eng.vp) := by
    rw [← hv, State.setAddr_hs, State.popLine_hs, hu2, hu1]
  have hvr : v.hs.req = false := by rw [hv2]; exact hr
  have h3 : step v = .next (v.popLine.setAutoInc (autoIncValue false)) :=
    step_line (m := .autoInc false) (by rw [← hv, ← hu]; exact h) hvr (by rw [hv1]; exact hw) (by rw [hv1]) ⟨hvr, rfl⟩
  refine ⟨_, ((RunIssues.of_step_silent h1 (.inr hur)).trans (.of_step_silent h2 (.inr hvr))).trans
    (.of_step_silent h3 (.inr hvr)), ?_, ?_, ?_⟩
  · rw [State.setAutoInc_eng, State.popLine_eng, hv1]; rfl
  · rw [State.setAutoInc_hs, State.popLine_hs, hv2]
  · rw [← hv, ← hu]; exact ⟨rfl, rfl, rfl, rfl⟩

/-- A request accepted between requests, with the bus free, is after three steps where `Shared.start` says. -/
theorem accepted_shows {s : State} {b : List Byte} (d : Dir) (hq : s.Quiet) (hl : l ≠ 0) (hs : s.SlotsBacked a l)
    (hb : s.buf = some b) :
    ∃ t₀ t, exec (requestInstr d a l) s = .next t₀ ∧ RunIssues 3 t₀ [] t ∧
      Shows (Touched a l) s.host.ie ((Shared.start d a l s.vpm b).goOn []) t := by
  obtain ⟨hphase, hw, hreq, hacks, hsched⟩ := hq
  have hexec : exec (requestInstr d a l) s = .next ((s.latchRequest d a l).enterPhase .addressSet addressSetLines) := by
    have haccept := State.accept_pos d a hphase (State.blocked_eq_false.mpr ⟨hw, hreq⟩) hl
    cases d <;> exact haccept
  obtain ⟨t, hrun, heng, hhs, hvpm, hbuf, hpar, hsch⟩ :=
    runIssues_addressSet (s := (s.latchRequest d a l).enterPhase .addressSet addressSetLines) hsched hreq hw rfl
  refine ⟨_, t, hexec, hrun, ?_⟩
  refine
    { eng := ?_, waiting := rfl, busy := nofun, addr := ?_, inc := ?_, lanes := nofun, req := ?_, vpm := hvpm,
      buf := hbuf.trans hb, acks := ?_, backed := ?_, sched := hsch.trans hsched }
  · rw [heng]; simp only [State.enterPhase_eng, State.latchRequest_eng, hw]; rfl
  · rw [hhs]; exact addr_withAddr s.hs (slotOfVp a)
  · rw [hhs]; rfl
  · rw [hhs]; exact hreq
  · rw [hpar]; exact hacks
  · rintro x ⟨k, hk, rfl⟩
    rw [hpar]; exact hs k hk

/-! ## The end of a request (R199) -/

/-- The two lines of `Released`: `CTRL` is cleared and `IE` put back. -/
theorem Shows.released {B : SlotAddr → Prop} {ie : Bool} {c : Shared} {s : State} (h : Shows B ie c s)
    (hq : c.AtReleased) :
    ∃ t, RunIssues 2 s [] t ∧ t.eng.phase = .idle ∧ t.vpm = c.vpm ∧ t.buf = some c.buf ∧ t.hs.addr = c.addr ∧
      t.hs.autoInc = c.inc ∧ t.hs.ctrl = 0 ∧ t.host.ie = ie := by
  have h1 : step s = .next (s.popLine.setCtrl 0) :=
    step_line (m := .release) h.sched h.req h.waiting_eq (h.todo_eq.trans hq) ⟨h.req, rfl⟩
  have hreq : (s.popLine.setCtrl 0).hs.req = false := by
    simp only [State.setCtrl_hs, Handshake.req]; decide
  have htodo : (s.popLine.setCtrl 0).eng.todo = [.finish] := by
    rw [State.setCtrl_eng, State.popLine_eng, h.todo_eq, hq]; rfl
  have h2 : step (s.popLine.setCtrl 0) = .next (s.popLine.setCtrl 0).popLine.restoreInterrupts.giveDone :=
    step_line (m := .finish) (s := s.popLine.setCtrl 0) h.sched hreq h.waiting_eq htodo rfl
  refine ⟨_, (RunIssues.of_step_silent h1 (.inr hreq)).trans (.of_step_silent h2 (.inr hreq)), rfl, h.vpm, h.buf,
    h.addr, h.inc, rfl, ?_⟩
  show s.eng.ieSaved = ie
  rw [h.eng]

/-! ## Independence of the past (R23) -/

/-- A request with `L > 0` fixes, before it is accepted, the number of its steps, its transactions, and the memory, the
buffer, the address and the toggle it leaves: they are the same for every state it may be accepted in. -/
theorem request_determined (d : Dir) (m : Memory) {b : List Byte} (hl : l ≠ 0) (hb : l.toNat ≤ b.length) :
    ∃ n D, ∃ c : Shared, ∀ s : State, s.Quiet → s.SlotsBacked a l → s.vpm = m → s.buf = some b →
      ∃ t₀ t, exec (requestInstr d a l) s = .next t₀ ∧ RunIssues n t₀ D t ∧ t.eng.phase = .idle ∧ t.vpm = c.vpm ∧
        t.buf = some c.buf ∧ t.hs.addr = c.addr ∧ t.hs.autoInc = c.inc ∧ t.hs.ctrl = 0 ∧ t.host.ie = s.host.ie := by
  obtain ⟨c, hc, n, D, hleads⟩ := Shared.start_leads_end (a := a) (d := d) m hl hb
  refine ⟨3 + n + 2, [] ++ D ++ [], c, fun s hq hs hm hbuf => ?_⟩
  subst hm
  obtain ⟨t₀, u, hexec, hstart, hu⟩ := accepted_shows d hq hl hs hbuf
  obtain ⟨v, hrun, hv⟩ := hleads _ u hu
  obtain ⟨t, hfin, hend⟩ := hv.released hc
  exact ⟨t₀, t, hexec, (hstart.trans hrun).trans hfin, hend⟩

/-- Settles O56: both runs are the one `request_determined` describes. -/
theorem requestsAreIndependentOfThePast : Obligations.RequestsAreIndependentOfThePast := by
  unfold Obligations.RequestsAreIndependentOfThePast
  intro s s' d a l b hq hq' hl hs hs' hvpm hbuf hbuf' hlen
  obtain ⟨n, D, c, hrun⟩ := request_determined (a := a) d s.vpm hl hlen
  obtain ⟨t₀, t, hexec, ⟨hr, hD⟩, hp, hm, hb, ha, hi, hc, hie⟩ := hrun s hq hs rfl hbuf
  obtain ⟨t₀', t', hexec', ⟨hr', hD'⟩, hp', hm', hb', ha', hi', hc', hie'⟩ := hrun s' hq' hs' hvpm.symm hbuf'
  exact ⟨t₀, t₀', n, t, t', hexec, hexec', hr, hr', hp, hp', hD.trans hD'.symm, hm.trans hm'.symm, hb.trans hb'.symm,
    ha.trans ha'.symm, hi.trans hi'.symm, hc.trans hc'.symm, hie, hie'⟩

end Sys2Proof.Machine

/-! PROOFS. What each line of the sequencer is, as an equation: the operation of R100 it issues on its operands as they are
now, and what it does after it, or the change of the Engine's registers it makes. -/

namespace Sys2Proof.Machine

/-! ## Lines that issue an operation (R90, R170, R180) -/

theorem andThen_next_right (r : Result) : andThen r .next = r := by
  cases r <;> rfl

/-- A line after whose operation nothing remains to be done is that operation. -/
theorem State.line_of_op {s : State} {m : Micro} {i : Instr} (h : s.lineOp m = some i)
    (ha : ∀ t : State, t.afterOp m = .next t) : s.line m = exec i s := by
  rw [State.line, h]
  simp only [ha, andThen_next_right]

theorem State.line_target (s : State) : s.line .target = exec (.setTarget s.eng.slot) s :=
  State.line_of_op rfl fun _ => rfl

theorem State.line_autoInc (s : State) (on : Bool) : s.line (.autoInc on) = exec (.setAutoIncrement on) s :=
  State.line_of_op rfl fun _ => rfl

theorem State.line_executeWrite (s : State) (k : Mask) : s.line (.executeWrite k) = exec (.executeWrite k) s :=
  State.line_of_op rfl fun _ => rfl

theorem State.line_executeRead (s : State) : s.line .executeRead = exec .executeRead s :=
  State.line_of_op rfl fun _ => rfl

theorem State.line_release (s : State) : s.line .release = exec .release s :=
  State.line_of_op rfl fun _ => rfl

/-- The last line of a request: `IRQ_RESTORE`, then `done` (R199). -/
theorem State.line_finish (s : State) :
    exec .irqRestore s = .next s.restoreInterrupts ∧ s.line .finish = .next s.restoreInterrupts.giveDone :=
  ⟨rfl, rfl⟩

/-! ## Lines that need a byte of the buffer (R171, R181, R232) -/

/-- The buffer has no byte `i`: it is null or too short. -/
theorem State.bufRead_eq_none {s : State} {i : Nat} (h : ∀ b, s.buf = some b → b.length ≤ i) : s.bufRead i = none := by
  unfold State.bufRead
  cases hb : s.buf with
  | none => rfl
  | some b => exact List.getElem?_eq_none (h b hb)

theorem State.bufWrite_eq_none {s : State} {i : Nat} (v : Byte) (h : ∀ b, s.buf = some b → b.length ≤ i) :
    s.bufWrite i v = none := by
  unfold State.bufWrite
  cases hb : s.buf with
  | none => rfl
  | some b => exact if_neg (Nat.not_lt.mpr (h b hb))

theorem State.line_stage {s : State} {l : Lane} {off : Nat} {b : List Byte} {v : Byte} (hb : s.buf = some b)
    (hv : b[s.bufIndex off]? = some v) : s.line (.stage l off) = exec (.loadLane l v) s := by
  have hread : s.bufRead (s.bufIndex off) = some v := by rw [State.bufRead, hb]; exact hv
  exact State.line_of_op (by rw [State.lineOp, hread]; rfl) fun _ => rfl

theorem State.line_stage_refused {s : State} {l : Lane} {off : Nat}
    (h : ∀ b, s.buf = some b → b.length ≤ s.bufIndex off) : s.line (.stage l off) = .refused .bufferContract := by
  have hop : s.lineOp (.stage l off) = none := by rw [State.lineOp, State.bufRead_eq_none h]; rfl
  rw [State.line, hop]
  rfl

/-- With no transaction outstanding an extraction has read its lane, and the byte goes to the buffer. -/
theorem State.line_extract_of_idle {s : State} {l : Lane} {off : Nat} (h : s.hs.req = false) :
    exec (.readLane l) s = .next (s.setReadData (s.hs.lanes.get l)) ∧
      s.line (.extract l off) = (s.setReadData (s.hs.lanes.get l)).deliver (s.bufIndex off) := by
  have hread : exec (.readLane l) s = .next (s.setReadData (s.hs.lanes.get l)) := State.whenIdleBus_of_idle h
  exact ⟨hread, congrArg (andThen · fun t => t.deliver (t.bufIndex off)) hread⟩

theorem State.line_extract_of_req {s : State} {l : Lane} {off : Nat} (h : s.hs.req = true) :
    s.line (.extract l off) = .refused .transactionOutstanding := by
  have hread : exec (.readLane l) s = .refused .transactionOutstanding := State.whenIdleBus_of_req h
  exact congrArg (andThen · fun t => t.deliver (t.bufIndex off)) hread

theorem State.deliver_of_byte {s : State} {i : Nat} {b : List Byte} (hb : s.buf = some b) (hi : i < b.length) :
    s.deliver i = .next { s with buf := some (b.set i s.port.readData) } := by
  rw [State.deliver, State.bufWrite_eq_some.mpr ⟨b, hb, hi, rfl⟩]

theorem State.deliver_refused {s : State} {i : Nat} (h : ∀ b, s.buf = some b → b.length ≤ i) :
    s.deliver i = .refused .bufferContract := by
  rw [State.deliver, State.bufWrite_eq_none _ h]

/-! ## The Engine's step -/

theorem step_engine_poll {s : State} (hn : s.nextTurn = .engine) (hw : s.eng.waiting = true) :
    step s = exec .pollCtrl s.popTurn :=
  (step_of_turn hn).trans (if_pos hw)

/-- The Engine's step while it has lines left: the first, carried out in the state from which it is taken off. -/
theorem step_engine_line {s : State} {m : Micro} {rest : List Micro} (hn : s.nextTurn = .engine)
    (hw : s.eng.waiting = false) (hq : s.eng.todo = m :: rest) :
    step s = State.line { s.popTurn with eng := { s.eng with todo := rest } } m := by
  have hpop : s.popTurn.popLine = { s.popTurn with eng := { s.eng with todo := rest } } := by
    rw [State.popLine, State.popTurn_eng, hq]; rfl
  have hturn : s.popTurn.engineTurn = s.popTurn.popLine.line m := by
    simp only [State.engineTurn, State.popTurn_eng, hw, hq, Bool.false_eq_true, if_false]
  rw [step_of_turn hn, ← hpop]
  exact hturn

/-- Settles O9: the step is the poll or the line in front, and each line is its equation. -/
theorem stepRunsTheEnginesLine : Obligations.StepRunsTheEnginesLine := by
  unfold Obligations.StepRunsTheEnginesLine
  intro s hn
  refine ⟨step_engine_poll hn, fun m rest hw hq => ?_⟩
  have hline := step_engine_line hn hw hq
  refine ⟨?target, ?autoInc, ?stage, ?executeWrite, ?executeRead, ?extractReq, ?extract, ?release, ?finish, ?setSlot,
    ?nextSlot, ?consume⟩
  case target => rintro rfl; exact hline.trans (State.line_target _)
  case autoInc => rintro on rfl; exact hline.trans (State.line_autoInc _ on)
  case stage =>
    rintro l off rfl
    exact ⟨fun b v hb hv => hline.trans (State.line_stage hb hv), fun h => hline.trans (State.line_stage_refused h)⟩
  case executeWrite => rintro k rfl; exact hline.trans (State.line_executeWrite _ k)
  case executeRead => rintro rfl; exact hline.trans (State.line_executeRead _)
  case extractReq => rintro l off rfl hr; exact hline.trans (State.line_extract_of_req hr)
  case extract =>
    rintro l off rfl hr
    obtain ⟨hread, hext⟩ := State.line_extract_of_idle (l := l) (off := off)
      (s := { s.popTurn with eng := { s.eng with todo := rest } }) hr
    exact ⟨fun b hb hi => ⟨_, hread, (hline.trans hext).trans (State.deliver_of_byte hb hi)⟩,
      fun h => (hline.trans hext).trans (State.deliver_refused h)⟩
  case release => rintro rfl; exact hline.trans (State.line_release _)
  case finish =>
    rintro rfl
    obtain ⟨hrestore, hdone⟩ := State.line_finish { s.popTurn with eng := { s.eng with todo := rest } }
    exact ⟨_, hrestore, hline.trans hdone⟩
  case setSlot => rintro rfl; exact hline
  case nextSlot => rintro rfl; exact hline
  case consume => rintro n rfl; exact hline

end Sys2Proof.Machine

/-! PROOFS. The plan of R150 to R157: its numbers by the parity of the start, where each of its shapes lies, and that the
shapes follow each other without a gap. -/

namespace Sys2Proof.Machine

variable (a : VpAddr) (l : Len)

/-! ## The byte of a lane (R64) -/

/-- The lanes of a slot hold its linear bytes from lane 3 downward. -/
theorem bulkLanes_getElem?_mod (b : Nat) : bulkLanes[b % 4]? = some (laneOfByte b) := by
  have hb : b % 4 < 4 := Nat.mod_lt _ (by decide)
  unfold laneOfByte
  generalize b % 4 = n at hb
  interval_cases n <;> rfl

theorem requestByte_add (k j : Nat) : requestByte a (k + j) = requestByte a k + j := (Nat.add_assoc ..).symm

/-- Both bytes of a VP word lie in its slot (R70). -/
theorem slotOfByte_requestByte {k : Nat} (hk : k < 2) : slotOfByte (requestByte a k) = slotOfVp a := by
  have hslot := slotOfVp_toNat a
  refine slotOfByte_eq ?_ ?_ <;> simp only [requestByte] <;> omega

theorem toNat_mod_two : a.toNat % 2 = if vpIsOdd a then 1 else 0 := by
  rw [vpIsOdd_eq]
  rcases Nat.mod_two_eq_zero_or_one a.toNat with h | h <;> simp [h]

/-- A VP word starts at the slot's first byte or at its third, by the parity of its address (R71). -/
theorem requestByte_mod_four {k : Nat} (hk : k < 2) :
    requestByte a k % 4 = (if vpIsOdd a then 2 else 0) + k := by
  have h := toNat_mod_two a
  cases ha : vpIsOdd a <;> simp only [ha, if_true, if_false, Bool.false_eq_true, requestByte] at h ⊢ <;> omega

theorem laneOfByte_requestByte {k : Nat} (hk : k < 2) :
    bulkLanes[(if vpIsOdd a then 2 else 0) + k]? = some (laneOfByte (requestByte a k)) := by
  rw [← requestByte_mod_four a hk, bulkLanes_getElem?_mod]

/-- Settles O46: the two bytes of a VP word are bytes 0 and 1 or bytes 2 and 3 of its slot, by the parity of its address. -/
theorem paritySelectsTheHalfOfTheSlot : Obligations.ParitySelectsTheHalfOfTheSlot := by
  unfold Obligations.ParitySelectsTheHalfOfTheSlot
  intro a
  have h0 := laneOfByte_requestByte a (k := 0) (by decide)
  have h1 := laneOfByte_requestByte a (k := 1) (by decide)
  refine ⟨slotOfByte_requestByte a (by decide), slotOfByte_requestByte a (by decide), fun ha => ?_, fun ha => ?_⟩ <;>
    rw [ha] at h0 h1
  · exact ⟨(Option.some.inj h0).symm, (Option.some.inj h1).symm⟩
  · exact ⟨(Option.some.inj h0).symm, (Option.some.inj h1).symm⟩

/-! ## The numbers of the plan (R155) -/

theorem planHead_of_even (h : vpIsOdd a = false) : planHead a l = 0 := by
  have hodd : planOdd a = 0 := by rw [planOdd, toNat_mod_two, h]; rfl
  rw [planHead, if_pos hodd]

theorem planHead_of_odd (h : vpIsOdd a = true) : planHead a l = min l.toNat 2 := by
  have hodd : planOdd a = 1 := by rw [planOdd, toNat_mod_two, h]; rfl
  rw [planHead, if_neg (by omega)]

theorem planHead_le : planHead a l ≤ l.toNat := by
  unfold planHead; split <;> omega

/-- Head, bulk transactions and tail carry the whole request. -/
theorem planHead_add_planBulk_add_planTail : planHead a l + 4 * planBulk a l + planTail a l = l.toNat := by
  have h := planHead_le a l
  simp only [planBulk, planTail, planRest]
  omega

theorem planTail_lt : planTail a l < 4 := Nat.mod_lt _ (by decide)

/-- Only an odd start has a head (R152). -/
theorem vpIsOdd_of_planHead_ne_zero (h : planHead a l ≠ 0) : vpIsOdd a = true := by
  cases ha : vpIsOdd a with
  | false => exact absurd (planHead_of_even a l ha) h
  | true => rfl

/-- What follows the head starts at a slot boundary (R155). -/
theorem requestByte_planHead (h : planHead a l < l.toNat) : requestByte a (planHead a l) = 4 * planStart a := by
  have hmod := toNat_mod_two a
  simp only [requestByte, planStart, planFirst, planOdd]
  cases ha : vpIsOdd a with
  | false =>
    simp only [ha, planHead_of_even a l ha, Bool.false_eq_true, if_false] at hmod ⊢
    omega
  | true =>
    simp only [ha, planHead_of_odd a l ha, if_true] at h hmod ⊢
    omega

/-- A request with a head starts in the second half of its slot. -/
theorem requestByte_of_head (h : planHead a l ≠ 0) : requestByte a 0 = 4 * planFirst a + 2 := by
  have hmod := toNat_mod_two a
  simp only [vpIsOdd_of_planHead_ne_zero a l h, if_true] at hmod
  simp only [requestByte, planFirst]
  omega

/-! ## How many shapes there are (R156) -/

theorem headShapes_length : (headShapes a l).length = if 0 < planHead a l then 1 else 0 := by
  unfold headShapes
  split
  · next h => rw [h]; rfl
  · next h => rw [if_pos (Nat.pos_of_ne_zero h)]; rfl

theorem bulkShapes_length : (bulkShapes a l).length = planBulk a l := by
  simp [bulkShapes]

theorem tailShapes_length : (tailShapes a l).length = if 0 < planTail a l then 1 else 0 := by
  unfold tailShapes
  split
  · next h => rw [h]; rfl
  · next h => rw [if_pos (Nat.pos_of_ne_zero h)]; rfl

theorem plan_length :
    (plan a l).length = (if 0 < planHead a l then 1 else 0) + planBulk a l + (if 0 < planTail a l then 1 else 0) := by
  rw [plan, List.length_append, List.length_append, headShapes_length, bulkShapes_length, tailShapes_length]

/-- From an even start every four bytes, and those left over, take a transaction. -/
theorem plan_length_of_even (h : vpIsOdd a = false) : (plan a l).length = (l.toNat + 3) / 4 := by
  rw [plan_length, planBulk, planTail, planRest, planHead_of_even a l h]
  split <;> split <;> omega

/-- From an odd start the head takes one for up to two bytes, and the rest goes as from an even start. -/
theorem plan_length_of_odd (h : vpIsOdd a = true) (hl : l.toNat ≠ 0) :
    (plan a l).length = 1 + (l.toNat - 2 + 3) / 4 := by
  rw [plan_length, planBulk, planTail, planRest, planHead_of_odd a l h]
  split_ifs <;> omega

theorem plan_zero : plan a 0 = [] := by
  have hsum : planHead a 0 + 4 * planBulk a 0 + planTail a 0 = 0 := planHead_add_planBulk_add_planTail a 0
  refine List.eq_nil_of_length_eq_zero ?_
  rw [plan_length]
  split_ifs <;> omega

/-- Settles O47, by the parity of the start. -/
theorem planHasTheStatedLength : Obligations.PlanHasTheStatedLength := by
  unfold Obligations.PlanHasTheStatedLength
  intro a l
  refine ⟨plan_length a l, ?_⟩
  by_cases hl : l = 0
  · subst hl
    rw [plan_zero]
    simp
  · have hpos : l.toNat ≠ 0 := fun h => hl (BitVec.eq_of_toNat_eq h)
    have hnine : l = 9 → l.toNat = 9 := fun h => h ▸ rfl
    simp only [hl, iff_false]
    cases ha : vpIsOdd a with
    | false =>
      have hlen := plan_length_of_even a l ha
      simp only [Bool.false_eq_true, false_and, true_and, or_false, false_implies, and_true]
      omega
    | true =>
      have hlen := plan_length_of_odd a l ha hpos
      simp only [Bool.true_eq_false, false_and, true_and, false_or, forall_const]
      exact ⟨by omega, by omega, fun h => by have := hnine h; omega⟩

end Sys2Proof.Machine

/-! PROOFS. Where the plan's shapes lie: together they carry the request's bytes once and in order, name its slots once and
in order, and each carries its bytes in the lanes of their linear addresses (R162). -/

namespace Sys2Proof.Machine

variable (a : VpAddr) (l : Len)

/-! ## The bytes (R162 (a)) -/

/-- The buffer indices a list of shapes carries, in order. -/
def carriedBytes (ps : List Shape) : List Nat := ps.flatMap fun p => List.range' p.first p.count

theorem carriedBytes_headShapes : carriedBytes (headShapes a l) = List.range' 0 (planHead a l) := by
  unfold headShapes
  split
  · next h => rw [h]; rfl
  · exact List.flatMap_singleton ..

/-- Runs of four indices that follow each other are one run. -/
theorem flatMap_range_fours (h n : Nat) :
    (List.range n).flatMap (fun j => List.range' (h + 4 * j) 4) = List.range' h (4 * n) := by
  induction n with
  | zero => rfl
  | succ n ih => rw [List.range_succ, List.flatMap_append, ih, List.flatMap_singleton, List.range'_append_1, Nat.mul_succ]

theorem carriedBytes_bulkShapes :
    carriedBytes (bulkShapes a l) = List.range' (planHead a l) (4 * planBulk a l) := by
  rw [carriedBytes, bulkShapes, List.flatMap_map]
  exact flatMap_range_fours _ _

theorem carriedBytes_tailShapes :
    carriedBytes (tailShapes a l) = List.range' (planHead a l + 4 * planBulk a l) (planTail a l) := by
  have hfirst : l.toNat - planTail a l = planHead a l + 4 * planBulk a l := by
    have := planHead_add_planBulk_add_planTail a l
    omega
  unfold tailShapes
  split
  · next h => rw [h]; rfl
  · rw [← hfirst]; exact List.flatMap_singleton ..

/-- Head, bulk shapes and tail follow each other without a gap. -/
theorem carriedBytes_plan : carriedBytes (plan a l) = List.range l.toNat := by
  calc carriedBytes (plan a l)
      = carriedBytes (headShapes a l) ++ carriedBytes (bulkShapes a l) ++ carriedBytes (tailShapes a l) := by
        simp only [carriedBytes, plan, List.flatMap_append]
    _ = List.range' 0 (planHead a l + 4 * planBulk a l + planTail a l) := by
        rw [carriedBytes_headShapes, carriedBytes_bulkShapes, carriedBytes_tailShapes]
        have happ := List.range'_append_1 (s := 0) (m := planHead a l) (n := 4 * planBulk a l)
        rw [Nat.zero_add] at happ
        rw [happ]
        have happ' := List.range'_append_1 (s := 0) (m := planHead a l + 4 * planBulk a l) (n := planTail a l)
        rwa [Nat.zero_add] at happ'
    _ = List.range l.toNat := by rw [planHead_add_planBulk_add_planTail, List.range_eq_range']

/-! ## The slots (R162 (b)) -/

/-- `n` consecutive slots from slot `s`. -/
def slotsFrom (s n : Nat) : List SlotAddr := (List.range' s n).map (BitVec.ofNat 24)

theorem slotsFrom_append (s m n : Nat) : slotsFrom s m ++ slotsFrom (s + m) n = slotsFrom s (m + n) := by
  rw [slotsFrom, slotsFrom, ← List.map_append, List.range'_append_1, slotsFrom]

theorem headShapes_slots :
    (headShapes a l).map Shape.slot = slotsFrom (planFirst a) (headShapes a l).length := by
  unfold headShapes; split <;> rfl

theorem bulkShapes_slots :
    (bulkShapes a l).map Shape.slot = slotsFrom (planStart a) (bulkShapes a l).length := by
  rw [bulkShapes_length, bulkShapes, slotsFrom, List.range'_eq_map_range, List.map_map, List.map_map]
  rfl

theorem tailShapes_slots :
    (tailShapes a l).map Shape.slot = slotsFrom (planStart a + planBulk a l) (tailShapes a l).length := by
  unfold tailShapes; split <;> rfl

/-- A request with bytes has a head exactly from an odd start, where the whole slots begin one slot later. -/
theorem planStart_eq (hl : l ≠ 0) : planStart a = planFirst a + (headShapes a l).length := by
  have hpos : l.toNat ≠ 0 := fun h => hl (BitVec.eq_of_toNat_eq h)
  have hmod := toNat_mod_two a
  rw [headShapes_length, planStart, planOdd, hmod]
  cases ha : vpIsOdd a with
  | false => rw [planHead_of_even a l ha]; rfl
  | true => rw [planHead_of_odd a l ha, if_pos rfl, if_pos (by omega)]

/-- The plan names consecutive slots, from the first byte's on. -/
theorem plan_slots (hl : l ≠ 0) : (plan a l).map Shape.slot = slotsFrom (planFirst a) (plan a l).length := by
  rw [plan, List.map_append, List.map_append, headShapes_slots, bulkShapes_slots, tailShapes_slots, planStart_eq a l hl,
    slotsFrom_append, ← bulkShapes_length a l, Nat.add_assoc, slotsFrom_append, List.length_append, List.length_append]

/-- As many slots as from the first byte's to the last byte's. -/
theorem plan_length_eq_slots (hl : l ≠ 0) :
    (plan a l).length = requestByte a (l.toNat - 1) / 4 + 1 - a.toNat / 2 := by
  have hpos : l.toNat ≠ 0 := fun h => hl (BitVec.eq_of_toNat_eq h)
  have hmod := toNat_mod_two a
  simp only [requestByte]
  cases ha : vpIsOdd a with
  | false =>
    rw [plan_length_of_even a l ha]
    simp only [ha, Bool.false_eq_true, if_false] at hmod
    omega
  | true =>
    rw [plan_length_of_odd a l ha hpos]
    simp only [ha, if_true] at hmod
    omega

/-! ## The lanes (R162 (c)) -/

/-- The mask of a head enables the lanes of a slot's third and fourth byte, as many as it carries (R110). -/
theorem maskLanes_headMask {n : Nat} (h : n ≠ 0) : maskLanes (headMask n) = (bulkLanes.drop 2).take (min n 2) := by
  unfold headMask
  split
  · next h1 =>
    obtain rfl : n = 1 := by omega
    rfl
  · rw [Nat.min_eq_right (by omega)]; rfl

/-- The mask of a bulk transaction enables the lanes of all four bytes (R111). -/
theorem maskLanes_fullMask : maskLanes fullMask = bulkLanes := by decide

/-- The mask of a tail enables the lanes of a slot's first bytes, as many as it carries (R111). -/
theorem maskLanes_tailMask {n : Nat} (h : n < 4) : maskLanes (tailMask n) = bulkLanes.take n := by
  interval_cases n <;> rfl

/-- A shape lies where the linear bytes of its request do (R72): in the slot of its first byte, in the lanes from that
byte's downward, as many as its bytes, and they do not leave the slot. -/
structure Shape.LiesIn (a : VpAddr) (p : Shape) : Prop where
  slot : p.slot = slotOfByte (requestByte a p.first)
  lanes : maskLanes p.lanes = (bulkLanes.drop (requestByte a p.first % 4)).take p.count
  fits : requestByte a p.first % 4 + p.count ≤ 4

variable {a l}

/-- A shape from a byte that is byte `o` of slot `s`. -/
theorem Shape.LiesIn.of_start {p : Shape} {s o : Nat} (hs : p.slot = BitVec.ofNat 24 s)
    (hb : requestByte a p.first = 4 * s + o) (ho : o + p.count ≤ 4) (hc : 0 < p.count)
    (hl : maskLanes p.lanes = (bulkLanes.drop o).take p.count) : p.LiesIn a := by
  have hmod : requestByte a p.first % 4 = o := by omega
  refine ⟨?_, by rw [hmod, hl], by rw [hmod]; exact ho⟩
  rw [hs, slotOfByte, hb]
  congr 1
  omega

theorem liesIn_of_mem_headShapes {p : Shape} (h : p ∈ headShapes a l) : p.LiesIn a := by
  unfold headShapes at h
  split at h
  · exact absurd h List.not_mem_nil
  · next hn =>
    obtain rfl := List.mem_singleton.mp h
    have hhead := planHead_of_odd a l (vpIsOdd_of_planHead_ne_zero a l hn)
    refine .of_start rfl (requestByte_of_head a l hn) ?_ (Nat.pos_of_ne_zero hn) ?_
    · show 2 + planHead a l ≤ 4
      omega
    · show maskLanes (headMask l.toNat) = (bulkLanes.drop 2).take (planHead a l)
      rw [hhead]
      exact maskLanes_headMask (by omega)

theorem liesIn_of_mem_bulkShapes {p : Shape} (h : p ∈ bulkShapes a l) : p.LiesIn a := by
  obtain ⟨j, hj, rfl⟩ := List.mem_map.mp h
  have hj' : j < planBulk a l := List.mem_range.mp hj
  have hsum := planHead_add_planBulk_add_planTail a l
  have hstart := requestByte_planHead a l (by omega)
  refine .of_start (o := 0) rfl ?_ (Nat.le_refl 4) (Nat.succ_pos 3) maskLanes_fullMask
  show requestByte a (planHead a l + 4 * j) = 4 * (planStart a + j) + 0
  rw [requestByte_add, hstart]
  omega

theorem liesIn_of_mem_tailShapes {p : Shape} (h : p ∈ tailShapes a l) : p.LiesIn a := by
  unfold tailShapes at h
  split at h
  · exact absurd h List.not_mem_nil
  · next hn =>
    obtain rfl := List.mem_singleton.mp h
    have hsum := planHead_add_planBulk_add_planTail a l
    have hlt := planTail_lt a l
    have hstart := requestByte_planHead a l (by omega)
    have hfirst : l.toNat - planTail a l = planHead a l + 4 * planBulk a l := by omega
    refine .of_start (o := 0) rfl ?_ (by show 0 + planTail a l ≤ 4; omega) (Nat.pos_of_ne_zero hn)
      (maskLanes_tailMask hlt)
    show requestByte a (l.toNat - planTail a l) = 4 * (planStart a + planBulk a l) + 0
    rw [hfirst, requestByte_add, hstart]
    omega

theorem liesIn_of_mem_plan {p : Shape} (h : p ∈ plan a l) : p.LiesIn a := by
  rw [plan, List.mem_append, List.mem_append] at h
  obtain (h | h) | h := h
  · exact liesIn_of_mem_headShapes h
  · exact liesIn_of_mem_bulkShapes h
  · exact liesIn_of_mem_tailShapes h

theorem Shape.LiesIn.lanes_length {p : Shape} (h : p.LiesIn a) : (maskLanes p.lanes).length = p.count := by
  have hfits := h.fits
  rw [h.lanes, List.length_take, List.length_drop]
  show min p.count (4 - _) = p.count
  omega

/-- The `j`-th byte of a shape has its own slot and lane. -/
theorem Shape.LiesIn.byte {p : Shape} (h : p.LiesIn a) {j : Nat} (hj : j < p.count) :
    p.slot = slotOfByte (requestByte a (p.first + j)) ∧
      (maskLanes p.lanes)[j]? = some (laneOfByte (requestByte a (p.first + j))) := by
  have hfits := h.fits
  have hmod : (requestByte a p.first + j) % 4 = requestByte a p.first % 4 + j := by omega
  have hdiv : (requestByte a p.first + j) / 4 = requestByte a p.first / 4 := by omega
  rw [requestByte_add, ← bulkLanes_getElem?_mod, hmod, h.lanes, List.getElem?_take_of_lt hj, List.getElem?_drop]
  exact ⟨by rw [h.slot, slotOfByte, slotOfByte, hdiv], rfl⟩

/-- Settles O48, from the three parts of R162: the bytes, the slots, and where each shape lies. -/
theorem planCarriesEveryByteOnce : Obligations.PlanCarriesEveryByteOnce := by
  unfold Obligations.PlanCarriesEveryByteOnce
  intro a l
  refine ⟨carriedBytes_plan a l, fun hl => ?_, fun p hp j hj => (liesIn_of_mem_plan hp).byte hj,
    fun p hp => (liesIn_of_mem_plan hp).lanes_length⟩
  rw [plan_slots a l hl, plan_length_eq_slots a l hl]
  rfl

end Sys2Proof.Machine

/-! PROOFS. The decoder and the encoder: what each register access and each `CTRL` value decodes to, the round trip in both
directions, and the reserved words. -/

namespace Sys2Proof

/-! ## The address fields (R109) -/

/-- The address fields of a `SET_TARGET` put together again (R109). -/
theorem addressFields_append (s : SlotAddr) : s.extractLsb' 16 8 ++ s.extractLsb' 8 8 ++ s.extractLsb' 0 8 = s :=
  Machine.addr_withAddr Machine.State.reset.hs s

/-- The address fields of a slot address built from three bytes (R109). -/
theorem addressFields_of_append (h m l : Byte) :
    (h ++ m ++ l).extractLsb' 16 8 = h ∧ (h ++ m ++ l).extractLsb' 8 8 = m ∧ (h ++ m ++ l).extractLsb' 0 8 = l :=
  ⟨(extract_high (h ++ m) l 8 8).trans ((extract_high h m 0 8).trans BitVec.extractLsb'_eq_self),
    (extract_high (h ++ m) l 0 8).trans (extract_low h m), extract_low _ l⟩

/-! ## Register accesses (R103, R114) -/

theorem decode_registerWrite (r : BitVec 4) (v : Byte) (rest : List PortWord) :
    decode (.hsev13 (registerEvent true r v) :: rest) = decodeRegisterWrite r v rest := by
  simp [decode]

theorem decode_registerRead (r : BitVec 4) (v : Byte) (rest : List PortWord) :
    decode (.hsev13 (registerEvent false r v) :: rest) = decodeRegisterRead r v rest := by
  simp [decode]

/-- Every `HSEV13` is a register access by its fields (R103). -/
theorem hsev13_eq_registerEvent (w : BitVec 13) : ∃ b r v, w = registerEvent b r v :=
  ⟨_, _, _, (registerEvent_fields w).symm⟩

theorem decodeRegisterWrite_target (h m l : Byte) (rest : List PortWord) :
    decodeRegisterWrite regAddrH h
        (.hsev13 (registerEvent true regAddrM m) :: .hsev13 (registerEvent true regAddrL l) :: rest) =
      .ok (.setTarget (h ++ m ++ l), rest) := by
  simp [decodeRegisterWrite]

theorem decodeRegisterWrite_autoInc (on : Bool) (rest : List PortWord) :
    decodeRegisterWrite regAutoInc (if on then 1 else 0) rest = .ok (.setAutoIncrement on, rest) := by
  cases on <;> rfl

theorem decodeRegisterWrite_ctrl {v : Byte} {i : Instr} (h : decodeControlWrite v = .ok i) (rest : List PortWord) :
    decodeRegisterWrite regCtrl v rest = .ok (i, rest) := by
  simp [decodeRegisterWrite, regCtrl, regAddrH, regAddrM, regAddrL, regAutoInc, h]

theorem decodeRegisterWrite_ctrl_error {v : Byte} {e : DecodeError} (h : decodeControlWrite v = .error e)
    (rest : List PortWord) : decodeRegisterWrite regCtrl v rest = .error e := by
  simp [decodeRegisterWrite, regCtrl, regAddrH, regAddrM, regAddrL, regAutoInc, h]

theorem decodeRegisterWrite_lane (l : Lane) (v : Byte) (rest : List PortWord) :
    decodeRegisterWrite (regLane l) v rest = .ok (.loadLane l v, rest) := by
  cases l <;> rfl

theorem decodeRegisterRead_ctrl (rest : List PortWord) : decodeRegisterRead regCtrl 0 rest = .ok (.pollCtrl, rest) := rfl

theorem decodeRegisterRead_lane (l : Lane) (rest : List PortWord) :
    decodeRegisterRead (regLane l) 0 rest = .ok (.readLane l, rest) := by
  cases l <;> rfl

/-! ## `CTRL` values (R105, R106, R114) -/

theorem decodeControl_start (d : Dir) (m : Mask) : decodeControl (controlStart d m) = .ok (.devComplete d m) := by
  obtain ⟨-, -, -, hclear⟩ := Machine.fields_of_ctrl (h := { Machine.State.reset.hs with ctrl := controlStart d m }) rfl
  have hres : controlReserved (controlStart d m) = false := by simpa [Machine.Handshake.reservedClear] using hclear
  rw [decodeControl, hres, controlHigh_start, controlLow_start]
  cases d <;> rfl

theorem decode_ctrl8 {c : Byte} {i : Instr} (h : decodeControl c = .ok i) (rest : List PortWord) :
    decode (.ctrl8 c :: rest) = .ok (i, rest) := by
  rw [decode, h]

theorem decodeControlWrite_write (m : Mask) : decodeControlWrite (controlStart .write m) = .ok (.executeWrite m) := by
  rw [decodeControlWrite, controlHigh_start, controlLow_start]; rfl

theorem decodeControlWrite_read (m : Mask) :
    decodeControlWrite (controlStart .read m) = if m = 0b1111 then .ok .executeRead else .error .maskedRead := by
  rw [decodeControlWrite, controlHigh_start, controlLow_start]; rfl

theorem decodeControlWrite_zero : decodeControlWrite 0 = .ok .release := rfl

/-- A `CTRL` value whose upper half starts a transaction is the value that starts it with its own mask. -/
theorem eq_controlStart {c : Byte} {d : Dir}
    (h : controlHigh c = match d with | .write => 0b1000#4 | .read => 0b1010#4) : c = controlStart d (controlLow c) := by
  cases d <;> exact (control_fields c).symm.trans (congrArg (· ++ controlLow c) h)

/-! ## Decoding what was encoded -/

/-- Settles O1, by the format of the operation: each of its words is decoded from the fields it was built from. -/
theorem decodeOfEncodeIsTheInstruction : Obligations.DecodeOfEncodeIsTheInstruction := by
  unfold Obligations.DecodeOfEncodeIsTheInstruction
  intro i rest
  cases i with
  | vpWrite a l => exact congrArg (fun j => Except.ok (j, rest)) (decodeRequest_write a l)
  | vpRead a l => exact congrArg (fun j => Except.ok (j, rest)) (decodeRequest_read a l)
  | setTarget s =>
    refine (decode_registerWrite _ _ _).trans ((decodeRegisterWrite_target _ _ _ rest).trans ?_)
    rw [addressFields_append]
  | setAutoIncrement on => exact (decode_registerWrite _ _ _).trans (decodeRegisterWrite_autoInc on rest)
  | loadLane l v => exact (decode_registerWrite _ _ _).trans (decodeRegisterWrite_lane l v rest)
  | readLane l => exact (decode_registerRead _ _ _).trans (decodeRegisterRead_lane l rest)
  | executeWrite m =>
    exact (decode_registerWrite _ _ _).trans (decodeRegisterWrite_ctrl (decodeControlWrite_write m) rest)
  | executeRead =>
    exact (decode_registerWrite _ _ _).trans (decodeRegisterWrite_ctrl (decodeControlWrite_read 0b1111) rest)
  | pollCtrl => exact (decode_registerRead _ _ _).trans (decodeRegisterRead_ctrl rest)
  | devComplete d m => exact decode_ctrl8 (decodeControl_start d m) rest
  | release => exact (decode_registerWrite _ _ _).trans (decodeRegisterWrite_ctrl decodeControlWrite_zero rest)
  | irqMask => rfl
  | irqRestore => rfl

/-! ## Encoding what was decoded -/

theorem Dir.bit_ofBit (b : Bool) : (Dir.ofBit b).bit = b := by cases b <;> rfl

/-- A request word is built from its three fields (R102). -/
theorem requestWord_fields (w : BitVec 33) :
    requestWord (.ofBit (w.getLsbD 32)) (w.extractLsb' 16 16) (w.extractLsb' 0 16) = w := by
  have hbit : BitVec.ofBool (Dir.ofBit (w.getLsbD 32)).bit = w.extractLsb' 32 1 := by
    apply BitVec.eq_of_getLsbD_eq
    intro i hi
    obtain rfl : i = 0 := by omega
    rw [Dir.bit_ofBit]
    simp
  have hhigh : w.extractLsb' 32 1 ++ w.extractLsb' 16 16 = w.extractLsb' 16 17 :=
    BitVec.extractLsb'_append_extractLsb'_eq_extractLsb' rfl
  have hall : w.extractLsb' 16 17 ++ w.extractLsb' 0 16 = w.extractLsb' 0 33 :=
    BitVec.extractLsb'_append_extractLsb'_eq_extractLsb' rfl
  rw [requestWord, hbit, hhigh, hall, BitVec.extractLsb'_eq_self]

theorem encode_decodeRequest (w : BitVec 33) : encode (decodeRequest w) = [.req33 w] := by
  have hw := requestWord_fields w
  unfold decodeRequest
  split
  · next hb => rw [hb] at hw; exact congrArg (fun v => [PortWord.req33 v]) hw
  · next hb => rw [Bool.eq_false_of_not_eq_true hb] at hw; exact congrArg (fun v => [PortWord.req33 v]) hw

theorem encode_decodeInterrupt (w : BitVec 1) : encode (decodeInterrupt w) = [.ieev1 w] := by
  revert w; decide

theorem encode_of_decodeControl {c : Byte} {i : Instr} (h : decodeControl c = .ok i) : encode i = [.ctrl8 c] := by
  unfold decodeControl at h
  split at h
  · cases h
  · split at h
    · next hc => cases h; exact congrArg (fun v => [PortWord.ctrl8 v]) (eq_controlStart (d := .write) hc).symm
    · split at h
      · next hc => cases h; exact congrArg (fun v => [PortWord.ctrl8 v]) (eq_controlStart (d := .read) hc).symm
      · cases h

theorem encode_of_decodeControlWrite {v : Byte} {i : Instr} (h : decodeControlWrite v = .ok i) :
    encode i = [.hsev13 (registerEvent true regCtrl v)] := by
  unfold decodeControlWrite at h
  split at h
  · next hc =>
    cases h
    exact congrArg (fun c => [PortWord.hsev13 (registerEvent true regCtrl c)]) (eq_controlStart (d := .write) hc).symm
  · split at h
    · next hc =>
      split at h
      · next hm =>
        cases h
        have hv := eq_controlStart (d := .read) hc
        rw [hm] at hv
        rw [hv]; rfl
      · cases h
    · split at h
      · next hv => cases h; rw [hv]; rfl
      · split at h <;> cases h

/-- A register write that decodes, with the words it takes, is the encoding of what it decodes to. -/
theorem encode_of_decodeRegisterWrite {r : BitVec 4} {v : Byte} {ws rest : List PortWord} {i : Instr}
    (h : decodeRegisterWrite r v ws = .ok (i, rest)) : .hsev13 (registerEvent true r v) :: ws = encode i ++ rest := by
  unfold decodeRegisterWrite at h
  split at h
  · next hr =>
    subst hr
    split at h
    · next m l ws' =>
      split at h
      · next hfields =>
        cases h
        simp only [Bool.and_eq_true, beq_iff_eq] at hfields
        obtain ⟨⟨⟨hmw, hmr⟩, hlw⟩, hlr⟩ := hfields
        obtain ⟨hh, hm, hl⟩ := addressFields_of_append v (eventVal m) (eventVal l)
        have hme := registerEvent_fields m
        have hle := registerEvent_fields l
        rw [hmw, hmr] at hme
        rw [hlw, hlr] at hle
        simp only [encode, hh, hm, hl, hme, hle, List.cons_append, List.nil_append]
      · cases h
    · cases h
  · split at h
    · cases h
    · split at h
      · next hr =>
        subst hr
        split at h
        · next hv => cases h; rw [hv]; rfl
        · split at h
          · next hv => cases h; rw [hv]; rfl
          · cases h
      · split at h
        · next hr =>
          subst hr
          split at h
          · next hc => cases h; rw [encode_of_decodeControlWrite hc]; rfl
          · cases h
        · split at h
          · next hl => cases h; simp only [encode, regLane_of_isLane r hl, List.cons_append, List.nil_append]
          · cases h

theorem encode_of_decodeRegisterRead {r : BitVec 4} {v : Byte} {ws rest : List PortWord} {i : Instr}
    (h : decodeRegisterRead r v ws = .ok (i, rest)) : .hsev13 (registerEvent false r v) :: ws = encode i ++ rest := by
  unfold decodeRegisterRead at h
  split at h
  · cases h
  · split at h
    · cases h
    · next hv =>
      obtain rfl : v = 0 := Decidable.not_not.mp hv
      split at h
      · next hr => cases h; rw [hr]; rfl
      · split at h
        · next hl => cases h; simp only [encode, regLane_of_isLane r hl, List.cons_append, List.nil_append]
        · cases h

/-- Settles O2, by the format of the first word. -/
theorem decodedWordsAreTheEncoding : Obligations.DecodedWordsAreTheEncoding := by
  unfold Obligations.DecodedWordsAreTheEncoding
  intro ws rest i h
  match ws, h with
  | .req33 w :: ws', h => cases h; rw [encode_decodeRequest]; rfl
  | .ieev1 w :: ws', h => cases h; rw [encode_decodeInterrupt]; rfl
  | .ctrl8 c :: ws', h =>
    simp only [decode] at h
    split at h
    · next hc => cases h; rw [encode_of_decodeControl hc]; rfl
    · cases h
  | .hsev13 w :: ws', h =>
    obtain ⟨b, r, v, rfl⟩ := hsev13_eq_registerEvent w
    cases b with
    | true => exact encode_of_decodeRegisterWrite ((decode_registerWrite r v ws').symm.trans h)
    | false => exact encode_of_decodeRegisterRead ((decode_registerRead r v ws').symm.trans h)

/-! ## The reserved words (R116) -/

theorem controlReserved_iff (c : Byte) : controlReserved c = true ↔ c.getLsbD 6 = true ∨ c.getLsbD 4 = true := by
  simp [controlReserved, Config.ctrlReservedBits]

theorem controlHigh_getLsbD (c : Byte) {i : Nat} (hi : i < 4) : (controlHigh c).getLsbD i = c.getLsbD (4 + i) := by
  simp [controlHigh, hi]

/-- The upper half of a value with bit 6 or bit 4 set is none that the formats give a meaning (R105). -/
theorem controlHigh_of_reserved {c : Byte} (h : c.getLsbD 6 = true ∨ c.getLsbD 4 = true) :
    controlHigh c ≠ 0b1000 ∧ controlHigh c ≠ 0b1010 ∧ controlHigh c ≠ 0b0010 ∧ controlHigh c ≠ 0b0000 := by
  rw [← controlHigh_getLsbD c (i := 2) (by decide), ← controlHigh_getLsbD c (i := 0) (by decide)] at h
  generalize controlHigh c = high at h ⊢
  revert high; decide

/-- The upper half of a value with `REQ = 0` and no reserved bit is the direction bit alone (R105). -/
theorem controlHigh_of_idle {c : Byte} (h7 : c.getLsbD 7 = false) (h6 : c.getLsbD 6 = false) (h4 : c.getLsbD 4 = false) :
    controlHigh c = 0b0010 ∨ controlHigh c = 0b0000 := by
  rw [← controlHigh_getLsbD c (i := 3) (by decide)] at h7
  rw [← controlHigh_getLsbD c (i := 2) (by decide)] at h6
  rw [← controlHigh_getLsbD c (i := 0) (by decide)] at h4
  generalize controlHigh c = high at h7 h6 h4 ⊢
  revert high; decide

theorem decodeControlWrite_reserved {c : Byte} (h : c.getLsbD 6 = true ∨ c.getLsbD 4 = true) :
    decodeControlWrite c = .error .reservedCtrlBits := by
  obtain ⟨hw, hr, hd, hz⟩ := controlHigh_of_reserved h
  have hc : c ≠ 0 := fun e => hz (e ▸ rfl)
  rw [decodeControlWrite, if_neg hw, if_neg hr, if_neg hc, if_neg]
  simp only [Bool.or_eq_true, decide_eq_true_eq, not_or]
  exact ⟨hd, hz⟩

theorem decodeControlWrite_idle {c : Byte} (h0 : c ≠ 0) (h : controlHigh c = 0b0010 ∨ controlHigh c = 0b0000) :
    decodeControlWrite c = .error .idleCtrlNotZero := by
  have hw : controlHigh c ≠ 0b1000 := by rcases h with h | h <;> rw [h] <;> decide
  have hr : controlHigh c ≠ 0b1010 := by rcases h with h | h <;> rw [h] <;> decide
  rw [decodeControlWrite, if_neg hw, if_neg hr, if_neg h0, if_pos]
  simpa only [Bool.or_eq_true, decide_eq_true_eq] using h

theorem decodeControl_reserved {c : Byte} (h : c.getLsbD 6 = true ∨ c.getLsbD 4 = true) :
    decodeControl c = .error .reservedCtrlBits :=
  if_pos ((controlReserved_iff c).mpr h)

theorem decode_ctrl8_error {c : Byte} {e : DecodeError} (h : decodeControl c = .error e) (rest : List PortWord) :
    decode (.ctrl8 c :: rest) = .error e := by
  rw [decode, h]

/-- A reserved index is none of the registers' (R104). -/
theorem regReserved_ne {r : BitVec 4} (h : regReserved r = true) :
    r ≠ regAddrH ∧ r ≠ regAddrM ∧ r ≠ regAddrL ∧ r ≠ regAutoInc ∧ r ≠ regCtrl ∧ regIsLane r = false := by
  revert r; decide

/-- An access to a reserved index is refused, read or write. -/
theorem decode_reservedIndex {r : BitVec 4} (h : regReserved r = true) (b : Bool) (v : Byte) (rest : List PortWord) :
    decode (.hsev13 (registerEvent b r v) :: rest) = .error .reservedIndex := by
  cases b with
  | true =>
    obtain ⟨hH, hM, hL, hA, hC, hl⟩ := regReserved_ne h
    rw [decode_registerWrite]
    simp [decodeRegisterWrite, hH, hM, hL, hA, hC, hl]
  | false => exact (decode_registerRead r v rest).trans (if_pos h)

theorem decodeRegisterWrite_autoInc_error {v : Byte} (h0 : v ≠ 0) (h1 : v ≠ 1) (rest : List PortWord) :
    decodeRegisterWrite regAutoInc v rest = .error .autoIncValue := by
  show (if v = 0 then _ else if v = 1 then _ else _) = _
  rw [if_neg h0, if_neg h1]

theorem decodeRegisterRead_not_readable {r : BitVec 4} (h : r ∈ [regAddrH, regAddrM, regAddrL, regAutoInc])
    (rest : List PortWord) : decodeRegisterRead r 0 rest = .error .registerNotReadable := by
  simp only [List.mem_cons, List.not_mem_nil, or_false] at h
  rcases h with rfl | rfl | rfl | rfl <;> rfl

/-- Settles O4: each reserved word falls to the test of its own field. -/
theorem reservedWordsAreRefused : Obligations.ReservedWordsAreRefused := by
  unfold Obligations.ReservedWordsAreRefused
  refine ⟨fun w rest hr => ?_, fun r rest hr => ?_, fun v rest h0 h1 => ?_, fun v rest hv => ⟨?_, ?_⟩,
    fun m rest hm => ?_, fun v rest h0 h7 h6 h4 => ?_⟩
  · rw [← registerEvent_fields w]
    exact decode_reservedIndex hr _ _ _
  · exact (decode_registerRead _ _ _).trans (decodeRegisterRead_not_readable hr rest)
  · exact (decode_registerWrite _ _ _).trans (decodeRegisterWrite_autoInc_error h0 h1 rest)
  · exact (decode_registerWrite _ _ _).trans (decodeRegisterWrite_ctrl_error (decodeControlWrite_reserved hv) rest)
  · exact decode_ctrl8_error (decodeControl_reserved hv) rest
  · refine (decode_registerWrite _ _ _).trans (decodeRegisterWrite_ctrl_error ?_ rest)
    rw [decodeControlWrite_read, if_neg hm]
  · exact (decode_registerWrite _ _ _).trans
      (decodeRegisterWrite_ctrl_error (decodeControlWrite_idle h0 (controlHigh_of_idle h7 h6 h4)) rest)

/-! ## The vectors of the spec (B1) -/

/-- Settles O3: the words of the table are evaluated. -/
theorem vectorWordsDecode : Obligations.VectorWordsDecode := by
  unfold Obligations.VectorWordsDecode
  decide

end Sys2Proof

/-! PROOFS. From words to steps: what is refused in every state, what the ports' turn does with each format of word, the
Device's turn by the stored `CTRL`, and the words that `withFetchWord` places. -/

namespace Sys2Proof.Machine

/-! ## What is refused in every state (R116, R133, R270) -/

theorem execExecuteWrite_zero (s : State) : execExecuteWrite 0 s = .refused .emptyMask := if_pos rfl

theorem execDevComplete_write_zero (s : State) : execDevComplete .write 0 s = .refused .emptyMask := if_pos ⟨rfl, rfl⟩

theorem execDevComplete_masked_read (s : State) {m : Mask} (hm : m ≠ fullMask) :
    execDevComplete .read m s = .refused .maskedRead := by
  have hdir : ¬ (Dir.read = .write ∧ m = 0) := nofun
  rw [execDevComplete, if_neg hdir, if_pos ⟨rfl, hm⟩]

/-- Settles O5: the tests for a reserved transaction come before all others. -/
theorem reservedTransactionsAreRefused : Obligations.ReservedTransactionsAreRefused := by
  unfold Obligations.ReservedTransactionsAreRefused
  exact fun s => ⟨execExecuteWrite_zero s, execDevComplete_write_zero s, fun m hm => execDevComplete_masked_read s hm⟩

/-- Settles O27: a lane read is an access to a register. -/
theorem outstandingTransactionRefusesLaneReads : Obligations.OutstandingTransactionRefusesLaneReads := by
  unfold Obligations.OutstandingTransactionRefusesLaneReads
  intro l s hr
  exact State.whenIdleBus_of_req hr

/-- While a transaction is outstanding every register access but a poll is refused. -/
theorem exec_register_of_req {s : State} {i : Instr} (hr : s.hs.req = true) (hi : i.formats.head? = some .hsev13)
    (hp : i ≠ .pollCtrl) : ∃ r, exec i s = .refused r := by
  have hbus : ∀ t : State, ∃ r, s.whenIdleBus t = .refused r := fun t => ⟨_, State.whenIdleBus_of_req hr⟩
  cases i with
  | setTarget a => exact hbus _
  | setAutoIncrement on => exact hbus _
  | loadLane l v => exact hbus _
  | readLane l => exact hbus _
  | executeWrite m =>
    by_cases hm : m = 0
    · exact ⟨_, if_pos hm⟩
    · obtain ⟨r, he⟩ := hbus (s.startTransaction .write m)
      exact ⟨r, (if_neg hm).trans he⟩
  | executeRead => exact hbus _
  | release => exact hbus _
  | pollCtrl => exact absurd rfl hp
  | vpWrite a l => cases hi
  | vpRead a l => cases hi
  | devComplete d m => cases hi
  | irqMask => cases hi
  | irqRestore => cases hi

/-! ## Words at the ports (R101, R205) -/

theorem frontWords_map_append (ws : List PortWord) (rest : List PortItem) :
    frontWords (ws.map .word ++ rest) = ws ++ frontWords rest := by
  induction ws with
  | nil => rfl
  | cons w ws ih => exact congrArg (w :: ·) ih

/-- The words of an operation at the front of the ports run it and are taken off. -/
theorem State.runWords_encode {s : State} {i : Instr} {rest : List PortItem}
    (hq : s.port.issue = (encode i).map .word ++ rest) : s.runWords = exec i (s.setIssue rest) := by
  have hdrop : ((encode i).map PortItem.word ++ rest).drop
      ((encode i ++ frontWords rest).length - (frontWords rest).length) = rest := by
    rw [List.length_append, Nat.add_sub_cancel]
    exact List.drop_left' (List.length_map _)
  simp only [State.runWords, hq, frontWords_map_append, decodeOfEncodeIsTheInstruction i (frontWords rest), hdrop]

theorem decode_frontWords_encode {s : State} {i : Instr} {rest : List PortItem}
    (hq : s.port.issue = (encode i).map .word ++ rest) :
    decode (frontWords s.port.issue) = .ok (i, frontWords rest) := by
  rw [hq, frontWords_map_append]
  exact decodeOfEncodeIsTheInstruction i (frontWords rest)

theorem State.runWordsWhenFree_of_free {s : State} (hb : s.blocked = false) : s.runWordsWhenFree = s.runWords :=
  if_neg (by rw [hb]; decide)

/-- Register words run where `State.MayRun` says so: no wait is on, or `CTRL.REQ = 1`, or they stand for a poll. -/
theorem State.runRegisterWords_of_mayRun {s : State} {i : Instr} {r : List PortWord}
    (hd : decode (frontWords s.port.issue) = .ok (i, r)) (h : s.MayRun i) : s.runRegisterWords = s.runWords := by
  by_cases hi : i = .pollCtrl
  · exact State.runRegisterWords_poll (hi ▸ hd)
  · have hmay : (if s.hs.req then s.runWords else s.runWordsWhenFree) = s.runWords := by
      rcases h with hb | hr | hp
      · rw [State.runWordsWhenFree_of_free hb, ite_self]
      · exact if_pos hr
      · exact absurd hp hi
    rw [← hmay, State.runRegisterWords, hd]
    cases i with
    | pollCtrl => exact absurd rfl hi
    | _ => rfl

theorem State.presentTurn_req33 {s : State} {w : BitVec 33} {rest : List PortItem}
    (hq : s.port.issue = .word (.req33 w) :: rest) :
    s.presentTurn = if s.eng.phase = .idle then s.runWordsWhenFree else s.runWords := by
  simp only [State.presentTurn, hq]

theorem State.presentTurn_hsev13 {s : State} {w : BitVec 13} {rest : List PortItem}
    (hq : s.port.issue = .word (.hsev13 w) :: rest) (hp : s.eng.phase = .idle) :
    s.presentTurn = s.runRegisterWords := by
  simp only [State.presentTurn, hq, if_pos hp]

theorem State.presentTurn_ieev1 {s : State} {w : BitVec 1} {rest : List PortItem}
    (hq : s.port.issue = .word (.ieev1 w) :: rest) (hp : s.eng.phase = .idle) :
    s.presentTurn = s.runWordsWhenFree := by
  simp only [State.presentTurn, hq, if_pos hp]

theorem State.presentTurn_ctrl8 {s : State} {c : Byte} {rest : List PortItem}
    (hq : s.port.issue = .word (.ctrl8 c) :: rest) : s.presentTurn = .refused .notOwner := by
  simp only [State.presentTurn, hq]

/-- The words of an operation, the first named with its format. -/
theorem encode_eq_cons (i : Instr) : ∃ w ws, encode i = w :: ws ∧ i.formats.head? = some w.format := by
  cases i <;> exact ⟨_, _, rfl, rfl⟩

/-- Where the ports take the words of an operation: between requests with no wait on, register words also while
`CTRL.REQ = 1`, and a poll always; inside a request they take request words. -/
def State.PortsTake (s : State) (i : Instr) : Prop :=
  s.eng.phase = .idle ∧ (s.blocked = false ∨ s.hs.req = true ∧ i.formats.head? = some .hsev13 ∨ i = .pollCtrl) ∨
    s.eng.phase ≠ .idle ∧ ∃ d a l, i = requestInstr d a l

/-- Between requests an operation that is no register access is taken with no wait on only. -/
theorem State.PortsTake.free {s : State} {i : Instr} (h : s.PortsTake i) (hp : s.eng.phase = .idle)
    (hi : i.formats.head? ≠ some .hsev13) : s.blocked = false := by
  rcases h with ⟨-, hb | ⟨-, hf⟩ | rfl⟩ | ⟨hn, -⟩
  · exact hb
  · exact absurd hf hi
  · exact absurd rfl hi
  · exact absurd hp hn

/-- A request is presented as a `REQ33`. -/
theorem requestInstr_formats (d : Dir) (a : VpAddr) (l : Len) : (requestInstr d a l).formats = [.req33] := by
  cases d <;> rfl

/-- What the ports take inside a request is a request word. -/
theorem State.PortsTake.idle {s : State} {i : Instr} (h : s.PortsTake i) (hi : i.formats.head? ≠ some .req33) :
    s.eng.phase = .idle := by
  rcases h with ⟨hp, -⟩ | ⟨-, d, a, l, rfl⟩
  · exact hp
  · exact absurd (by rw [requestInstr_formats]; rfl) hi

theorem State.PortsTake.mayRun {s : State} {i : Instr} (h : s.PortsTake i) (hp : s.eng.phase = .idle) : s.MayRun i := by
  rcases h with ⟨-, hb | ⟨hr, -⟩ | he⟩ | ⟨hn, -⟩
  · exact .inl hb
  · exact .inr (.inl hr)
  · exact .inr (.inr he)
  · exact absurd hp hn

/-- The ports' turn runs the operation whose words stand first, by the format of its first word. -/
theorem State.presentTurn_encode {s : State} {i : Instr} {rest : List PortItem}
    (hq : s.port.issue = (encode i).map .word ++ rest) (hi : ∀ d m, i ≠ .devComplete d m) (h : s.PortsTake i) :
    s.presentTurn = exec i (s.setIssue rest) := by
  rw [← State.runWords_encode hq]
  obtain ⟨w, ws, he, hf⟩ := encode_eq_cons i
  have hq' : s.port.issue = .word w :: (ws.map .word ++ rest) := by rw [hq, he]; rfl
  cases w with
  | req33 w =>
    rw [State.presentTurn_req33 hq']
    by_cases hp : s.eng.phase = .idle
    · rw [if_pos hp, State.runWordsWhenFree_of_free (h.free hp (by rw [hf]; nofun))]
    · rw [if_neg hp]
  | hsev13 w =>
    have hp := h.idle (by rw [hf]; nofun)
    rw [State.presentTurn_hsev13 hq' hp, State.runRegisterWords_of_mayRun (decode_frontWords_encode hq) (h.mayRun hp)]
  | ieev1 w =>
    have hp := h.idle (by rw [hf]; nofun)
    rw [State.presentTurn_ieev1 hq' hp, State.runWordsWhenFree_of_free (h.free hp (by rw [hf]; nofun))]
  | ctrl8 c =>
    cases i with
    | devComplete d m => exact absurd rfl (hi d m)
    | _ => cases hf

/-- A word that writes a register is no poll's. -/
theorem decode_ne_pollCtrl_of_isWrite {w : BitVec 13} {ws rest : List PortWord} {i : Instr}
    (hd : decode (.hsev13 w :: ws) = .ok (i, rest)) (hw : eventIsWrite w = true) : i ≠ .pollCtrl := by
  rintro rfl
  have he := decodedWordsAreTheEncoding _ _ _ hd
  simp only [encode, List.cons_append, List.cons.injEq, PortWord.hsev13.injEq] at he
  rw [he.1, eventIsWrite_registerEvent] at hw
  cases hw

theorem formats_of_decode_hsev13 {w : BitVec 13} {ws rest : List PortWord} {i : Instr}
    (hd : decode (.hsev13 w :: ws) = .ok (i, rest)) : i.formats.head? = some .hsev13 := by
  have he := decodedWordsAreTheEncoding _ _ _ hd
  obtain ⟨w', ws', hi, hf⟩ := encode_eq_cons i
  rw [hi] at he
  cases he
  exact hf

/-- A register write at the ports while `CTRL.REQ = 1` is refused, whatever it writes (R116, R270). -/
theorem State.runRegisterWords_of_req {s : State} {w : BitVec 13} {rest : List PortItem}
    (hq : s.port.issue = .word (.hsev13 w) :: rest) (hr : s.hs.req = true) (hw : eventIsWrite w = true) :
    ∃ r, s.runRegisterWords = .refused r := by
  have hfront : frontWords s.port.issue = .hsev13 w :: frontWords rest := by rw [hq]; rfl
  cases hd : decode (frontWords s.port.issue) with
  | error e => exact ⟨_, State.runRegisterWords_error hd⟩
  | ok p =>
    obtain ⟨i, r⟩ := p
    rw [State.runRegisterWords_of_mayRun hd (.inr (.inl hr))]
    simp only [State.runWords, hd]
    rw [hfront] at hd
    exact exec_register_of_req hr (formats_of_decode_hsev13 hd) (decode_ne_pollCtrl_of_isWrite hd hw)

/-- Settles O6: each clause is the ports' turn for the format of the first word. -/
theorem stepRunsThePresentedWords : Obligations.StepRunsThePresentedWords := by
  unfold Obligations.StepRunsThePresentedWords
  refine ⟨fun s i rest hn hq hi h => ?_, fun s w rest hn hq hp => ⟨fun e he => ?_, fun hr hw => ?_⟩,
    fun s c rest hn hq => ?_⟩
  · exact (step_of_turn hn).trans (State.presentTurn_encode (s := s.popTurn) hq hi h)
  · exact (step_of_turn hn).trans
      ((State.presentTurn_hsev13 (s := s.popTurn) hq hp).trans (State.runRegisterWords_error he))
  · obtain ⟨r, he⟩ := State.runRegisterWords_of_req (s := s.popTurn) hq hr hw
    exact ⟨r, (step_of_turn hn).trans ((State.presentTurn_hsev13 (s := s.popTurn) hq hp).trans he)⟩
  · exact (step_of_turn hn).trans (State.presentTurn_ctrl8 (s := s.popTurn) hq)

/-! ## The Device's turn (R114, R137) -/

theorem State.deviceTurn_start {s : State} {d : Dir} {m : Mask} (h : s.hs.ctrl = controlStart d m) :
    s.deviceTurn = exec (.devComplete d m) s := by
  simp only [State.deviceTurn, h, decode_ctrl8 (decodeControl_start d m) []]

theorem State.deviceTurn_reserved {s : State} (h : s.hs.ctrl.getLsbD 6 = true ∨ s.hs.ctrl.getLsbD 4 = true) :
    s.deviceTurn = .refused (.reservedWord .reservedCtrlBits) := by
  simp only [State.deviceTurn, decode_ctrl8_error (decodeControl_reserved h) []]

/-- A stored `CTRL` with `REQ = 0` and no reserved bit leaves the Device idle. -/
theorem State.deviceTurn_idle {s : State} (h6 : s.hs.ctrl.getLsbD 6 = false) (h4 : s.hs.ctrl.getLsbD 4 = false)
    (hr : s.hs.req = false) : s.deviceTurn = .next s := by
  have hres : ¬ controlReserved s.hs.ctrl = true := by rw [controlReserved_iff, h6, h4]; decide
  rw [State.deviceTurn_eq, if_neg hres]
  rcases controlHigh_of_idle (c := s.hs.ctrl) hr h6 h4 with h | h <;>
    rw [if_neg (by rw [h]; decide), if_neg (by rw [h]; decide)]

/-- Settles O8: each clause is the Device's turn for such a stored `CTRL`. -/
theorem stepRunsTheDevice : Obligations.StepRunsTheDevice := by
  unfold Obligations.StepRunsTheDevice
  intro s hn
  rw [step_of_turn hn]
  exact ⟨fun d m h => State.deviceTurn_start (s := s.popTurn) h, fun h => State.deviceTurn_reserved (s := s.popTurn) h,
    fun h6 h4 hr => State.deviceTurn_idle (s := s.popTurn) h6 h4 hr⟩

/-! ## Placed words (opcode table) -/

/-- The bits of an opcode-table row are the encoding of the operation they decode to. -/
theorem tableWords_eq_encode {nbits w : Nat} {i : Instr} (h : decodeTableWord nbits w = some i) :
    tableWords nbits w = encode i := by
  unfold decodeTableWord at h
  split at h
  · next j hd =>
    cases h
    exact (decodedWordsAreTheEncoding _ _ _ hd).trans (List.append_nil _)
  · cases h

/-- Words of an operation of the Engine's or the Requester's are placed at the ports, and presenting them is next. -/
theorem State.placeWords_encode (s : State) {i : Instr} (hi : ∀ d m, i ≠ .devComplete d m) :
    s.placeWords (encode i) =
      { s.setIssue ((encode i).map .word ++ s.port.issue) with sched := .present :: s.sched } := by
  cases i with
  | devComplete d m => exact absurd rfl (hi d m)
  | _ => rfl

/-- Settles O12: the placed words are the operation's encoding, which the ports or the Device take at the next step. -/
theorem placedWordRunsNext : Obligations.PlacedWordRunsNext := by
  unfold Obligations.PlacedWordRunsNext
  intro s nbits w i hi
  rw [State.withFetchWord, tableWords_eq_encode hi]
  refine ⟨fun hp hb hne => ?_, ?_⟩
  · obtain ⟨hports, -⟩ := stepRunsThePresentedWords
    rw [s.placeWords_encode hne]
    exact hports _ i s.port.issue rfl rfl hne (.inl ⟨hp, .inl hb⟩)
  · rintro d m rfl
    have hturn : (s.placeWords (encode (.devComplete d m))).nextTurn = .device := rfl
    obtain ⟨hstart, -⟩ := stepRunsTheDevice _ hturn
    exact hstart d m rfl

end Sys2Proof.Machine

/-! PROOFS. The lines of the phases against the masks of their transactions, and the masks of the plan (R110 to R112). -/

namespace Sys2Proof.Machine

/-! ## The lanes of a line (R110 to R112) -/

theorem headLanes_eq_maskLanes {n : Nat} (h1 : 1 ≤ n) (h2 : n ≤ 2) : headLanes n = maskLanes (headMask n) := by
  rw [maskLanes_headMask (by omega), Nat.min_eq_left h2]; rfl

theorem tailLanes_eq_take (n : Nat) : tailLanes n = bulkLanes.take (min n 3) := by
  rw [← List.take_take]; rfl

theorem tailLanes_eq_maskLanes {n : Nat} (h : n ≤ 3) : tailLanes n = maskLanes (tailMask n) := by
  rw [maskLanes_tailMask (by omega), tailLanes_eq_take, Nat.min_eq_left h]

/-- Settles O51, from what the masks enable. -/
theorem stagedLanesAreTheEnabledLanes : Obligations.StagedLanesAreTheEnabledLanes := by
  unfold Obligations.StagedLanesAreTheEnabledLanes
  exact ⟨fun _ h1 h2 => headLanes_eq_maskLanes h1 h2, maskLanes_fullMask.symm, fun _ _ h3 => tailLanes_eq_maskLanes h3⟩

/-! ## The lines of the read path (R180, R181) -/

theorem filterMap_extracts_oneByOne (ls : List Lane) : (oneByOne .extract ls).filterMap Micro.extracts = ls := by
  induction ls with
  | nil => rfl
  | cons l ls ih => exact congrArg (l :: ·) ih

theorem filterMap_extracts_atOffsets (ls : List Lane) (k : Nat) :
    (atOffsets .extract k ls).filterMap Micro.extracts = ls := by
  induction ls generalizing k with
  | nil => rfl
  | cons l ls ih => exact congrArg (l :: ·) (ih (k + 1))

theorem filterMap_extracts_headLines (n : Nat) : (headLines .read n).filterMap Micro.extracts = headLanes n := by
  rw [headLines_eq, List.filterMap_append]
  exact (List.append_nil _).trans (filterMap_extracts_oneByOne _)

theorem filterMap_extracts_tailLines (n : Nat) : (tailLines .read n).filterMap Micro.extracts = tailLanes n := by
  rw [tailLines_eq, List.filterMap_append]
  exact (List.append_nil _).trans (filterMap_extracts_atOffsets _ 0)

/-- An `EXECUTE_READ` starts a read of all four lanes (R135). -/
theorem exec_executeRead_of_idle {s : State} (h : s.hs.req = false) :
    ∃ t, exec .executeRead s = .next t ∧ t.hs.mask = 0b1111 ∧ t.hs.dir = .read :=
  ⟨_, State.whenIdleBus_of_idle h, mask_start s.hs .read fullMask, dir_start s.hs .read fullMask⟩

/-- Settles O11: the lines are the definitions', and the lanes extracted are those the masks name. -/
theorem phaseLinesAreThePseudocode : Obligations.PhaseLinesAreThePseudocode := by
  unfold Obligations.PhaseLinesAreThePseudocode
  refine ⟨rfl, rfl, rfl, rfl, rfl, rfl, rfl, rfl, rfl, rfl, rfl, rfl, rfl, rfl, fun n h1 h2 => ?_, rfl,
    fun n _ h3 => ?_, fun s h => exec_executeRead_of_idle h⟩
  · rw [filterMap_extracts_headLines, headLanes_eq_maskLanes h1 h2]
  · rw [filterMap_extracts_tailLines, tailLanes_eq_maskLanes h3]

/-! ## The masks of the plan (R110, R111, R157) -/

/-- The mask of a head leaves the lanes of the slot's first half out (R110). -/
theorem headMask_getLsbD (n : Nat) : (headMask n).getLsbD 3 = false ∧ (headMask n).getLsbD 2 = false := by
  unfold headMask
  split <;> decide

/-- The mask of a tail leaves lane 0 out (R111). -/
theorem tailMask_getLsbD_zero (n : Nat) : (tailMask n).getLsbD 0 = false := by
  unfold tailMask
  split <;> decide

/-- The masks of the tails there are (R111). -/
theorem tailMask_cases {n : Nat} (h0 : n ≠ 0) (h : n < 4) :
    n = 1 ∧ tailMask n = 0b1000 ∨ n = 2 ∧ tailMask n = 0b1100 ∨ n = 3 ∧ tailMask n = 0b1110 := by
  interval_cases n
  · exact absurd rfl h0
  · exact .inl ⟨rfl, rfl⟩
  · exact .inr (.inl ⟨rfl, rfl⟩)
  · exact .inr (.inr ⟨rfl, rfl⟩)

variable (a : VpAddr) (l : Len)

theorem headShapes_of_even (h : vpIsOdd a = false) : headShapes a l = [] := if_pos (planHead_of_even a l h)

/-- From an odd start a request with bytes has a head (R152). -/
theorem headShapes_of_odd (h : vpIsOdd a = true) (hl : l ≠ 0) :
    headShapes a l = [⟨BitVec.ofNat 24 (planFirst a), headMask l.toNat, 0, planHead a l, false⟩] := by
  have hpos : l.toNat ≠ 0 := fun e => hl (BitVec.eq_of_toNat_eq e)
  exact if_neg (by rw [planHead_of_odd a l h]; omega)

theorem headMask_toNat (hl : l ≠ 0) : headMask l.toNat = if l = 1 then 0b0010 else 0b0011 := by
  have hpos : l.toNat ≠ 0 := fun e => hl (BitVec.eq_of_toNat_eq e)
  have hone : l.toNat ≤ 1 ↔ l = 1 :=
    ⟨fun h => BitVec.eq_of_toNat_eq (by show l.toNat = 1; omega), fun h => by rw [h]; decide⟩
  simp only [headMask, hone]

/-- A tail of the plan carries the bytes that fill no slot, with their mask (R154). -/
theorem mem_tailShapes {p : Shape} (h : p ∈ tailShapes a l) :
    planTail a l ≠ 0 ∧ p.count = planTail a l ∧ p.lanes = tailMask (planTail a l) := by
  unfold tailShapes at h
  split at h
  · exact absurd h List.not_mem_nil
  · next hn =>
    obtain rfl := List.mem_singleton.mp h
    exact ⟨hn, rfl, rfl⟩

/-- Settles O50, by the three parts of the plan. -/
theorem masksOfTheTransactions : Obligations.MasksOfTheTransactions := by
  unfold Obligations.MasksOfTheTransactions
  intro a l hl
  refine ⟨fun ha => ?_, headShapes_of_even a l, fun p hp => ?_, fun p hp => ?_, fun _ _ => rfl, rfl⟩
  · obtain ⟨h3, h2⟩ := headMask_getLsbD l.toNat
    have hhead := headShapes_of_odd a l ha hl
    refine ⟨_, bulkShapes a l ++ tailShapes a l, ?_, hhead, headMask_toNat l hl, h3, h2⟩
    rw [plan, hhead]; rfl
  · obtain ⟨hn, hcount, hlanes⟩ := mem_tailShapes a l hp
    have hlt := planTail_lt a l
    rw [hcount, hlanes]
    exact ⟨tailMask_getLsbD_zero _, tailMask_cases hn hlt, (tailLanes_eq_maskLanes (by omega)).symm⟩
  · obtain ⟨j, -, rfl⟩ := List.mem_map.mp hp
    rfl

end Sys2Proof.Machine

/-! PROOFS. The transactions that the passes of a request issue, each named by its shape: `Issues` says of a run between two
places of a request which transactions it starts, and that the host, the parameters and the ports see nothing of it. -/

namespace Sys2Proof.Machine

/-! ## What a request leaves alone till its end -/

/-- The host, the parameters, the items at the ports and the count of `done` are the same. -/
def State.SameOutside (s t : State) : Prop :=
  t.host = s.host ∧ t.par = s.par ∧ t.port.issue = s.port.issue ∧ t.port.dones = s.port.dones

theorem State.SameOutside.refl (s : State) : s.SameOutside s := ⟨rfl, rfl, rfl, rfl⟩

theorem State.SameOutside.trans {s t u : State} (h : s.SameOutside t) (h' : t.SameOutside u) : s.SameOutside u := by
  obtain ⟨hhost, hpar, hissue, hdones⟩ := h
  obtain ⟨hhost', hpar', hissue', hdones'⟩ := h'
  exact ⟨hhost'.trans hhost, hpar'.trans hpar, hissue'.trans hissue, hdones'.trans hdones⟩

/-- Of the lines only the last one of a request is seen outside (R199). -/
theorem LineStep.sameOutside {s t : State} {m : Micro} (h : LineStep s m t) (hm : m ≠ .finish) : s.SameOutside t := by
  cases m with
  | setSlot => obtain rfl : t = _ := h; exact .refl s
  | nextSlot => obtain rfl : t = _ := h; exact .refl s
  | target => obtain ⟨-, rfl⟩ := h; exact .refl s
  | autoInc on => obtain ⟨-, rfl⟩ := h; exact .refl s
  | stage l off => obtain ⟨-, v, -, rfl⟩ := h; exact .refl s
  | executeWrite k => obtain ⟨-, -, rfl⟩ := h; exact .refl s
  | executeRead => obtain ⟨-, rfl⟩ := h; exact .refl s
  | extract l off => obtain ⟨-, b, -, -, rfl⟩ := h; exact .refl s
  | consume n => obtain rfl : t = _ := h; exact .refl s
  | release => obtain ⟨-, rfl⟩ := h; exact .refl s
  | finish => exact absurd rfl hm

theorem State.complete_port (s : State) : s.complete.port = s.port := by
  cases hd : s.hs.dir with
  | write => rw [State.complete_write hd]
  | read => rw [State.complete_read hd]

/-- A Device that always acknowledges goes on doing so. -/
theorem State.complete_sameOutside {s : State} (ha : s.par.acks = none) : s.SameOutside s.complete := by
  have hacked : s.par.acked = s.par := by
    obtain ⟨eng, hs, vpm, buf, host, ⟨unbacked, acks, env⟩, port, sched⟩ := s
    cases ha; rfl
  obtain ⟨-, -, hpar⟩ := s.complete_frame
  exact ⟨s.complete_host, hpar.trans hacked, by rw [s.complete_port], by rw [s.complete_port]⟩

/-! ## Runs that issue named transactions -/

/-- Every run that shows `c` shows `c'` after the same number of steps, having started the transactions `D`, and nothing of it
is seen outside. -/
def Issues (B : SlotAddr → Prop) (D : List Descriptor) (c c' : Shared) : Prop :=
  ∃ n, ∀ ie s, Shows B ie c s → ∃ t, RunIssues n s D t ∧ s.SameOutside t ∧ Shows B ie c' t

variable {B : SlotAddr → Prop}

theorem Issues.refl (c : Shared) : Issues B [] c c := ⟨0, fun _ s hs => ⟨s, .refl s, .refl s, hs⟩⟩

theorem Issues.trans {D E : List Descriptor} {c c' c'' : Shared} (h : Issues B D c c') (h' : Issues B E c' c'') :
    Issues B (D ++ E) c c'' := by
  obtain ⟨n, h⟩ := h
  obtain ⟨m, h'⟩ := h'
  refine ⟨n + m, fun ie s hs => ?_⟩
  obtain ⟨t, hrun, hout, ht⟩ := h ie s hs
  obtain ⟨u, hrun', hout', hu⟩ := h' ie t ht
  exact ⟨u, hrun.trans hrun', hout.trans hout', hu⟩

/-- After steps that start no transaction. -/
theorem Issues.after {D : List Descriptor} {c c' c'' : Shared} (h' : Issues B D c' c'') (h : Issues B [] c c') :
    Issues B D c c'' := h.trans h'

/-- Before steps that start no transaction. -/
theorem Issues.before {D : List Descriptor} {c c' c'' : Shared} (h : Issues B D c c') (h' : Issues B [] c' c'') :
    Issues B D c c'' := by
  simpa only [List.append_nil] using h.trans h'

/-- A line that starts no transaction is one step. -/
theorem Carries.issues {c c' : Shared} {m : Micro} {rest : List Micro} (h : Carries B m (c.goOn rest) c')
    (hm : m ≠ .finish) : Issues B [] (c.goOn (m :: rest)) c' := by
  refine ⟨1, fun ie s hs => ?_⟩
  obtain ⟨t, hl, ht⟩ := h ie _ hs.popLine
  exact ⟨t, .of_step_silent (step_line hs.sched hs.req hs.waiting_eq hs.todo_eq hl) (.inr ht.req), hl.sameOutside hm, ht⟩

/-- With its lines carried out a phase is left in one step. -/
theorem issues_leavePhase (c : Shared) {p : Phase} {q : List Micro} (hp : p ≠ .idle)
    (h : ∀ s : State, s.eng.phase = c.eng.phase → s.eng.op = c.eng.op → s.eng.vp = c.eng.vp → s.eng.rem = c.eng.rem →
      s.leavePhase = s.enterPhase p q) :
    Issues B [] (c.goOn []) (c.enter p q) := by
  refine ⟨1, fun ie s hs => ?_⟩
  have hbusy : s.eng.phase ≠ .idle := by rw [hs.eng]; exact hs.busy
  have hleave : s.leavePhase = s.enterPhase p q := by
    apply h <;> rw [hs.eng] <;> rfl
  have hstep := step_leavePhase hs.sched hs.req hs.waiting_eq hs.todo_eq hbusy
  rw [hleave] at hstep
  exact ⟨_, .of_step_silent hstep (.inr hs.req), .refl s,
    { hs with busy := hp, eng := by rw [State.enterPhase_eng, hs.eng]; rfl }⟩

/-! ## One transaction, of either direction -/

/-- The transaction that the common part of the state determines. -/
def Shared.issued (c : Shared) (d : Dir) (k : Mask) : Descriptor where
  dir := d
  slot := c.addr
  mask := k
  payload := match d with
    | .write => (maskLanes k).map c.lanes.get
    | .read => c.vpm.slotBytes c.addr
  autoinc := c.inc.getLsbD 0

/-- After a transaction with mask `k`. -/
def Shared.after (c : Shared) (d : Dir) (k : Mask) : Shared :=
  match d with
  | .write => c.wrote k
  | .read => c.fetched

/-- The lanes a transaction takes from the registers are known: a read takes none. -/
def Shared.Ready (c : Shared) (d : Dir) (k : Mask) : Prop := d = .write → ∀ x, laneEnabled k x = true → x ∈ c.known

theorem Shows.lanes_of_ready {c : Shared} {ie : Bool} {s : State} (h : Shows B ie c s) {k : Mask}
    (hk : c.Ready .write k) : ∀ x, laneEnabled k x = true → s.hs.lanes.get x = c.lanes.get x :=
  fun x hx => h.lanes x (hk rfl x hx)

theorem Shows.descriptor_of_start {c : Shared} {ie : Bool} {s : State} (h : Shows B ie c s) {d : Dir} {k : Mask}
    (hk : c.Ready d k) : (s.startTransaction d k).descriptor = c.issued d k := by
  rw [State.descriptor_of_start, Handshake.advances, h.addr, h.inc]
  cases d with
  | write => exact congrArg (Descriptor.mk .write c.addr k · _) (map_maskLanes_congr (h.lanes_of_ready hk))
  | read => rw [h.vpm]; rfl

theorem Shows.after_start {c : Shared} {ie : Bool} {s : State} (h : Shows B ie c s) {d : Dir} {k : Mask}
    (hk : c.Ready d k) (v : Byte) :
    Shows B ie (c.after d k) (((s.startTransaction d k).complete.setReadData v).setWaiting false) := by
  have hdir : (s.startTransaction d k).hs.dir = d := dir_start _ d k
  have hmask : (s.startTransaction d k).hs.mask = k := mask_start _ d k
  cases d with
  | write =>
    refine h.afterTransaction rfl (fun x hx => ?_) ?_
    · rw [State.complete_lanes_of_write hdir]; exact h.lanes x hx
    · rw [State.complete_write hdir, hmask]
      show s.vpm.storeLanes s.hs.addr k s.hs.lanes = _
      rw [h.vpm, h.addr]
      exact Memory.storeLanes_congr (h.lanes_of_ready hk) _ _
  | read =>
    refine h.afterTransaction rfl (fun x _ => ?_) ?_
    · rw [State.complete_lanes_of_read hdir]
      show (s.vpm.slot s.hs.addr).get x = _
      rw [h.vpm, h.addr]
    · rw [State.complete_vpm_of_read hdir]; exact h.vpm

/-- A line that starts a transaction issues it. -/
theorem issues_transaction (c : Shared) {m : Micro} {d : Dir} {k : Mask} (rest : List Micro)
    (hm : ∀ s : State, s.hs.req = false → LineStep s m (s.startTransaction d k)) (hl : transactionLegal d k = true)
    (hk : c.Ready d k) (hB : B c.addr) :
    Issues B [c.issued d k] (c.goOn (m :: rest)) ((c.after d k).goOn rest) := by
  refine ⟨3, fun ie s hs => ?_⟩
  have hpop : Shows B ie (c.goOn rest) s.popLine := hs.popLine
  have hslot : s.par.slotBacked s.hs.addr = true := by rw [hs.addr]; exact hs.backed _ hB
  obtain ⟨v, hrun⟩ := runIssues_transaction hs.sched hs.req hs.waiting_eq hs.todo_eq (hm _ hs.req) hl hslot hs.acks
  rw [hpop.descriptor_of_start (d := d) hk] at hrun
  have hshows := hpop.after_start (d := d) hk v
  refine ⟨_, hrun, (s.popLine.startTransaction d k).complete_sameOutside hs.acks, ?_⟩
  cases d <;> exact hshows

/-! ## The lines that move a byte -/

/-- The line that moves a byte: it stages or extracts (R171, R181). -/
def moveLine : Dir → Lane → Nat → Micro
  | .write => .stage
  | .read => .extract

/-- A byte moved between a lane and the buffer. -/
def Shared.move (c : Shared) (d : Dir) (x : Lane) (off : Nat) : Shared :=
  match d with
  | .write => c.load x (c.buf[c.eng.idx.toNat + off]?.getD 0)
  | .read => c.deliver x off

theorem carries_move (c : Shared) (d : Dir) {x : Lane} {off : Nat} (hx : d = .read → x ∈ c.known)
    (hoff : c.eng.idx.toNat + off < c.buf.length) : Carries B (moveLine d x off) c (c.move d x off) := by
  cases d with
  | write => exact carries_stage c x (by rw [List.getElem?_eq_getElem hoff]; rfl)
  | read => exact carries_extract c (hx rfl) hoff

theorem moveLine_ne_finish (d : Dir) (x : Lane) (off : Nat) : moveLine d x off ≠ .finish := by cases d <;> nofun

/-- Bytes moved for a list of lanes, from offset `off` on. -/
def Shared.moves (c : Shared) (d : Dir) : Nat → List Lane → Shared
  | _, [] => c
  | off, x :: ls => (c.move d x off).moves d (off + 1) ls

/-- What moving bytes leaves as it was. -/
structure Shared.Moved (d : Dir) (c c' : Shared) : Prop where
  eng : c'.eng = c.eng
  addr : c'.addr = c.addr
  inc : c'.inc = c.inc
  vpm : c'.vpm = c.vpm
  length : c'.buf.length = c.buf.length
  buf : d = .write → c'.buf = c.buf
  known : ∀ x ∈ c.known, x ∈ c'.known

theorem Shared.move_moved (c : Shared) (d : Dir) (x : Lane) (off : Nat) : Shared.Moved d c (c.move d x off) := by
  cases d with
  | write => exact ⟨rfl, rfl, rfl, rfl, rfl, fun _ => rfl, fun _ hy => List.mem_cons_of_mem x hy⟩
  | read => exact ⟨rfl, rfl, rfl, rfl, c.length_deliver x off, nofun, fun _ hy => hy⟩

theorem Shared.moves_moved (d : Dir) (ls : List Lane) : ∀ (c : Shared) (off : Nat), Shared.Moved d c (c.moves d off ls) := by
  induction ls with
  | nil => exact fun c _ => ⟨rfl, rfl, rfl, rfl, rfl, fun _ => rfl, fun _ hy => hy⟩
  | cons x ls ih =>
    intro c off
    have h := c.move_moved d x off
    have h' := ih (c.move d x off) (off + 1)
    exact ⟨h'.eng.trans h.eng, h'.addr.trans h.addr, h'.inc.trans h.inc, h'.vpm.trans h.vpm, h'.length.trans h.length,
      fun hd => (h'.buf hd).trans (h.buf hd), fun y hy => h'.known y (h.known y hy)⟩

/-- Staged lanes are known. -/
theorem Shared.mem_known_moves (ls : List Lane) : ∀ (c : Shared) (off : Nat),
    ∀ x ∈ ls, x ∈ (c.moves .write off ls).known := by
  induction ls with
  | nil => exact fun _ _ _ hx => absurd hx List.not_mem_nil
  | cons y ls ih =>
    intro c off x hx
    rcases List.mem_cons.mp hx with rfl | hx
    · exact (Shared.moves_moved .write ls (c.move .write x off) (off + 1)).known x List.mem_cons_self
    · exact ih (c.move .write y off) (off + 1) x hx

theorem Shared.get_moves_of_not_mem (ls : List Lane) : ∀ (c : Shared) (off : Nat) (x : Lane), x ∉ ls →
    (c.moves .write off ls).lanes.get x = c.lanes.get x := by
  induction ls with
  | nil => exact fun _ _ _ _ => rfl
  | cons y ls ih =>
    intro c off x hx
    obtain ⟨hxy, hx'⟩ := not_or.mp (List.mem_cons.not.mp hx)
    exact (ih (c.move .write y off) (off + 1) x hx').trans ((Lanes.get_set ..).trans (if_neg hxy))

/-- Staged lanes hold the bytes of the buffer, in order. -/
theorem Shared.map_get_moves (ls : List Lane) : ∀ (c : Shared) (off : Nat), ls.Nodup →
    c.eng.idx.toNat + off + ls.length ≤ c.buf.length →
    ls.map (c.moves .write off ls).lanes.get = (c.buf.drop (c.eng.idx.toNat + off)).take ls.length := by
  induction ls with
  | nil => exact fun _ _ _ _ => rfl
  | cons x ls ih =>
    intro c off hnd hlen
    obtain ⟨hx, hnd⟩ := List.nodup_cons.mp hnd
    rw [List.length_cons] at hlen
    have hi : c.eng.idx.toNat + off < c.buf.length := by omega
    have hfirst : ((c.move .write x off).moves .write (off + 1) ls).lanes.get x = c.buf[c.eng.idx.toNat + off] := by
      rw [Shared.get_moves_of_not_mem ls _ _ x hx]
      show (c.lanes.set x _).get x = _
      rw [Lanes.get_set, if_pos rfl, List.getElem?_eq_getElem hi, Option.getD_some]
    have hrest := ih (c.move .write x off) (off + 1) hnd (by
      show c.eng.idx.toNat + (off + 1) + ls.length ≤ c.buf.length
      omega)
    rw [List.drop_eq_getElem_cons hi, List.length_cons, List.take_succ_cons]
    exact congrArg₂ List.cons hfirst hrest

/-- The moving lines of a bulk or tail transaction. -/
theorem issues_atOffsets (d : Dir) (rest : List Micro) (ls : List Lane) : ∀ (c : Shared) (off : Nat),
    (d = .read → ∀ x ∈ ls, x ∈ c.known) → c.eng.idx.toNat + off + ls.length ≤ c.buf.length →
    Issues B [] (c.goOn (atOffsets (moveLine d) off ls ++ rest)) ((c.moves d off ls).goOn rest) := by
  induction ls with
  | nil => exact fun c _ _ _ => .refl _
  | cons x ls ih =>
    intro c off hkn hlen
    rw [List.length_cons] at hlen
    have hmoved := c.move_moved d x off
    have hmove : ∀ q, (c.goOn q).move d x off = (c.move d x off).goOn q := by intro q; cases d <;> rfl
    have hline := carries_move (B := B) (c.goOn (atOffsets (moveLine d) (off + 1) ls ++ rest)) d (off := off)
      (fun hd => hkn hd x List.mem_cons_self) (by show c.eng.idx.toNat + off < c.buf.length; omega)
    rw [hmove] at hline
    exact (ih (c.move d x off) (off + 1) (fun hd y hy => hmoved.known y (hkn hd y (List.mem_cons_of_mem x hy)))
      (by rw [hmoved.eng, hmoved.length]; omega)).after (hline.issues (moveLine_ne_finish d x off))

/-- A byte moved after `n` bytes are counted is the one at offset `n` before. -/
theorem Shared.consume_move (c : Shared) (d : Dir) (x : Lane) {n : Nat} (h : c.eng.idx.toNat + n < 2 ^ 16) :
    (c.consume n).move d x 0 = (c.move d x n).consume n := by
  have hidx : (c.consume n).eng.idx.toNat = c.eng.idx.toNat + n := by
    simp only [Shared.consume, BitVec.toNat_add, BitVec.toNat_ofNat]
    omega
  cases d with
  | write => simp only [Shared.move, hidx]; rfl
  | read => simp only [Shared.move, Shared.deliver, hidx]; rfl

/-- The moving lines of a head, each followed by its `consume`. -/
theorem issues_oneByOne (d : Dir) (rest : List Micro) (ls : List Lane) : ∀ (c : Shared) (n : Nat),
    (d = .read → ∀ x ∈ ls, x ∈ c.known) → c.eng.idx.toNat + n + ls.length ≤ c.buf.length →
    c.eng.idx.toNat + n + ls.length < 2 ^ 16 →
    Issues B [] ((c.consume n).goOn (oneByOne (moveLine d) ls ++ rest))
      (((c.moves d n ls).consume (n + ls.length)).goOn rest) := by
  induction ls with
  | nil => exact fun c _ _ _ _ => .refl _
  | cons x ls ih =>
    intro c n hkn hlen hlt
    rw [List.length_cons] at hlen hlt
    have hmoved := c.move_moved d x n
    have hmove : ∀ q, ((c.consume n).goOn q).move d x 0 = ((c.move d x n).consume n).goOn q := by
      intro q
      rw [← c.consume_move d x (by omega)]
      cases d <;> rfl
    have hidx : (c.consume n).eng.idx.toNat = c.eng.idx.toNat + n := by
      simp only [Shared.consume, BitVec.toNat_add, BitVec.toNat_ofNat]
      omega
    have hline := carries_move (B := B) ((c.consume n).goOn (.consume 1 :: (oneByOne (moveLine d) ls ++ rest))) d (off := 0)
      (fun hd => hkn hd x List.mem_cons_self) (by
        show (c.consume n).eng.idx.toNat + 0 < c.buf.length
        omega)
    rw [hmove] at hline
    have hcount := carries_consume (B := B) (((c.move d x n).consume n).goOn (oneByOne (moveLine d) ls ++ rest)) 1
    have hnext : ((c.move d x n).consume n).consume 1 = (c.move d x n).consume (n + 1) := Shared.consume_consume ..
    have hrest := ih (c.move d x n) (n + 1) (fun hd y hy => hmoved.known y (hkn hd y (List.mem_cons_of_mem x hy)))
      (by rw [hmoved.eng, hmoved.length]; omega) (by rw [hmoved.eng]; omega)
    rw [← hnext, Nat.add_assoc, Nat.add_comm 1] at hrest
    exact (hrest.after (hcount.issues nofun)).after (hline.issues (moveLine_ne_finish d x 0))

/-! ## Passes -/

/-- The shape of a transaction from here with mask `k` that carries `n` bytes. -/
def Shared.shape (c : Shared) (k : Mask) (n : Nat) : Shape := ⟨c.addr, k, c.eng.idx.toNat, n, c.inc.getLsbD 0⟩

/-- After the bytes of a transaction with mask `k` are moved and the transaction is over. -/
def Shared.pass (c : Shared) (d : Dir) (k : Mask) : Shared :=
  match d with
  | .write => (c.moves .write 0 (maskLanes k)).after .write k
  | .read => (c.after .read fullMask).moves .read 0 (maskLanes k)

theorem mem_maskLanes {k : Mask} {x : Lane} : x ∈ maskLanes k ↔ laneEnabled k x = true := by
  simp [maskLanes, mem_bulkLanes]

theorem maskLanes_nodup (k : Mask) : (maskLanes k).Nodup := List.Nodup.filter _ (by decide)

theorem Shared.ready_of_moves (c : Shared) (k : Mask) : (c.moves .write 0 (maskLanes k)).Ready .write k :=
  fun _ x hx => c.mem_known_moves (maskLanes k) 0 x (mem_maskLanes.mpr hx)

/-- The transaction of a write pass is that of its shape. -/
theorem Shared.issued_moves {c : Shared} {k : Mask} (h : c.eng.idx.toNat + (maskLanes k).length ≤ c.buf.length) :
    (c.moves .write 0 (maskLanes k)).issued .write k =
      (c.shape k (maskLanes k).length).descriptor .write c.buf c.vpm := by
  have hmoved := Shared.moves_moved .write (maskLanes k) c 0
  have hbytes := Shared.map_get_moves (maskLanes k) c 0 (maskLanes_nodup k) h
  simp only [Shared.issued, hmoved.addr, hmoved.inc, hbytes]
  rfl

/-- A bulk or tail pass issues the transaction of its shape. -/
theorem issues_offsetPass (c : Shared) (d : Dir) {k : Mask} (rest : List Micro) (hk : k ≠ 0) (hB : B c.addr)
    (hlen : c.eng.idx.toNat + (maskLanes k).length ≤ c.buf.length) :
    Issues B [(c.shape k (maskLanes k).length).descriptor d c.buf c.vpm]
      (c.goOn (offsetLines d k (maskLanes k) ++ rest)) ((c.pass d k).goOn rest) := by
  cases d with
  | write =>
    have hmoved := Shared.moves_moved .write (maskLanes k) c 0
    have hmoves := issues_atOffsets (B := B) .write (.executeWrite k :: rest) (maskLanes k) c 0 nofun hlen
    have hexec := issues_transaction (B := B) (c.moves .write 0 (maskLanes k)) (m := .executeWrite k) (d := .write) rest
      (fun s hr => ⟨hr, hk, rfl⟩) (transactionLegal_write hk) (c.ready_of_moves k) (hmoved.addr ▸ hB)
    rw [Shared.issued_moves hlen] at hexec
    rw [offsetLines, List.append_assoc]
    exact hexec.after hmoves
  | read =>
    have hexec := issues_transaction (B := B) c (m := .executeRead) (d := .read)
      (atOffsets .extract 0 (maskLanes k) ++ rest) (fun s hr => ⟨hr, rfl⟩) rfl nofun hB
    have hmoves := issues_atOffsets (B := B) .read rest (maskLanes k) (c.after .read fullMask) 0
      (fun _ x _ => mem_bulkLanes x) hlen
    exact hexec.before hmoves

/-- The head's pass issues the transaction of its shape; its bytes are counted on the way. -/
theorem issues_headPass (c : Shared) (d : Dir) {k : Mask} (rest : List Micro) (hk : k ≠ 0) (hB : B c.addr)
    (hlen : c.eng.idx.toNat + (maskLanes k).length ≤ c.buf.length)
    (hlt : c.eng.idx.toNat + (maskLanes k).length < 2 ^ 16) :
    Issues B [(c.shape k (maskLanes k).length).descriptor d c.buf c.vpm]
      (c.goOn (headPass d k (maskLanes k) ++ rest)) (((c.pass d k).consume (maskLanes k).length).goOn rest) := by
  cases d with
  | write =>
    have hmoved := Shared.moves_moved .write (maskLanes k) c 0
    have hmoves := issues_oneByOne (B := B) .write (.executeWrite k :: rest) (maskLanes k) c 0 nofun hlen hlt
    have hexec := issues_transaction (B := B) ((c.moves .write 0 (maskLanes k)).consume (maskLanes k).length)
      (m := .executeWrite k) (d := .write) rest (fun s hr => ⟨hr, hk, rfl⟩) (transactionLegal_write hk)
      (c.ready_of_moves k) (hmoved.addr ▸ hB)
    have hissued := Shared.issued_moves hlen
    rw [Shared.consume_zero, Nat.zero_add] at hmoves
    rw [headPass, List.append_assoc, ← hissued]
    exact hexec.after hmoves
  | read =>
    have hexec := issues_transaction (B := B) c (m := .executeRead) (d := .read)
      (oneByOne .extract (maskLanes k) ++ rest) (fun s hr => ⟨hr, rfl⟩) rfl nofun hB
    have hmoves := issues_oneByOne (B := B) .read rest (maskLanes k) (c.after .read fullMask) 0
      (fun _ x _ => mem_bulkLanes x) hlen hlt
    rw [Shared.consume_zero, Nat.zero_add] at hmoves
    exact hexec.before hmoves

/-- The lines of one pass through `BulkLoop`, with the step to the next slot. -/
theorem issues_bulkLines (c : Shared) (d : Dir) (hB : B c.addr) (hlen : c.eng.idx.toNat + 4 ≤ c.buf.length) :
    Issues B [(c.shape fullMask 4).descriptor d c.buf c.vpm] (c.goOn (bulkLines d))
      (((c.pass d fullMask).consume 4).nextSlot.goOn []) := by
  have hpass := issues_offsetPass c d (k := fullMask) [.consume 4, .nextSlot] (by decide) hB hlen
  have hconsume := (carries_consume (B := B) ((c.pass d fullMask).goOn [.nextSlot]) 4).issues nofun
  have hslot := (carries_nextSlot (B := B) (((c.pass d fullMask).consume 4).goOn [])).issues nofun
  rw [maskLanes_fullMask, ← bulkLines_eq] at hpass
  exact (hpass.before hconsume).before hslot

/-- The lines of a tail. -/
theorem issues_tailLines (c : Shared) (d : Dir) {n : Nat} (h0 : n ≠ 0) (h4 : n < 4) (hB : B c.addr)
    (hlen : c.eng.idx.toNat + n ≤ c.buf.length) :
    Issues B [(c.shape (tailMask n) n).descriptor d c.buf c.vpm] (c.goOn (tailLines d n))
      (((c.pass d (tailMask n)).consume n).goOn []) := by
  have hlanes := tailLanes_eq_maskLanes (n := n) (by omega)
  have hn : (maskLanes (tailMask n)).length = n := hlanes ▸ tailLanes_length h4
  have hpass := issues_offsetPass c d [.consume n] (tailMask_ne_zero h0) hB (by rw [hn]; exact hlen)
  have hconsume := (carries_consume (B := B) ((c.pass d (tailMask n)).goOn []) n).issues nofun
  rw [hn, ← hlanes, ← tailLines_eq] at hpass
  exact hpass.before hconsume

/-- The lines of a head, with the step to the first whole slot. -/
theorem issues_headLines (c : Shared) (d : Dir) {n : Nat} (h1 : 1 ≤ n) (h2 : n ≤ 2) (hB : B c.addr)
    (hlen : c.eng.idx.toNat + n ≤ c.buf.length) (hlt : c.eng.idx.toNat + n < 2 ^ 16) :
    Issues B [(c.shape (headMask n) n).descriptor d c.buf c.vpm] (c.goOn (headLines d n))
      (((c.pass d (headMask n)).consume n).nextSlot.aim.goOn []) := by
  obtain ⟨hlength, hmask, -⟩ := headLanes_facts h1 h2
  have hlanes := headLanes_eq_maskLanes h1 h2
  have hn : (maskLanes (headMask n)).length = n := hlanes ▸ hlength
  have hpass := issues_headPass c d [.nextSlot, .target] hmask hB (by rw [hn]; exact hlen) (by rw [hn]; exact hlt)
  have hslot := (carries_nextSlot (B := B) (((c.pass d (headMask n)).consume n).goOn [.target])).issues nofun
  have haim := (carries_target (B := B) (((c.pass d (headMask n)).consume n).nextSlot.goOn [])).issues nofun
  rw [hn, ← hlanes, ← headLines_eq] at hpass
  exact (hpass.before hslot).before haim

/-- The registers after a pass. -/
theorem Shared.pass_carried (c : Shared) (d : Dir) (k : Mask) (n : Nat) : c.Carried n ((c.pass d k).consume n) := by
  cases d with
  | write =>
    have h := Shared.moves_moved .write (maskLanes k) c 0
    have hnext : (c.moves .write 0 (maskLanes k)).nextAddr = c.nextAddr := by
      simp only [Shared.nextAddr, h.addr, h.inc]
    exact ⟨congrArg (fun e : Engine => ({ c with eng := e } : Shared).consume n |>.eng) h.eng, hnext, h.inc, h.length⟩
  | read =>
    have h := Shared.moves_moved .read (maskLanes k) (c.after .read fullMask) 0
    exact ⟨congrArg (fun e : Engine => ({ c with eng := e } : Shared).consume n |>.eng) h.eng, h.addr, h.inc, h.length⟩

/-- Where the payloads of a request come from is as it was: a write reads the buffer, a read memory. -/
def Shared.Source (d : Dir) (b : List Byte) (m : Memory) (c : Shared) : Prop :=
  match d with
  | .write => c.buf = b
  | .read => c.vpm = m

theorem Shared.Source.of_eq {d : Dir} {b : List Byte} {m : Memory} {c c' : Shared} (h : c.Source d b m)
    (hbuf : c'.buf = c.buf) (hvpm : c'.vpm = c.vpm) : c'.Source d b m := by
  cases d with
  | write => exact hbuf.trans h
  | read => exact hvpm.trans h

theorem Shared.Source.descriptor {d : Dir} {b : List Byte} {m : Memory} {c : Shared} (h : c.Source d b m) (p : Shape) :
    p.descriptor d c.buf c.vpm = p.descriptor d b m := by
  cases d with
  | write => obtain rfl : c.buf = b := h; rfl
  | read => obtain rfl : c.vpm = m := h; rfl

theorem Shared.Source.pass {d : Dir} {b : List Byte} {m : Memory} {c : Shared} (h : c.Source d b m) (k : Mask) :
    (c.pass d k).Source d b m := by
  cases d with
  | write => exact ((Shared.moves_moved .write (maskLanes k) c 0).buf rfl).trans h
  | read => exact (Shared.moves_moved .read (maskLanes k) (c.after .read fullMask) 0).vpm.trans h

end Sys2Proof.Machine

/-! PROOFS. A request that nothing disturbs issues its plan: the passes of the head, of `BulkLoop` and of the tail issue the
plan's shapes, in order (R150, R157). -/

namespace Sys2Proof.Machine

variable {d : Dir} {a : VpAddr} {l : Len} {b : List Byte} {m : Memory}

/-! ## Between two passes -/

/-- The `j`-th bulk shape of the plan (R153). -/
def bulkShape (a : VpAddr) (l : Len) (j : Nat) : Shape :=
  ⟨BitVec.ofNat 24 (planStart a + j), fullMask, planHead a l + 4 * j, 4, true⟩

theorem bulkShapes_drop {j : Nat} (h : j < planBulk a l) :
    (bulkShapes a l).drop j = bulkShape a l j :: (bulkShapes a l).drop (j + 1) := by
  rw [List.drop_eq_getElem_cons (by rw [bulkShapes_length]; exact h)]
  simp [bulkShapes, bulkShape]

/-- Between two passes, after the head if there is one and `j` bulk transactions: the place in the plan, and the
auto-increment setting that goes with it. -/
structure Shared.InPlan (d : Dir) (a : VpAddr) (l : Len) (b : List Byte) (m : Memory) (j : Nat) (c : Shared) : Prop where
  between : c.Between d a l
  idx : c.eng.idx.toNat = planHead a l + 4 * j
  inc : c.inc = autoIncValue (decide (1 ≤ j))
  source : c.Source d b m

/-- The bytes left are those of the bulk transactions left and of the tail. -/
theorem Shared.InPlan.rem_eq {c : Shared} {j : Nat} (h : c.InPlan d a l b m j) :
    c.eng.rem.toNat + 4 * j = 4 * planBulk a l + planTail a l := by
  have hcount := h.between.count
  have hidx := h.idx
  have hsum := planHead_add_planBulk_add_planTail a l
  omega

/-- The address is the slot the plan names next. -/
theorem Shared.InPlan.addr_eq {c : Shared} {j : Nat} (h : c.InPlan d a l b m j) (hr : c.eng.rem.toNat ≠ 0) :
    c.addr = BitVec.ofNat 24 (planStart a + j) := by
  have hcount := h.between.count
  have hplace := h.between.place hr
  have hstart := requestByte_planHead a l (by have := h.idx; omega)
  rw [h.idx, requestByte_add, hstart] at hplace
  have hnat : planStart a + j = c.addr.toNat := by omega
  rw [hnat, BitVec.ofNat_toNat, BitVec.setWidth_eq]

/-! ## The passes -/

/-- What `BulkLoop`'s pass starts from: the auto-increment is on (R197). -/
def Shared.atBulk (c : Shared) : Shared := (c.withInc (autoIncValue true)).enter .bulkLoop []

/-- `BulkLoop` is entered, with the auto-increment off or on, and carries its pass out with it on (R197). -/
theorem Shared.Between.issues_enterBulk {c : Shared} (h : c.Between d a l) (hr : 4 ≤ c.eng.rem.toNat) :
    Issues (Touched a l) [] (c.goOn []) (c.atBulk.goOn (bulkLines d)) := by
  have hleave : Issues (Touched a l) [] (c.goOn []) (c.enter .bulkLoop
      (if c.eng.phase = .bulkLoop then bulkLines d else .autoInc true :: bulkLines d)) :=
    issues_leavePhase c nofun fun s hp hop hvp hrem => by
      rw [State.leavePhase_byRem (by rw [hp, hvp, h.vp]; exact h.phase), State.enterByRem_bulk (by rw [hrem]; exact hr),
        hp, hop, h.op]
  by_cases hp : c.eng.phase = .bulkLoop
  · have hinc : c.withInc (autoIncValue true) = c := by rw [Shared.withInc, ← h.inc hp]
    rw [if_pos hp] at hleave
    rw [Shared.atBulk, hinc]
    exact hleave
  · rw [if_neg hp] at hleave
    exact hleave.before ((carries_autoInc ((c.enter .bulkLoop []).goOn (bulkLines d)) true).issues nofun)

theorem autoIncValue_getLsbD_zero (on : Bool) : (autoIncValue on).getLsbD 0 = on := by cases on <;> decide

theorem Shared.InPlan.shape_atBulk {c : Shared} {j : Nat} (h : c.InPlan d a l b m j) (hr : c.eng.rem.toNat ≠ 0) :
    c.atBulk.shape fullMask 4 = bulkShape a l j := by
  show Shape.mk c.addr fullMask c.eng.idx.toNat 4 ((autoIncValue true).getLsbD 0) = _
  rw [h.addr_eq hr, h.idx, autoIncValue_getLsbD_zero]
  rfl

/-- With four bytes left or more the next transaction is the plan's next bulk one (R173, R183). -/
theorem Shared.InPlan.issues_bulk {c : Shared} {j : Nat} (h : c.InPlan d a l b m j) (hr : 4 ≤ c.eng.rem.toNat) :
    ∃ c' : Shared, c'.InPlan d a l b m (j + 1) ∧ c'.eng.rem.toNat = c.eng.rem.toNat - 4 ∧
      Issues (Touched a l) [(bulkShape a l j).descriptor d b m] (c.goOn []) (c'.goOn []) := by
  have hcount := h.between.count
  have hcover := h.between.cover
  have hidx := h.idx
  have hsource : c.atBulk.Source d b m := h.source.of_eq rfl rfl
  have hpass := issues_bulkLines c.atBulk d (h.between.touched (by omega))
    (by show c.eng.idx.toNat + 4 ≤ c.buf.length; omega)
  rw [h.shape_atBulk (by omega), hsource.descriptor] at hpass
  have hcarried := c.atBulk.pass_carried d fullMask 4
  obtain ⟨hbetween, hrem⟩ := h.between.afterBulk hr hcarried
  have hcount' := hbetween.count
  refine ⟨((c.atBulk.pass d fullMask).consume 4).nextSlot, ⟨hbetween, by omega, ?_, (hsource.pass fullMask).of_eq rfl rfl⟩,
    hrem, hpass.after (h.between.issues_enterBulk hr)⟩
  exact hcarried.inc.trans (congrArg autoIncValue (decide_eq_true (Nat.le_add_left 1 j)).symm)

/-- What the last pass leaves to the plan is its tail (R154). -/
theorem Shared.InPlan.tailShapes_eq {c : Shared} {j : Nat} (h : c.InPlan d a l b m j) (hr : c.eng.rem.toNat < 4)
    (h0 : c.eng.rem.toNat ≠ 0) : tailShapes a l = [c.shape (tailMask c.eng.rem.toNat) c.eng.rem.toNat] := by
  have hcount := h.between.count
  have hleft := h.rem_eq
  have hlt := planTail_lt a l
  have hrem : c.eng.rem.toNat = planTail a l := by omega
  have hj : j = planBulk a l := by omega
  have hidx : c.eng.idx.toNat = l.toNat - planTail a l := by omega
  rw [tailShapes, if_neg (by omega), Shared.shape, h.addr_eq h0, h.inc, autoIncValue_getLsbD_zero, hidx, hrem, hj]

/-- With one to three bytes left the next transaction is the plan's tail, and the last (R174, R184). -/
theorem Shared.InPlan.issues_tail {c : Shared} {j : Nat} (h : c.InPlan d a l b m j) (hr : c.eng.rem.toNat < 4)
    (h0 : c.eng.rem.toNat ≠ 0) :
    ∃ c' : Shared, c'.AtReleased ∧
      Issues (Touched a l) ((tailShapes a l).map (Shape.descriptor d b m)) (c.goOn []) c' := by
  have hcount := h.between.count
  have hcover := h.between.cover
  have hsource : (c.enter .tail []).Source d b m := h.source.of_eq rfl rfl
  have hleave : Issues (Touched a l) [] (c.goOn []) (c.enter .tail (tailLines d c.eng.rem.toNat)) :=
    issues_leavePhase c nofun fun s hp hop hvp hrem => by
      rw [State.leavePhase_byRem (by rw [hp, hvp, h.between.vp]; exact h.between.phase),
        State.enterByRem_tail (by rw [hrem]; exact hr) (by rw [hrem]; exact h0), hop, hrem, h.between.op]
  have hpass := issues_tailLines (c.enter .tail []) d h0 hr (h.between.touched h0)
    (by show c.eng.idx.toNat + _ ≤ c.buf.length; omega)
  have hcarried := (c.enter .tail []).pass_carried d (tailMask c.eng.rem.toNat) c.eng.rem.toNat
  have hreleased := issues_leavePhase (B := Touched a l) _ (p := .released) (q := releasedLines) nofun fun s hp _ _ _ => by
    have htail : s.eng.phase = .tail := by rw [hp, hcarried.eng]; rfl
    simp only [State.leavePhase, htail]
  rw [hsource.descriptor] at hpass
  rw [h.tailShapes_eq hr h0]
  exact ⟨Shared.enter _ .released releasedLines, rfl, (hpass.after hleave).before hreleased⟩

/-- With no byte left the passes are over, and so is the plan. -/
theorem Shared.InPlan.issues_released {c : Shared} {j : Nat} (h : c.InPlan d a l b m j) (hr : c.eng.rem.toNat = 0) :
    ∃ c' : Shared, c'.AtReleased ∧ Issues (Touched a l) [] (c.goOn []) c' := by
  refine ⟨c.enter .released releasedLines, rfl, issues_leavePhase c nofun fun s hp _ hvp hrem => ?_⟩
  rw [State.leavePhase_byRem (by rw [hp, hvp, h.between.vp]; exact h.between.phase),
    State.enterByRem_released (by rw [hrem, hr])]

/-- From its place in the plan a request issues the rest of it, by induction on the bytes left. -/
theorem Shared.InPlan.issues_rest {c : Shared} {j : Nat} (h : c.InPlan d a l b m j) :
    ∃ c' : Shared, c'.AtReleased ∧
      Issues (Touched a l) (((bulkShapes a l).drop j ++ tailShapes a l).map (Shape.descriptor d b m)) (c.goOn []) c' := by
  have hleft := h.rem_eq
  have hlt := planTail_lt a l
  by_cases h4 : 4 ≤ c.eng.rem.toNat
  · obtain ⟨c', hc', hrem, hbulk⟩ := h.issues_bulk h4
    obtain ⟨c'', hc'', hrest⟩ := hc'.issues_rest
    refine ⟨c'', hc'', ?_⟩
    rw [bulkShapes_drop (by omega)]
    exact hbulk.trans hrest
  · have hdone : (bulkShapes a l).drop j = [] := List.drop_eq_nil_of_le (by rw [bulkShapes_length]; omega)
    rw [hdone, List.nil_append]
    by_cases h0 : c.eng.rem.toNat = 0
    · have hnone : tailShapes a l = [] := if_pos (by omega)
      rw [hnone]
      exact h.issues_released h0
    · exact h.issues_tail (by omega) h0
termination_by c.eng.rem.toNat

/-! ## The head (R172, R182) -/

theorem Shared.start_source (d : Dir) (a : VpAddr) (l : Len) (m : Memory) (b : List Byte) :
    (Shared.start d a l m b).Source d b m := by
  cases d <;> rfl

/-- From an even start the plan begins with its bulk transactions. -/
theorem Shared.start_inPlan (m : Memory) {b : List Byte} (ha : vpIsOdd a = false) (hb : l.toNat ≤ b.length) :
    (Shared.start d a l m b).InPlan d a l b m 0 :=
  ⟨Shared.start_between m ha hb, (planHead_of_even a l ha).symm, rfl, Shared.start_source d a l m b⟩

theorem headMask_min (n : Nat) : headMask (min n 2) = headMask n := by
  have h : min n 2 ≤ 1 ↔ n ≤ 1 := by omega
  simp only [headMask, h]

/-- The plan's head is the shape of the first pass from an odd start (R152). -/
theorem Shared.headShapes_eq (m : Memory) (b : List Byte) (ha : vpIsOdd a = true) (hl : l ≠ 0) :
    headShapes a l =
      [((Shared.start d a l m b).enter .partialHead []).shape (headMask (min l.toNat 2)) (min l.toNat 2)] := by
  have hslot : slotOfVp a = BitVec.ofNat 24 (planFirst a) := by
    rw [planFirst, ← slotOfVp_toNat, BitVec.ofNat_toNat, BitVec.setWidth_eq]
  show _ = [Shape.mk (slotOfVp a) _ 0 _ ((autoIncValue false).getLsbD 0)]
  rw [headShapes_of_odd a l ha hl, planHead_of_odd a l ha, hslot, headMask_min, autoIncValue_getLsbD_zero]

/-- From an odd start the first transaction is the plan's head. -/
theorem Shared.start_issues_head (m : Memory) {b : List Byte} (ha : vpIsOdd a = true) (hl : l ≠ 0)
    (hb : l.toNat ≤ b.length) :
    ∃ c' : Shared, c'.InPlan d a l b m 0 ∧ Issues (Touched a l) ((headShapes a l).map (Shape.descriptor d b m))
      ((Shared.start d a l m b).goOn []) (c'.goOn []) := by
  have hpos : l.toNat ≠ 0 := fun h => hl (BitVec.eq_of_toNat_eq h)
  have hlt := l.isLt
  have hsource : ((Shared.start d a l m b).enter .partialHead []).Source d b m :=
    (Shared.start_source d a l m b).of_eq rfl rfl
  have hleave : Issues (Touched a l) [] ((Shared.start d a l m b).goOn [])
      ((Shared.start d a l m b).enter .partialHead (headLines d (min l.toNat 2))) :=
    issues_leavePhase _ nofun fun s hp hop hvp hrem => by
      have hp' : s.eng.phase = .addressSet := hp
      have ho : vpIsOdd s.eng.vp = true := by rw [hvp]; exact ha
      simp only [State.leavePhase, hp', ho, if_true, hop, hrem]
      rfl
  have hpass := issues_headLines ((Shared.start d a l m b).enter .partialHead []) d (n := min l.toNat 2) (by omega)
    (by omega) (touched_first hl) (by show 0 + _ ≤ b.length; omega) (by show 0 + _ < 2 ^ 16; omega)
  have hcarried := ((Shared.start d a l m b).enter .partialHead []).pass_carried d (headMask (min l.toNat 2))
    (min l.toNat 2)
  have hbetween := Shared.between_afterHead ha hb hcarried
  obtain ⟨hidx, -⟩ := Shared.consume_toNat (c := (Shared.start d a l m b).enter .partialHead []) (n := min l.toNat 2)
    (Nat.min_le_left _ _) (by show 0 + l.toNat < 2 ^ 16; omega)
  rw [hsource.descriptor] at hpass
  rw [Shared.headShapes_eq m b ha hl]
  refine ⟨_, ⟨hbetween, ?_, hcarried.inc, (hsource.pass _).of_eq rfl rfl⟩, hpass.after hleave⟩
  rw [planHead_of_odd a l ha, Shared.aim, Shared.nextSlot, hcarried.eng]
  exact hidx.trans (Nat.add_comm ..)

/-- From `AddressSet` to `Released` a request issues its plan. -/
theorem Shared.start_issues_plan (m : Memory) {b : List Byte} (hl : l ≠ 0) (hb : l.toNat ≤ b.length) :
    ∃ c' : Shared, c'.AtReleased ∧ Issues (Touched a l) ((plan a l).map (Shape.descriptor d b m))
      ((Shared.start d a l m b).goOn []) c' := by
  rw [plan, List.append_assoc, List.map_append]
  cases ha : vpIsOdd a with
  | false =>
    rw [headShapes_of_even a l ha]
    exact (Shared.start_inPlan m ha hb).issues_rest
  | true =>
    obtain ⟨c, hc, hhead⟩ := Shared.start_issues_head (d := d) m ha hl hb
    obtain ⟨c', hc', hrest⟩ := hc.issues_rest
    exact ⟨c', hc', hhead.trans hrest⟩

/-! ## Acceptance and the end (R192, R194, R199) -/

/-- The `slot` register set to the first byte's slot. -/
def Shared.firstSlot (c : Shared) : Shared := { c with eng := { c.eng with slot := slotOfVp c.eng.vp } }

theorem carries_setSlot {B : SlotAddr → Prop} (c : Shared) : Carries B .setSlot c c.firstSlot :=
  fun _ s h => ⟨s.setSlot (slotOfVp s.eng.vp), rfl, { h with eng := by rw [State.setSlot_eng, h.eng]; rfl }⟩

/-- The three lines of `AddressSet` (R194). -/
theorem issues_addressSet {B : SlotAddr → Prop} (c : Shared) :
    Issues B [] (c.goOn addressSetLines) ((c.firstSlot.aim.withInc (autoIncValue false)).goOn []) := by
  have hslot : Issues B [] (c.goOn addressSetLines) (c.firstSlot.goOn [.target, .autoInc false]) :=
    (carries_setSlot (c.goOn [.target, .autoInc false])).issues nofun
  have haim : Issues B [] (c.firstSlot.goOn [.target, .autoInc false]) (c.firstSlot.aim.goOn [.autoInc false]) :=
    (carries_target (c.firstSlot.goOn [.autoInc false])).issues nofun
  have hinc : Issues B [] (c.firstSlot.aim.goOn [.autoInc false])
      ((c.firstSlot.aim.withInc (autoIncValue false)).goOn []) :=
    (carries_autoInc (c.firstSlot.aim.goOn []) false).issues nofun
  exact (hinc.after haim).after hslot

/-- A state just after acceptance. -/
def State.accepted (s : State) (d : Dir) (a : VpAddr) (l : Len) : State :=
  (s.latchRequest d a l).enterPhase .addressSet addressSetLines

theorem exec_request {s : State} (hq : s.Quiet) (hl : l ≠ 0) : exec (requestInstr d a l) s = .next (s.accepted d a l) := by
  obtain ⟨hphase, hw, hreq, -⟩ := hq
  have haccept := State.accept_pos d a hphase (State.blocked_eq_false.mpr ⟨hw, hreq⟩) hl
  cases d <;> exact haccept

/-- What an accepted request has determined. -/
def State.acceptedShared (s : State) (d : Dir) (a : VpAddr) (l : Len) (b : List Byte) : Shared where
  eng := (s.accepted d a l).eng
  addr := s.hs.addr
  inc := s.hs.autoInc
  lanes := s.hs.lanes
  known := []
  vpm := s.vpm
  buf := b

theorem State.accepted_shows {s : State} (d : Dir) (hq : s.Quiet) (hs : s.SlotsBacked a l) (hb : s.buf = some b) :
    Shows (Touched a l) s.host.ie (s.acceptedShared d a l b) (s.accepted d a l) := by
  obtain ⟨-, hw, hreq, hacks, hsched⟩ := hq
  refine
    { eng := rfl, waiting := hw, busy := nofun, addr := rfl, inc := rfl, lanes := nofun, req := hreq, vpm := rfl,
      buf := hb, acks := hacks, backed := ?_, sched := hsched }
  rintro x ⟨k, hk, rfl⟩
  exact hs k hk

/-- After `AddressSet` the request is where `Shared.start` says. -/
theorem State.accepted_runs {s : State} (d : Dir) (hq : s.Quiet) (hs : s.SlotsBacked a l) (hb : s.buf = some b) :
    ∃ n t, RunIssues n (s.accepted d a l) [] t ∧ (s.accepted d a l).SameOutside t ∧
      Shows (Touched a l) s.host.ie ((Shared.start d a l s.vpm b).goOn []) t := by
  obtain ⟨n, hrun⟩ := issues_addressSet (B := Touched a l) (s.acceptedShared d a l b)
  obtain ⟨t, ht, hout, hshows⟩ := hrun _ _ (State.accepted_shows d hq hs hb)
  obtain ⟨-, hw, -⟩ := hq
  refine ⟨n, t, ht, hout, { hshows with eng := hshows.eng.trans ?_, waiting := rfl, lanes := nofun }⟩
  show Engine.mk .addressSet d a l 0 (slotOfVp a) s.host.ie [] s.eng.waiting = _
  rw [hw]
  rfl

/-- The two lines of `Released`, in the state they lead to. -/
theorem Shows.runIssues_released {B : SlotAddr → Prop} {ie : Bool} {c : Shared} {s : State} (h : Shows B ie c s)
    (hq : c.AtReleased) : RunIssues 2 s [] (s.popLine.setCtrl 0).popLine.restoreInterrupts.giveDone := by
  have hreq : (s.popLine.setCtrl 0).hs.req = false := by
    simp only [State.setCtrl_hs, Handshake.req]; decide
  have htodo : (s.popLine.setCtrl 0).eng.todo = [.finish] := by
    rw [State.setCtrl_eng, State.popLine_eng, h.todo_eq, hq]; rfl
  have hrelease : step s = .next (s.popLine.setCtrl 0) :=
    step_line (m := .release) h.sched h.req h.waiting_eq (h.todo_eq.trans hq) ⟨h.req, rfl⟩
  have hfinish : step (s.popLine.setCtrl 0) = .next (s.popLine.setCtrl 0).popLine.restoreInterrupts.giveDone :=
    step_line (m := .finish) (s := s.popLine.setCtrl 0) h.sched hreq h.waiting_eq htodo rfl
  exact (RunIssues.of_step_silent hrelease (.inr hreq)).trans (.of_step_silent hfinish (.inr hreq))

/-- Settles O55: `AddressSet` and `Released` issue nothing, and what lies between them issues the plan. -/
theorem requestIssuesItsPlan : Obligations.RequestIssuesItsPlan := by
  unfold Obligations.RequestIssuesItsPlan
  intro s d a l b hq hl hs hb hlen
  obtain ⟨n, t, hstart, hout, ht⟩ := State.accepted_runs d hq hs hb
  obtain ⟨c, hc, k, hissue⟩ := Shared.start_issues_plan (a := a) (d := d) s.vpm hl hlen
  obtain ⟨u, hrun, hout', hu⟩ := hissue _ t ht
  obtain ⟨-, -, -, hdones⟩ := hout.trans hout'
  obtain ⟨hend, htrans⟩ := (hstart.trans hrun).trans (hu.runIssues_released hc)
  refine ⟨_, _, _, exec_request hq hl, hend, rfl, congrArg (· + 1) hdones, ?_⟩
  rw [htrans, List.nil_append, List.append_nil]

end Sys2Proof.Machine

/-! PROOFS. The handshake primitives: each on a bus with no transaction outstanding, the Device's step where it is enabled
and where it holds, a transaction from its `CTRL` write to its completion, and what the ports do meanwhile. -/

namespace Sys2Proof.Machine

/-! ## The register accesses (R130 to R133, R136, R138) -/

/-- Settles O17: the access is made, and the three fields read back as the address. -/
theorem setTargetWritesTheThreeFields : Obligations.SetTargetWritesTheThreeFields := by
  unfold Obligations.SetTargetWritesTheThreeFields
  exact fun a s hr => ⟨s.setAddr a, State.whenIdleBus_of_idle hr, addr_withAddr s.hs a, rfl⟩

/-- Settles O18: the access is made. -/
theorem setAutoIncrementWritesTheToggle : Obligations.SetAutoIncrementWritesTheToggle := by
  unfold Obligations.SetAutoIncrementWritesTheToggle
  exact fun e s hr => State.whenIdleBus_of_idle hr

/-- Settles O19: the access is made, and a lane reads as what was last set in it. -/
theorem loadLaneStagesOneByte : Obligations.LoadLaneStagesOneByte := by
  unfold Obligations.LoadLaneStagesOneByte
  intro l v s hr
  refine ⟨s.hs.lanes.set l v, State.whenIdleBus_of_idle hr, ?_, fun k hk => ?_⟩
  · rw [Lanes.get_set, if_pos rfl]
  · rw [Lanes.get_set, if_neg hk]

/-- Settles O20: the access is made. -/
theorem readLaneReturnsTheStagedByte : Obligations.ReadLaneReturnsTheStagedByte := by
  unfold Obligations.ReadLaneReturnsTheStagedByte
  exact fun l s hr => State.whenIdleBus_of_idle hr

/-- Settles O23: a poll asks for nothing, and `REQ` is bit 7 of `CTRL`. -/
theorem pollReturnsCtrlAndEndsTheWait : Obligations.PollReturnsCtrlAndEndsTheWait := by
  unfold Obligations.PollReturnsCtrlAndEndsTheWait
  exact fun s => rfl

/-- Settles O26: the access is made. -/
theorem releaseClearsCtrl : Obligations.ReleaseClearsCtrl := by
  unfold Obligations.ReleaseClearsCtrl
  exact fun s hr => State.whenIdleBus_of_idle hr

/-! ## The Device's step (R137, R231) -/

/-- `DEV_COMPLETE` of a transaction the stored `CTRL` requests, to a backed slot, with the Device acknowledging. -/
theorem exec_devComplete_of_start {s : State} {d : Dir} {m : Mask} (hl : transactionLegal d m = true)
    (hc : s.hs.ctrl = controlStart d m) (hb : s.par.slotBacked s.hs.addr = true) (ha : s.par.deviceAcks = true) :
    exec (.devComplete d m) s = .next s.complete := by
  obtain ⟨hreq, hdir, hmask, -⟩ := fields_of_ctrl hc
  have henabled : s.deviceEnabled = true := by rw [State.deviceEnabled, hreq, hb, ha]; rfl
  exact execDevComplete_enabled hl hdir hmask henabled

/-- `DEV_COMPLETE` of a legal transaction the Device does not carry out now. -/
theorem execDevComplete_hold {s : State} {d : Dir} {m : Mask} (hl : transactionLegal d m = true)
    (hn : ¬ (s.hs.dir = d ∧ s.hs.mask = m ∧ s.deviceEnabled = true)) : execDevComplete d m s = .next s := by
  have hempty : ¬ (d = .write ∧ m = 0) := by rintro ⟨rfl, rfl⟩; cases hl
  have hmasked : ¬ (d = .read ∧ m ≠ fullMask) := by
    rintro ⟨rfl, hm⟩
    exact hm (eq_of_beq hl)
  rw [execDevComplete, if_neg hempty, if_neg hmasked, if_neg hn]

theorem State.deviceEnabled_iff {s : State} :
    s.deviceEnabled = true ↔
      s.hs.req = true ∧ s.par.slotBacked s.hs.addr = true ∧ s.par.deviceAcks = true := by
  simp only [State.deviceEnabled, Bool.and_eq_true, and_assoc]

theorem Params.deviceAcks_of_spent {p : Params} (h : p.acks = some 0) : p.deviceAcks = false := by
  simp only [Params.deviceAcks, h]

/-- Settles O25: each case denies one of the conditions under which the Device acts. -/
theorem deviceHoldsWhenNotEnabled : Obligations.DeviceHoldsWhenNotEnabled := by
  unfold Obligations.DeviceHoldsWhenNotEnabled
  intro d m s hl hcase
  refine execDevComplete_hold hl fun ⟨hdir, hmask, henabled⟩ => ?_
  obtain ⟨hreq, hbacked, hacks⟩ := State.deviceEnabled_iff.mp henabled
  rcases hcase with hr | hd | hm | hb | ha
  · exact Bool.false_ne_true (hr.symm.trans hreq)
  · exact hd hdir
  · exact hm hmask
  · exact Bool.false_ne_true (hb.symm.trans hbacked)
  · exact Bool.false_ne_true ((Params.deviceAcks_of_spent ha).symm.trans hacks)

/-! ## What completion does (R79, R80, R81, R137) -/

/-- A completed write stores the enabled lanes' bytes, and no other. -/
theorem State.complete_stores {s : State} (hd : s.hs.dir = .write) (hw : s.vpm.wf = true) :
    (∀ l, laneEnabled s.hs.mask l = true → s.complete.vpm.read (laneAddr s.hs.addr l) = s.hs.lanes.get l) ∧
      ∀ x, (∀ l, laneEnabled s.hs.mask l = true → x ≠ laneAddr s.hs.addr l) →
        s.complete.vpm.read x = s.vpm.read x := by
  rw [State.complete_write hd]
  exact ⟨Memory.read_storeLanes_enabled hw s.hs.addr s.hs.mask s.hs.lanes,
    Memory.read_storeLanes_other hw s.hs.addr s.hs.mask s.hs.lanes⟩

/-- A completed read fills every lane. -/
theorem State.complete_fetches {s : State} (hd : s.hs.dir = .read) (l : Lane) :
    s.complete.hs.lanes.get l = s.vpm.read (laneAddr s.hs.addr l) := by
  rw [State.complete_lanes_of_read hd, Memory.get_slot]

/-- What is neither a handshake register nor memory, but for the count of acknowledgements, is not the Device's. -/
theorem State.complete_outside (s : State) :
    s.complete.eng = s.eng ∧ s.complete.buf = s.buf ∧ s.complete.host = s.host ∧ s.complete.port = s.port ∧
      s.complete.sched = s.sched ∧ s.complete.par.unbacked = s.par.unbacked ∧
      s.complete.par.envWrites = s.par.envWrites := by
  obtain ⟨-, -, hpar⟩ := s.complete_frame
  exact ⟨s.complete_eng, s.complete_buf, s.complete_host, s.complete_port, s.complete_sched,
    by rw [hpar]; rfl, by rw [hpar]; rfl⟩

/-- A Device that always acknowledges has no count to take down. -/
theorem Params.acked_of_none {p : Params} (h : p.acks = none) : p.acked = p := by
  obtain ⟨unbacked, acks, envWrites⟩ := p
  cases h
  rfl

/-- Settles O24: the Device is enabled, and completion is described by its direction, its address and `CTRL`, and its
frame. -/
theorem deviceCompletesOneTransaction : Obligations.DeviceCompletesOneTransaction := by
  unfold Obligations.DeviceCompletesOneTransaction
  intro d m s hl hc hw hb ha
  obtain ⟨-, hdir, rfl, -⟩ := fields_of_ctrl hc
  obtain ⟨haddr, hinc, hpar⟩ := s.complete_frame
  obtain ⟨heng, hbuf, hhost, hport, hsched, hunbacked, henv⟩ := s.complete_outside
  refine ⟨s.complete, exec_devComplete_of_start hl hc hb ha, ?_, ?_, haddr, hinc, s.complete_ctrl, heng, hbuf, hhost,
    hport, hsched, hunbacked, henv, fun hn => hpar.trans (Params.acked_of_none hn)⟩
  · rintro rfl
    exact ⟨State.complete_lanes_of_write hdir, State.complete_stores hdir hw⟩
  · rintro rfl
    exact ⟨State.complete_vpm_of_read hdir, State.complete_fetches hdir⟩

/-! ## A transaction from its start to its completion (R134, R135) -/

theorem controlStart_write (m : Mask) : controlStart .write m = 0x80 ||| m.setWidth 8 := by
  revert m; decide

/-- Completion of a write leaves its mask in `CTRL`. -/
theorem controlDone_start_write (m : Mask) : controlDone (controlStart .write m) = m.setWidth 8 := by
  revert m; decide

theorem controlDone_start_read : controlDone (controlStart .read fullMask) = 0x2F := by decide

theorem exec_executeWrite_of_idle {s : State} {m : Mask} (hm : m ≠ 0) (hr : s.hs.req = false) :
    exec (.executeWrite m) s = .next (s.startTransaction .write m) :=
  (if_neg hm).trans (State.whenIdleBus_of_idle hr)

/-- Settles O21: the start is one write of `CTRL`, and what the Device then does is `deviceCompletesOneTransaction`. -/
theorem writeTransactionStoresTheEnabledLanes : Obligations.WriteTransactionStoresTheEnabledLanes := by
  unfold Obligations.WriteTransactionStoresTheEnabledLanes
  intro m s hm hr hw hb ha
  obtain ⟨u, hu, hwrite, -, haddr, hinc, hctrl, heng, hbuf, hhost, hport, hsched, hunbacked, henv, -⟩ :=
    deviceCompletesOneTransaction .write m (s.startTransaction .write m) (transactionLegal_write hm) rfl hw hb ha
  obtain ⟨hlanes, hstored, hother⟩ := hwrite rfl
  refine ⟨s.startTransaction .write m, u, exec_executeWrite_of_idle hm hr, ?_, hu, hstored, hother, hlanes, hinc,
    hctrl.trans (controlDone_start_write m), haddr, heng, hbuf, hhost, hport, hsched, hunbacked, henv⟩
  rw [State.startTransaction, controlStart_write]
  rfl

/-- Settles O22: the start is one write of `CTRL`; completion of a read needs nothing of memory's form. -/
theorem readTransactionFillsAllFourLanes : Obligations.ReadTransactionFillsAllFourLanes := by
  unfold Obligations.ReadTransactionFillsAllFourLanes
  intro s hr hb ha
  have hdir : (s.startTransaction .read fullMask).hs.dir = .read := dir_start s.hs .read fullMask
  obtain ⟨haddr, hinc, -⟩ := (s.startTransaction .read fullMask).complete_frame
  exact ⟨s.startTransaction .read fullMask, _, State.whenIdleBus_of_idle hr, rfl,
    exec_devComplete_of_start rfl rfl hb ha, State.complete_fetches hdir, State.complete_vpm_of_read hdir, hinc,
    (State.complete_ctrl _).trans controlDone_start_read, haddr, State.complete_outside _⟩

/-! ## The ports during the wait (R136, R192) -/

theorem State.runWordsWhenFree_of_blocked {s : State} (hb : s.blocked = true) : s.runWordsWhenFree = .next s := if_pos hb

/-- During the wait a request or an interrupt-mask word stays at its port, and so does, once the transaction is complete, a
register word that is no poll's. -/
theorem State.presentTurn_waits {s : State} {w : PortWord} {rest : List PortItem} (hp : s.eng.phase = .idle)
    (hb : s.blocked = true) (hq : s.port.issue = .word w :: rest) (hw : w.format ≠ .ctrl8)
    (hreg : w.format ≠ .hsev13 ∨
      s.hs.req = false ∧ ∃ i r, decode (frontWords s.port.issue) = .ok (i, r) ∧ i ≠ .pollCtrl) :
    s.presentTurn = .next s := by
  cases w with
  | req33 w => rw [State.presentTurn_req33 hq, if_pos hp, State.runWordsWhenFree_of_blocked hb]
  | ieev1 w => rw [State.presentTurn_ieev1 hq hp, State.runWordsWhenFree_of_blocked hb]
  | ctrl8 c => exact absurd rfl hw
  | hsev13 w =>
    rcases hreg with hn | ⟨hr, i, r, hd, hi⟩
    · exact absurd rfl hn
    · rw [State.presentTurn_hsev13 hq hp, State.runRegisterWords_held hd hi hr hb]

/-- A request presented between requests during the wait is not accepted. -/
theorem exec_request_of_blocked {s : State} (d : Dir) (a : VpAddr) (l : Len) (hp : s.eng.phase = .idle)
    (hb : s.blocked = true) : exec (requestInstr d a l) s = .next s := by
  cases d <;> exact State.accept_blocked _ a l hp hb

/-- Settles O7: the ports' turn leaves such words where they are, a poll runs by `stepRunsThePresentedWords`, and acceptance asks
whether the Engine waits. -/
theorem portsWaitForTheTransaction : Obligations.PortsWaitForTheTransaction := by
  unfold Obligations.PortsWaitForTheTransaction
  intro s hp hb
  refine ⟨fun w rest hn hq hw hreg => ?_, fun rest hn hq => ?_, fun d a l => exec_request_of_blocked d a l hp hb⟩
  · exact (step_of_turn hn).trans (State.presentTurn_waits (s := s.popTurn) hp hb hq hw hreg)
  · obtain ⟨hports, -⟩ := stepRunsThePresentedWords
    rw [hports s .pollCtrl rest hn hq nofun (.inl ⟨hp, .inr (.inr rfl)⟩)]
    exact pollReturnsCtrlAndEndsTheWait (s.popTurn.setIssue rest)

end Sys2Proof.Machine

/-! PROOFS. How far a request reaches (R160): its last transaction is in the slot of its last byte. -/

namespace Sys2Proof.Machine

variable (a : VpAddr) (l : Len)

/-- The slots of a plan lie no higher than the one of the request's last byte. -/
theorem slot_toNat_le_of_mem_plan {p : Shape} (h : p ∈ plan a l) : p.slot.toNat ≤ requestByte a (l.toNat - 1) / 4 := by
  have hl : l ≠ 0 := by
    rintro rfl
    rw [plan_zero] at h
    exact absurd h List.not_mem_nil
  obtain ⟨-, hslots, -⟩ := planCarriesEveryByteOnce a l
  have hmem : p.slot ∈ (plan a l).map Shape.slot := List.mem_map_of_mem h
  rw [hslots hl] at hmem
  obtain ⟨i, hi, hslot⟩ := List.mem_map.mp hmem
  have hrange := List.mem_range'_1.mp hi
  have hle : p.slot.toNat ≤ i := by rw [← hslot, BitVec.toNat_ofNat]; exact Nat.mod_le ..
  omega

/-- The last transaction of a request is in the slot of its last byte. -/
theorem getLast?_plan_slot (hl : l ≠ 0) :
    (plan a l).getLast?.map Shape.slot = some (slotOfByte (requestByte a (l.toNat - 1))) := by
  have hlen := plan_length_eq_slots a l hl
  have hpos : (plan a l).length ≠ 0 := by
    obtain ⟨-, hzero, -⟩ := planHasTheStatedLength a l
    exact mt hzero.mp hl
  have hend : planFirst a + (plan a l).length - 1 = requestByte a (l.toNat - 1) / 4 := by
    simp only [planFirst]; omega
  rw [← List.getLast?_map, plan_slots a l hl, slotsFrom, List.getLast?_map, List.getLast?_range', if_neg hpos,
    Option.map_some, slotOfByte, hend]

/-- The first whole slot is at most `0x008000`, and the address moves on by at most `0x004000` from there. -/
theorem planFinalAddr_toNat_le : (planFinalAddr a l).toNat ≤ 0x00C000 := by
  have ha := a.isLt
  have hl := l.isLt
  have hsum := planHead_add_planBulk_add_planTail a l
  rw [planFinalAddr, BitVec.toNat_ofNat]
  refine (Nat.mod_le ..).trans ?_
  simp only [planStart, planFirst, planOdd]
  split <;> omega

/-- Settles O49: a request's last byte is at most linear byte `2 * 0xFFFF + 65534`, in slot `0x00BFFF`, and the largest
request from `0xFFFF` gets there. -/
theorem plannedSlotsAreBounded : Obligations.PlannedSlotsAreBounded := by
  unfold Obligations.PlannedSlotsAreBounded
  refine ⟨fun a l => ⟨fun p hp => ?_, planFinalAddr_toNat_le a l⟩, ?_, by decide⟩
  · have ha := a.isLt
    have hl := l.isLt
    have hle := slot_toNat_le_of_mem_plan a l hp
    simp only [requestByte] at hle
    omega
  · rw [getLast?_plan_slot _ _ (by decide)]
    rfl

end Sys2Proof.Machine

/-! PROOFS. The bytes a pass moves: `Transferred` says of a place in a request that its first bytes have been moved and no
other byte has changed, in either direction, and a pass whose shape lies where the request's bytes do carries it on
(R80, R81, R171, R181). -/

namespace Sys2Proof.Machine

variable {d : Dir} {a : VpAddr} {l : Len} {b : List Byte} {m : Memory}

/-! ## The linear bytes of a shape (R64, R72) -/

/-- The bytes of a request have linear addresses (R160). -/
theorem requestByte_lt {k : Nat} (hk : k < 2 ^ 16) : requestByte a k < Config.vpmBytes := by
  have ha := a.isLt
  simp only [requestByte, Config.vpmBytes]
  omega

/-- The `j`-th lane of a shape holds the `j`-th byte it carries. -/
theorem Shape.LiesIn.laneAddr_eq {p : Shape} (h : p.LiesIn a) (hlt : p.first + p.count ≤ 2 ^ 16) {j : Nat} {x : Lane}
    (hx : (maskLanes p.lanes)[j]? = some x) : j < p.count ∧ laneAddr p.slot x = requestByte a (p.first + j) := by
  have hj : j < p.count := by
    obtain ⟨hj, -⟩ := List.getElem?_eq_some_iff.mp hx
    rwa [h.lanes_length] at hj
  obtain ⟨hslot, hlane⟩ := h.byte hj
  have hxeq : x = laneOfByte (requestByte a (p.first + j)) := Option.some.inj (hx.symm.trans hlane)
  exact ⟨hj, by rw [hxeq, hslot, laneAddr_of_byte _ (requestByte_lt (by omega))]⟩

theorem Shape.LiesIn.exists_lane {p : Shape} (h : p.LiesIn a) {j : Nat} (hj : j < p.count) :
    ∃ x, (maskLanes p.lanes)[j]? = some x :=
  ⟨_, (h.byte hj).2⟩

/-- Storing a shape's lanes writes its payload over the bytes it carries (R80). -/
theorem Shape.LiesIn.read_storeLanes {p : Shape} (h : p.LiesIn a) (hlt : p.first + p.count ≤ 2 ^ 16) (hm : m.wf = true)
    (q : Lanes) {j : Nat} (hj : j < p.count) :
    some ((m.storeLanes p.slot p.lanes q).read (requestByte a (p.first + j))) = ((maskLanes p.lanes).map q.get)[j]? := by
  obtain ⟨x, hx⟩ := h.exists_lane hj
  obtain ⟨-, haddr⟩ := h.laneAddr_eq hlt hx
  have henabled : laneEnabled p.lanes x = true := mem_maskLanes.mp (List.mem_of_getElem? hx)
  rw [← haddr, Memory.read_storeLanes_enabled hm _ _ _ _ henabled, List.getElem?_map, hx, Option.map_some]

/-- Storing a shape's lanes leaves every byte alone that the shape does not carry (R80). -/
theorem Shape.LiesIn.read_storeLanes_other {p : Shape} (h : p.LiesIn a) (hlt : p.first + p.count ≤ 2 ^ 16)
    (hm : m.wf = true) (q : Lanes) {y : Nat} (hy : ∀ j, j < p.count → y ≠ requestByte a (p.first + j)) :
    (m.storeLanes p.slot p.lanes q).read y = m.read y := by
  refine Memory.read_storeLanes_other hm _ _ _ _ fun x hx => ?_
  obtain ⟨j, hj⟩ := List.mem_iff_getElem?.mp (mem_maskLanes.mpr hx)
  obtain ⟨hlt', haddr⟩ := h.laneAddr_eq hlt hj
  rw [haddr]
  exact hy j hlt'

/-! ## What extracting lanes does to the buffer (R181) -/

/-- Extraction leaves the rest of the buffer alone. -/
theorem Shared.getElem?_moves_read_other (ls : List Lane) : ∀ (c : Shared) (off : Nat) {i : Nat},
    i < c.eng.idx.toNat + off ∨ c.eng.idx.toNat + off + ls.length ≤ i → (c.moves .read off ls).buf[i]? = c.buf[i]? := by
  induction ls with
  | nil => exact fun _ _ _ _ => rfl
  | cons x ls ih =>
    intro c off i hi
    rw [List.length_cons] at hi
    have hrest : ((c.move .read x off).moves .read (off + 1) ls).buf[i]? = (c.move .read x off).buf[i]? :=
      ih _ _ (by rw [(c.move_moved .read x off).eng]; omega)
    exact hrest.trans (List.getElem?_set_ne (by omega))

/-- Extraction fills the buffer with the lanes, in order. -/
theorem Shared.getElem?_moves_read (ls : List Lane) : ∀ (c : Shared) (off : Nat),
    c.eng.idx.toNat + off + ls.length ≤ c.buf.length → ∀ {j : Nat} {x : Lane}, ls[j]? = some x →
    (c.moves .read off ls).buf[c.eng.idx.toNat + off + j]? = some (c.lanes.get x) := by
  induction ls with
  | nil => exact fun _ _ _ _ _ hx => nomatch hx
  | cons y ls ih =>
    intro c off hlen j x hx
    rw [List.length_cons] at hlen
    have hmoved := c.move_moved .read y off
    cases j with
    | zero =>
      obtain rfl : y = x := Option.some.inj hx
      have hrest : ((c.move .read y off).moves .read (off + 1) ls).buf[c.eng.idx.toNat + off]? =
          (c.move .read y off).buf[c.eng.idx.toNat + off]? :=
        Shared.getElem?_moves_read_other ls _ _ (.inl (by rw [hmoved.eng]; omega))
      exact hrest.trans (List.getElem?_set_self (by omega))
    | succ j =>
      have hrest := ih (c.move .read y off) (off + 1) (by rw [hmoved.eng, hmoved.length]; omega) (j := j) hx
      rw [hmoved.eng, show c.eng.idx.toNat + (off + 1) + j = c.eng.idx.toNat + off + (j + 1) by omega] at hrest
      exact hrest

/-! ## What a pass does to the bytes -/

/-- A write pass stores the lanes it staged. -/
theorem Shared.pass_write_vpm (c : Shared) (k : Mask) :
    (c.pass .write k).vpm = c.vpm.storeLanes c.addr k (c.moves .write 0 (maskLanes k)).lanes := by
  have h := Shared.moves_moved .write (maskLanes k) c 0
  show (c.moves .write 0 (maskLanes k)).vpm.storeLanes (c.moves .write 0 (maskLanes k)).addr k _ = _
  rw [h.vpm, h.addr]

theorem Shared.pass_write_buf (c : Shared) (k : Mask) : (c.pass .write k).buf = c.buf :=
  (Shared.moves_moved .write (maskLanes k) c 0).buf rfl

theorem Shared.pass_read_vpm (c : Shared) (k : Mask) : (c.pass .read k).vpm = c.vpm :=
  (Shared.moves_moved .read (maskLanes k) c.fetched 0).vpm

section
variable {c : Shared} {k : Mask} {n : Nat}

/-- A write pass stores its bytes of the buffer at their linear addresses. -/
theorem Shared.read_pass_write (hp : (c.shape k n).LiesIn a) (hlt : c.eng.idx.toNat + n ≤ 2 ^ 16)
    (hlen : c.eng.idx.toNat + n ≤ c.buf.length) (hwf : c.vpm.wf = true) {j : Nat} (hj : j < n) :
    some ((c.pass .write k).vpm.read (requestByte a (c.eng.idx.toNat + j))) = c.buf[c.eng.idx.toNat + j]? := by
  have hcount : (maskLanes k).length = n := hp.lanes_length
  have hpayload := c.map_get_moves (maskLanes k) 0 (maskLanes_nodup k) (by omega)
  rw [Shared.pass_write_vpm]
  refine (hp.read_storeLanes hlt hwf _ hj).trans ?_
  show ((maskLanes k).map _)[j]? = _
  rw [hpayload, hcount, List.getElem?_take_of_lt hj, List.getElem?_drop, Nat.add_zero]

theorem Shared.read_pass_write_other (hp : (c.shape k n).LiesIn a) (hlt : c.eng.idx.toNat + n ≤ 2 ^ 16)
    (hwf : c.vpm.wf = true) {y : Nat} (hy : ∀ j, j < n → y ≠ requestByte a (c.eng.idx.toNat + j)) :
    (c.pass .write k).vpm.read y = c.vpm.read y := by
  rw [Shared.pass_write_vpm]
  exact hp.read_storeLanes_other hlt hwf _ hy

/-- A read pass fills its bytes of the buffer from their linear addresses. -/
theorem Shared.getElem?_pass_read (hp : (c.shape k n).LiesIn a) (hlt : c.eng.idx.toNat + n ≤ 2 ^ 16)
    (hlen : c.eng.idx.toNat + n ≤ c.buf.length) {j : Nat} (hj : j < n) :
    (c.pass .read k).buf[c.eng.idx.toNat + j]? = some (c.vpm.read (requestByte a (c.eng.idx.toNat + j))) := by
  have hcount : (maskLanes k).length = n := hp.lanes_length
  obtain ⟨x, hx⟩ := hp.exists_lane hj
  obtain ⟨-, haddr⟩ := hp.laneAddr_eq hlt hx
  have hfill := c.fetched.getElem?_moves_read (maskLanes k) 0 (by rw [hcount]; exact hlen) hx
  refine hfill.trans (congrArg some ?_)
  exact (Memory.get_slot ..).trans (congrArg c.vpm.read haddr)

theorem Shared.getElem?_pass_read_other (hp : (c.shape k n).LiesIn a) {i : Nat}
    (hi : i < c.eng.idx.toNat ∨ c.eng.idx.toNat + n ≤ i) : (c.pass .read k).buf[i]? = c.buf[i]? := by
  have hcount : (maskLanes k).length = n := hp.lanes_length
  exact c.fetched.getElem?_moves_read_other (maskLanes k) 0 (by rw [hcount]; exact hi)

end

/-! ## Bytes moved so far -/

/-- The first `n` bytes of the buffer are stored, and no other byte of memory has changed. -/
structure Shared.Stored (a : VpAddr) (b : List Byte) (m : Memory) (n : Nat) (c : Shared) : Prop where
  wf : c.vpm.wf = true
  buf : c.buf = b
  inside : ∀ k, k < n → some (c.vpm.read (requestByte a k)) = b[k]?
  outside : ∀ x, ¬(requestByte a 0 ≤ x ∧ x < requestByte a n) → c.vpm.read x = m.read x

/-- The first `n` bytes are fetched into the buffer, and no other byte of the buffer has changed. -/
structure Shared.Filled (a : VpAddr) (b : List Byte) (m : Memory) (n : Nat) (c : Shared) : Prop where
  vpm : c.vpm = m
  length : c.buf.length = b.length
  inside : ∀ k, k < n → c.buf[k]? = some (m.read (requestByte a k))
  outside : ∀ k, n ≤ k → c.buf[k]? = b[k]?

/-- What a request of either direction has moved. -/
def Shared.Transferred (d : Dir) (a : VpAddr) (b : List Byte) (m : Memory) (n : Nat) (c : Shared) : Prop :=
  match d with
  | .write => c.Stored a b m n
  | .read => c.Filled a b m n

theorem Shared.Transferred.of_eq {n : Nat} {c c' : Shared} (h : c.Transferred d a b m n) (hvpm : c'.vpm = c.vpm)
    (hbuf : c'.buf = c.buf) : c'.Transferred d a b m n := by
  cases d with
  | write =>
    obtain ⟨hwf, hb, hin, hout⟩ := h
    exact ⟨by rw [hvpm, hwf], by rw [hbuf, hb], by rwa [hvpm], by rwa [hvpm]⟩
  | read =>
    obtain ⟨hm, hlen, hin, hout⟩ := h
    exact ⟨by rw [hvpm, hm], by rw [hbuf, hlen], by rwa [hbuf], by rwa [hbuf]⟩

/-- A write pass carries the storing on. -/
theorem Shared.Stored.pass {c : Shared} {k : Mask} {n : Nat} (h : c.Stored a b m c.eng.idx.toNat)
    (hp : (c.shape k n).LiesIn a) (hlt : c.eng.idx.toNat + n ≤ 2 ^ 16) (hlen : c.eng.idx.toNat + n ≤ c.buf.length) :
    (c.pass .write k).Stored a b m (c.eng.idx.toNat + n) := by
  obtain ⟨hwf, hbuf, hin, hout⟩ := h
  refine
    { wf := ?_, buf := (c.pass_write_buf k).trans hbuf, inside := fun i hi => ?_, outside := fun x hx => ?_ }
  · rw [Shared.pass_write_vpm]; exact Memory.wf_storeLanes _ _ _ hwf
  · by_cases hi' : i < c.eng.idx.toNat
    · rw [Shared.read_pass_write_other hp hlt hwf fun j _ => by simp only [requestByte]; omega]
      exact hin i hi'
    · obtain ⟨j, rfl⟩ := Nat.exists_eq_add_of_le (Nat.le_of_not_lt hi')
      rw [Shared.read_pass_write hp hlt hlen hwf (by omega), hbuf]
  · simp only [requestByte] at hx
    rw [Shared.read_pass_write_other hp hlt hwf fun j _ => by simp only [requestByte]; omega]
    exact hout x (by simp only [requestByte]; omega)

/-- A read pass carries the filling on. -/
theorem Shared.Filled.pass {c : Shared} {k : Mask} {n : Nat} (h : c.Filled a b m c.eng.idx.toNat)
    (hp : (c.shape k n).LiesIn a) (hlt : c.eng.idx.toNat + n ≤ 2 ^ 16) (hlen : c.eng.idx.toNat + n ≤ c.buf.length) :
    (c.pass .read k).Filled a b m (c.eng.idx.toNat + n) := by
  obtain ⟨hvpm, hlength, hin, hout⟩ := h
  have hcarried := c.pass_carried .read k n
  refine
    { vpm := (c.pass_read_vpm k).trans hvpm, length := hcarried.length.trans hlength, inside := fun i hi => ?_,
      outside := fun i hi => ?_ }
  · by_cases hi' : i < c.eng.idx.toNat
    · rw [Shared.getElem?_pass_read_other hp (.inl hi')]
      exact hin i hi'
    · obtain ⟨j, rfl⟩ := Nat.exists_eq_add_of_le (Nat.le_of_not_lt hi')
      rw [Shared.getElem?_pass_read hp hlt hlen (by omega), hvpm]
  · rw [Shared.getElem?_pass_read_other hp (.inr hi)]
    exact hout i (by omega)

theorem Shared.Transferred.pass {c : Shared} {k : Mask} {n : Nat} (h : c.Transferred d a b m c.eng.idx.toNat)
    (hp : (c.shape k n).LiesIn a) (hlt : c.eng.idx.toNat + n ≤ 2 ^ 16) (hlen : c.eng.idx.toNat + n ≤ c.buf.length) :
    (c.pass d k).Transferred d a b m (c.eng.idx.toNat + n) := by
  cases d with
  | write => exact Shared.Stored.pass h hp hlt hlen
  | read => exact Shared.Filled.pass h hp hlt hlen

end Sys2Proof.Machine

/-! PROOFS. Requests of either direction, from acceptance to `done`: each pass moves the next bytes, and the registers are
left as R161 says. -/

namespace Sys2Proof.Machine

variable {d : Dir} {a : VpAddr} {l : Len} {b : List Byte} {m : Memory}

/-! ## Between two passes and at the end -/

/-- Every run that shows `c` shows `c'` after the same number of steps, and nothing of it is seen outside. -/
def Reaches (B : SlotAddr → Prop) (c c' : Shared) : Prop := ∃ D, Issues B D c c'

theorem Reaches.trans {B : SlotAddr → Prop} {c c' c'' : Shared} (h : Reaches B c c') (h' : Reaches B c' c'') :
    Reaches B c c'' := by
  obtain ⟨D, h⟩ := h
  obtain ⟨E, h'⟩ := h'
  exact ⟨D ++ E, h.trans h'⟩

/-- The place in the plan, with the address at the slot that comes next, whether the request names it or not, and the bytes
counted so far moved. -/
structure Shared.InTransfer (d : Dir) (a : VpAddr) (l : Len) (b : List Byte) (m : Memory) (j : Nat) (c : Shared) : Prop where
  plan : c.InPlan d a l b m j
  addr : c.addr = BitVec.ofNat 24 (planStart a + j)
  moved : c.Transferred d a b m c.eng.idx.toNat

/-- After the last pass: the bytes are moved, and the registers are R161's. -/
structure Shared.Ended (d : Dir) (a : VpAddr) (l : Len) (b : List Byte) (m : Memory) (c : Shared) : Prop where
  released : c.AtReleased
  addr : c.addr = planFinalAddr a l
  inc : c.inc = planFinalAutoInc a l
  idx : c.eng.idx = l
  rem : c.eng.rem = 0
  moved : c.Transferred d a b m l.toNat

/-! ## The passes (R173, R174, R183, R184) -/

theorem bulkShape_mem {j : Nat} (h : j < planBulk a l) : bulkShape a l j ∈ bulkShapes a l :=
  List.mem_map_of_mem (List.mem_range.mpr h)

/-- After a pass through `BulkLoop` and the step to the next slot. -/
def Shared.afterBulk (c : Shared) (d : Dir) : Shared := ((c.atBulk.pass d fullMask).consume 4).nextSlot

theorem Shared.InTransfer.afterBulk {c : Shared} {j : Nat} (h : c.InTransfer d a l b m j) (hr : 4 ≤ c.eng.rem.toNat) :
    (c.afterBulk d).InTransfer d a l b m (j + 1) ∧ (c.afterBulk d).eng.rem.toNat = c.eng.rem.toNat - 4 := by
  obtain ⟨hplan, haddr, hmoved⟩ := h
  have hl := l.isLt
  have hcount := hplan.between.count
  have hcover := hplan.between.cover
  have hidx := hplan.idx
  have hleft := hplan.rem_eq
  have hlt := planTail_lt a l
  have hcarried := c.atBulk.pass_carried d fullMask 4
  obtain ⟨hbetween, hrem⟩ := hplan.between.afterBulk hr hcarried
  have hcount' := hbetween.count
  have hidx' : (c.afterBulk d).eng.idx.toNat = c.eng.idx.toNat + 4 := by
    simp only [Shared.afterBulk]; omega
  have hlies : (c.atBulk.shape fullMask 4).LiesIn a := by
    rw [hplan.shape_atBulk (by omega)]
    exact liesIn_of_mem_bulkShapes (bulkShape_mem (l := l) (by omega))
  have hsource : c.atBulk.Source d b m := hplan.source.of_eq rfl rfl
  have hbytes : c.atBulk.Transferred d a b m c.atBulk.eng.idx.toNat := hmoved.of_eq rfl rfl
  refine ⟨⟨⟨hbetween, by omega, ?_, (hsource.pass fullMask).of_eq rfl rfl⟩, ?_, ?_⟩, hrem⟩
  · exact hcarried.inc.trans (congrArg autoIncValue (decide_eq_true (Nat.le_add_left 1 j)).symm)
  · show ((c.atBulk.pass d fullMask).consume 4).addr = _
    rw [hcarried.addr, Shared.nextAddr_of_on rfl]
    show c.addr + 1 = _
    rw [haddr]
    exact (BitVec.ofNat_add ..).symm
  · rw [hidx']
    exact (hbytes.pass hlies (by show c.eng.idx.toNat + 4 ≤ 2 ^ 16; omega)
      (by show c.eng.idx.toNat + 4 ≤ c.buf.length; omega)).of_eq rfl rfl

theorem Shared.Between.reaches_bulk {c : Shared} (h : c.Between d a l) (hr : 4 ≤ c.eng.rem.toNat) :
    Reaches (Touched a l) (c.goOn []) ((c.afterBulk d).goOn []) := by
  have hcount := h.count
  have hcover := h.cover
  exact ⟨_, (issues_bulkLines c.atBulk d (h.touched (by omega))
    (by show c.eng.idx.toNat + 4 ≤ c.buf.length; omega)).after (h.issues_enterBulk hr)⟩

/-- After the tail, in `Released`. -/
def Shared.afterTail (c : Shared) (d : Dir) : Shared :=
  (((c.enter .tail []).pass d (tailMask c.eng.rem.toNat)).consume c.eng.rem.toNat).enter .released releasedLines

theorem Shared.Between.reaches_tail {c : Shared} (h : c.Between d a l) (hr : c.eng.rem.toNat < 4)
    (h0 : c.eng.rem.toNat ≠ 0) : Reaches (Touched a l) (c.goOn []) (c.afterTail d) := by
  have hcount := h.count
  have hcover := h.cover
  have henter : Issues (Touched a l) [] (c.goOn []) (c.enter .tail (tailLines d c.eng.rem.toNat)) :=
    issues_leavePhase c nofun fun s hp hop hvp hrem => by
      rw [State.leavePhase_byRem (by rw [hp, hvp, h.vp]; exact h.phase),
        State.enterByRem_tail (by rw [hrem]; exact hr) (by rw [hrem]; exact h0), hop, hrem, h.op]
  have hpass := issues_tailLines (c.enter .tail []) d h0 hr (h.touched h0)
    (by show c.eng.idx.toNat + _ ≤ c.buf.length; omega)
  have hcarried := (c.enter .tail []).pass_carried d (tailMask c.eng.rem.toNat) c.eng.rem.toNat
  have hleave := issues_leavePhase (B := Touched a l) _ (p := .released) (q := releasedLines) nofun fun s hp _ _ _ => by
    have htail : s.eng.phase = .tail := by rw [hp, hcarried.eng]; rfl
    simp only [State.leavePhase, htail]
  exact ⟨_, (hpass.after henter).before hleave⟩

/-- With one to three bytes left the tail moves them, and the address moves on if the toggle is on (R161). -/
theorem Shared.InTransfer.ended_afterTail {c : Shared} {j : Nat} (h : c.InTransfer d a l b m j) (hr : c.eng.rem.toNat < 4)
    (h0 : c.eng.rem.toNat ≠ 0) : (c.afterTail d).Ended d a l b m := by
  obtain ⟨hplan, haddr, hmoved⟩ := h
  have hl := l.isLt
  have hcount := hplan.between.count
  have hcover := hplan.between.cover
  have hleft := hplan.rem_eq
  have hlt := planTail_lt a l
  have hj : j = planBulk a l := by omega
  have hcarried := (c.enter .tail []).pass_carried d (tailMask c.eng.rem.toNat) c.eng.rem.toNat
  obtain ⟨hidx', hrem'⟩ := Shared.consume_toNat (c := c.enter .tail []) (n := c.eng.rem.toNat) le_rfl
    (by show c.eng.idx.toNat + c.eng.rem.toNat < 2 ^ 16; omega)
  have hlies : ((c.enter .tail []).shape (tailMask c.eng.rem.toNat) c.eng.rem.toNat).LiesIn a := by
    refine liesIn_of_mem_tailShapes (l := l) ?_
    rw [hplan.tailShapes_eq hr h0]
    exact List.mem_singleton_self _
  have hbytes : (c.enter .tail []).Transferred d a b m (c.enter .tail []).eng.idx.toNat := hmoved.of_eq rfl rfl
  refine { released := rfl, addr := ?_, inc := ?_, idx := ?_, rem := ?_, moved := ?_ }
  · show (((c.enter .tail []).pass d _).consume c.eng.rem.toNat).addr = _
    rw [hcarried.addr]
    show (if c.inc.getLsbD 0 then c.addr + 1 else c.addr) = _
    rw [hplan.inc, autoIncValue_getLsbD_zero, haddr, planFinalAddr, ← hj]
    by_cases h1 : 1 ≤ j
    · rw [if_pos (decide_eq_true h1), if_pos ⟨h1, by omega⟩]
      exact (BitVec.ofNat_add ..).symm
    · rw [if_neg (by simp [h1]), if_neg (by omega), Nat.add_zero]
  · refine hcarried.inc.trans (hplan.inc.trans ?_)
    rw [planFinalAutoInc, hj]
  · refine BitVec.eq_of_toNat_eq ?_
    show (((c.enter .tail []).pass d _).consume c.eng.rem.toNat).eng.idx.toNat = _
    rw [hcarried.eng, hidx']
    exact hcount
  · refine BitVec.eq_of_toNat_eq ?_
    show (((c.enter .tail []).pass d _).consume c.eng.rem.toNat).eng.rem.toNat = _
    rw [hcarried.eng, hrem']
    exact Nat.sub_self _
  · rw [← hcount]
    exact (hbytes.pass hlies (by show c.eng.idx.toNat + _ ≤ 2 ^ 16; omega)
      (by show c.eng.idx.toNat + _ ≤ c.buf.length; omega)).of_eq rfl rfl

theorem Shared.Between.reaches_released {c : Shared} (h : c.Between d a l) (hr : c.eng.rem.toNat = 0) :
    Reaches (Touched a l) (c.goOn []) (c.enter .released releasedLines) := by
  refine ⟨[], issues_leavePhase c nofun fun s hp _ hvp hrem => ?_⟩
  rw [State.leavePhase_byRem (by rw [hp, hvp, h.vp]; exact h.phase), State.enterByRem_released (by rw [hrem, hr])]

/-- With no byte left the request is over, and the registers stay. -/
theorem Shared.InTransfer.ended_released {c : Shared} {j : Nat} (h : c.InTransfer d a l b m j)
    (hr : c.eng.rem.toNat = 0) : (c.enter .released releasedLines).Ended d a l b m := by
  obtain ⟨hplan, haddr, hmoved⟩ := h
  have hcount := hplan.between.count
  have hleft := hplan.rem_eq
  have hlt := planTail_lt a l
  have hj : j = planBulk a l := by omega
  have hidx : c.eng.idx.toNat = l.toNat := by omega
  refine
    { released := rfl, addr := haddr.trans ?_, inc := hplan.inc.trans ?_, idx := BitVec.eq_of_toNat_eq hidx,
      rem := BitVec.eq_of_toNat_eq hr, moved := ?_ }
  · rw [planFinalAddr, if_neg (by omega), Nat.add_zero, hj]
  · rw [planFinalAutoInc, hj]
  · rw [← hidx]; exact hmoved.of_eq rfl rfl

/-- From between two passes the request gets to its end, by induction on the bytes left. -/
theorem Shared.InTransfer.reaches_end {c : Shared} {j : Nat} (h : c.InTransfer d a l b m j) :
    ∃ c' : Shared, c'.Ended d a l b m ∧ Reaches (Touched a l) (c.goOn []) c' := by
  have hbetween := h.plan.between
  by_cases h4 : 4 ≤ c.eng.rem.toNat
  · obtain ⟨hnext, hrem⟩ := h.afterBulk h4
    obtain ⟨c', hc', hrest⟩ := hnext.reaches_end
    exact ⟨c', hc', (hbetween.reaches_bulk h4).trans hrest⟩
  · by_cases h0 : c.eng.rem.toNat = 0
    · exact ⟨_, h.ended_released h0, hbetween.reaches_released h0⟩
    · exact ⟨_, h.ended_afterTail (by omega) h0, hbetween.reaches_tail (by omega) h0⟩
termination_by c.eng.rem.toNat

/-! ## The start (R172, R182, R194) -/

theorem slotOfVp_eq_ofNat (a : VpAddr) : slotOfVp a = BitVec.ofNat 24 (planFirst a) := by
  rw [planFirst, ← slotOfVp_toNat, BitVec.ofNat_toNat, BitVec.setWidth_eq]

/-- Before the first pass no byte is moved. -/
theorem Shared.start_transferred (hm : d = .write → m.wf = true) : (Shared.start d a l m b).Transferred d a b m 0 := by
  cases d with
  | write => exact ⟨hm rfl, rfl, nofun, fun _ _ => rfl⟩
  | read => exact ⟨rfl, rfl, nofun, fun _ _ => rfl⟩

theorem Shared.start_inTransfer (ha : vpIsOdd a = false) (hb : l.toNat ≤ b.length) (hm : d = .write → m.wf = true) :
    (Shared.start d a l m b).InTransfer d a l b m 0 := by
  refine ⟨Shared.start_inPlan m ha hb, ?_, Shared.start_transferred hm⟩
  have heven : planOdd a = 0 := by rw [planOdd, toNat_mod_two, ha]; rfl
  rw [planStart, heven]
  exact slotOfVp_eq_ofNat a

/-- Where the head starts. -/
def Shared.atHead (d : Dir) (a : VpAddr) (l : Len) (m : Memory) (b : List Byte) : Shared :=
  (Shared.start d a l m b).enter .partialHead []

/-- After the head and the step to the first whole slot. -/
def Shared.afterHead (d : Dir) (a : VpAddr) (l : Len) (m : Memory) (b : List Byte) : Shared :=
  (((Shared.atHead d a l m b).pass d (headMask (min l.toNat 2))).consume (min l.toNat 2)).nextSlot.aim

theorem Shared.start_reaches_head (ha : vpIsOdd a = true) (hl : l ≠ 0) (hb : l.toNat ≤ b.length) :
    Reaches (Touched a l) ((Shared.start d a l m b).goOn []) ((Shared.afterHead d a l m b).goOn []) := by
  have hpos : l.toNat ≠ 0 := fun h => hl (BitVec.eq_of_toNat_eq h)
  have henter : Issues (Touched a l) [] ((Shared.start d a l m b).goOn [])
      ((Shared.start d a l m b).enter .partialHead (headLines d (min l.toNat 2))) :=
    issues_leavePhase _ nofun fun s hp hop hvp hrem => by
      have hp' : s.eng.phase = .addressSet := hp
      have ho : vpIsOdd s.eng.vp = true := by rw [hvp]; exact ha
      simp only [State.leavePhase, hp', ho, if_true, hop, hrem]
      rfl
  have hpass := issues_headLines (Shared.atHead d a l m b) d (n := min l.toNat 2) (by omega) (by omega)
    (touched_first hl) (by show 0 + _ ≤ b.length; omega) (by show 0 + _ < 2 ^ 16; omega)
  exact ⟨_, hpass.after henter⟩

/-- From an odd start the head moves the bytes of the first VP word, or the one of length 1. -/
theorem Shared.afterHead_inTransfer (ha : vpIsOdd a = true) (hl : l ≠ 0) (hb : l.toNat ≤ b.length)
    (hm : d = .write → m.wf = true) : (Shared.afterHead d a l m b).InTransfer d a l b m 0 := by
  have hlt := l.isLt
  have hcarried := (Shared.atHead d a l m b).pass_carried d (headMask (min l.toNat 2)) (min l.toNat 2)
  have hodd : planOdd a = 1 := by rw [planOdd, toNat_mod_two, ha]; rfl
  have hlies : ((Shared.atHead d a l m b).shape (headMask (min l.toNat 2)) (min l.toNat 2)).LiesIn a := by
    refine liesIn_of_mem_headShapes (l := l) ?_
    rw [Shared.headShapes_eq (d := d) m b ha hl]
    exact List.mem_singleton_self _
  have hsource : (Shared.atHead d a l m b).Source d b m := (Shared.start_source d a l m b).of_eq rfl rfl
  have hbytes : (Shared.atHead d a l m b).Transferred d a b m 0 :=
    (Shared.start_transferred (l := l) hm).of_eq rfl rfl
  obtain ⟨hconsumed, -⟩ := Shared.consume_toNat (c := Shared.atHead d a l m b) (n := min l.toNat 2)
    (Nat.min_le_left ..) (by show 0 + l.toNat < 2 ^ 16; omega)
  have hidx : (Shared.afterHead d a l m b).eng.idx.toNat = 0 + min l.toNat 2 := by
    rw [Shared.afterHead, Shared.aim, Shared.nextSlot, hcarried.eng]
    exact hconsumed
  refine ⟨⟨Shared.between_afterHead ha hb hcarried, ?_, hcarried.inc, (hsource.pass _).of_eq rfl rfl⟩, ?_, ?_⟩
  · rw [hidx, planHead_of_odd a l ha]; omega
  · show (((Shared.atHead d a l m b).pass d _).consume (min l.toNat 2)).eng.slot + 1 = _
    rw [hcarried.eng, planStart, hodd]
    show slotOfVp a + 1 = _
    rw [slotOfVp_eq_ofNat]
    exact (BitVec.ofNat_add ..).symm
  · rw [hidx]
    exact (hbytes.pass hlies (by show 0 + _ ≤ 2 ^ 16; omega) (by show 0 + _ ≤ b.length; omega)).of_eq rfl rfl

/-- From `AddressSet` every request that does something gets to its end. -/
theorem Shared.start_reaches_end (hl : l ≠ 0) (hb : l.toNat ≤ b.length) (hm : d = .write → m.wf = true) :
    ∃ c : Shared, c.Ended d a l b m ∧ Reaches (Touched a l) ((Shared.start d a l m b).goOn []) c := by
  cases ha : vpIsOdd a with
  | false => exact (Shared.start_inTransfer ha hb hm).reaches_end
  | true =>
    obtain ⟨c, hc, hrest⟩ := (Shared.afterHead_inTransfer (d := d) (m := m) ha hl hb hm).reaches_end
    exact ⟨c, hc, (Shared.start_reaches_head ha hl hb).trans hrest⟩

/-! ## Whole requests (R175, R185, R206) -/

/-- What a request that ended leaves outside the bytes it moved: the host and the ports see `done` alone, and the registers
are R161's. -/
structure State.Completed (s t : State) (a : VpAddr) (l : Len) : Prop where
  host : t.host = s.host
  par : t.par = s.par
  sched : t.sched = []
  issue : t.port.issue = s.port.issue
  dones : t.port.dones = s.port.dones + 1
  phase : t.eng.phase = .idle
  rem : t.eng.rem = 0
  idx : t.eng.idx = l
  ctrl : t.hs.ctrl = 0
  addr : t.hs.addr = planFinalAddr a l
  autoInc : t.hs.autoInc = planFinalAutoInc a l

/-- The two lines of `Released` complete the request (R199). -/
theorem Shows.completed {B : SlotAddr → Prop} {c : Shared} {s u : State} (h : Shows B s.host.ie c u)
    (hc : c.Ended d a l b m) (hout : (s.accepted d a l).SameOutside u) :
    s.Completed (u.popLine.setCtrl 0).popLine.restoreInterrupts.giveDone a l := by
  obtain ⟨hhost, hpar, hissue, hdones⟩ := hout
  refine
    { host := ?_, par := hpar, sched := h.sched, issue := hissue, dones := congrArg (· + 1) hdones, phase := rfl,
      rem := ?_, idx := ?_, ctrl := rfl, addr := h.addr.trans hc.addr, autoInc := h.inc.trans hc.inc }
  · show { u.host with ie := u.eng.ieSaved } = s.host
    rw [hhost, h.eng]
    rfl
  · show u.eng.rem = 0
    rw [h.eng]; exact hc.rem
  · show u.eng.idx = l
    rw [h.eng]; exact hc.idx

/-- A request that nothing disturbs runs to its end with its bytes moved. -/
theorem request_completes {s : State} (d : Dir) (hq : s.Quiet) (hl : l ≠ 0) (hs : s.SlotsBacked a l)
    (hb : s.buf = some b) (hlen : l.toNat ≤ b.length) (hm : d = .write → s.vpm.wf = true) :
    ∃ n t, ∃ c : Shared, runN n (s.accepted d a l) = .next t ∧ c.Transferred d a b s.vpm l.toNat ∧ t.vpm = c.vpm ∧
      t.buf = some c.buf ∧ s.Completed t a l := by
  obtain ⟨k, t, hstart, hout, ht⟩ := State.accepted_runs d hq hs hb
  obtain ⟨c, hc, D, n, hreach⟩ := Shared.start_reaches_end (a := a) (d := d) hl hlen hm
  obtain ⟨u, hrun, hout', hu⟩ := hreach _ t ht
  obtain ⟨hend, -⟩ := (hstart.trans hrun).trans (hu.runIssues_released hc.released)
  exact ⟨_, _, c, hend, hc.moved, hu.vpm, hu.buf, hu.completed hc (hout.trans hout')⟩

/-- Settles O52: `request_completes` for a write. -/
theorem writeRequestStoresTheBuffer : Obligations.WriteRequestStoresTheBuffer := by
  unfold Obligations.WriteRequestStoresTheBuffer
  intro s a l b hq hl hwf hs hb hlen
  obtain ⟨n, t, c, hrun, hmoved, hvpm, hbuf, hdone⟩ := request_completes .write hq hl hs hb hlen fun _ => hwf
  obtain ⟨-, hbuf', hinside, houtside⟩ := hmoved
  rw [← hvpm] at hinside houtside
  exact ⟨_, n, t, exec_request (d := .write) hq hl, hrun, hinside, houtside, by rw [hbuf, hbuf', hb], hdone.host,
    hdone.par, hdone.sched, hdone.issue, hdone.dones, hdone.phase, hdone.rem, hdone.idx, hdone.ctrl, hdone.addr,
    hdone.autoInc⟩

/-- Settles O53: `request_completes` for a read. -/
theorem readRequestFillsTheBuffer : Obligations.ReadRequestFillsTheBuffer := by
  unfold Obligations.ReadRequestFillsTheBuffer
  intro s a l b hq hl hs hb hlen
  obtain ⟨n, t, c, hrun, hmoved, hvpm, hbuf, hdone⟩ := request_completes .read hq hl hs hb hlen nofun
  obtain ⟨hvpm', hlength, hinside, houtside⟩ := hmoved
  exact ⟨_, n, t, c.buf, exec_request (d := .read) hq hl, hrun, hbuf, hlength, hinside, houtside, hvpm.trans hvpm',
    hdone.host, hdone.par, hdone.sched, hdone.issue, hdone.dones, hdone.phase, hdone.rem, hdone.idx, hdone.ctrl,
    hdone.addr, hdone.autoInc⟩

end Sys2Proof.Machine

/-! PROOFS. The `slot` register and `HS.ADDR` (R173, R194, R195): their distance, followed through the lines of a phase and
through the steps of a request that nothing disturbs. -/

namespace Sys2Proof.Machine

/-! ## How far the address is ahead -/

/-- The distance after a transaction, by the auto-increment setting (R26). -/
def leadAfter (on : Bool) (δ : SlotAddr) : SlotAddr := if on then δ + 1 else δ

/-- How far `HS.ADDR` is ahead of the `slot` register, with an outstanding transaction counted as complete. -/
def State.lead (s : State) : SlotAddr :=
  if s.hs.req then leadAfter s.hs.advances (s.hs.addr - s.eng.slot) else s.hs.addr - s.eng.slot

theorem State.lead_of_req {s : State} (h : s.hs.req = true) :
    s.lead = leadAfter s.hs.advances (s.hs.addr - s.eng.slot) := if_pos h

theorem State.lead_of_not_req {s : State} (h : s.hs.req = false) : s.lead = s.hs.addr - s.eng.slot :=
  if_neg (by rw [h]; decide)

/-- With nothing outstanding the distance is 0 exactly where the two are equal. -/
theorem State.slot_eq_addr_iff {s : State} (h : s.hs.req = false) : s.eng.slot = s.hs.addr ↔ s.lead = 0 := by
  rw [State.lead_of_not_req h, sub_eq_zero, eq_comm]

/-- The completion of a transaction leaves the distance as it was counted. -/
theorem State.lead_complete {s : State} (h : s.hs.req = true) : s.complete.lead = s.lead := by
  obtain ⟨haddr, -, -⟩ := s.complete_frame
  rw [State.lead_of_not_req s.complete_req, State.lead_of_req h, haddr, s.complete_eng, leadAfter]
  split
  · exact add_sub_right_comm ..
  · rfl

theorem State.complete_advances (s : State) : s.complete.hs.advances = s.hs.advances := by
  obtain ⟨-, hinc, -⟩ := s.complete_frame
  rw [Handshake.advances, hinc, Handshake.advances]

/-! ## Lines -/

/-- Carrying the lines out from an auto-increment setting and a distance, every transaction starts with the distance 0, and
`Q` holds of the setting and the distance at the end. -/
def Tracks (Q : Bool → SlotAddr → Prop) : List Micro → Bool → SlotAddr → Prop
  | [], on, δ => Q on δ
  | .setSlot :: q, on, _ => ∀ δ, Tracks Q q on δ
  | .nextSlot :: q, on, δ => Tracks Q q on (δ - 1)
  | .target :: q, on, _ => Tracks Q q on 0
  | .autoInc v :: q, _, δ => Tracks Q q v δ
  | .executeWrite _ :: q, on, δ => δ = 0 ∧ Tracks Q q on (leadAfter on δ)
  | .executeRead :: q, on, δ => δ = 0 ∧ Tracks Q q on (leadAfter on δ)
  | .stage _ _ :: q, on, δ => Tracks Q q on δ
  | .extract _ _ :: q, on, δ => Tracks Q q on δ
  | .consume _ :: q, on, δ => Tracks Q q on δ
  | .release :: q, on, δ => Tracks Q q on δ
  | .finish :: q, on, δ => Tracks Q q on δ

variable {Q : Bool → SlotAddr → Prop}

/-- A line led here, and the lines `q` are left: they track, and a transaction, if one is outstanding, has just been started,
where the two are equal. -/
def State.LeftWith (Q : Bool → SlotAddr → Prop) (q : List Micro) (t : State) : Prop :=
  Tracks Q q t.hs.advances t.lead ∧ (t.hs.req = true → t.eng.waiting = true ∧ t.eng.slot = t.hs.addr)

theorem State.leftWith_of_not_req {t : State} {q : List Micro} (hr : t.hs.req = false)
    (h : Tracks Q q t.hs.advances (t.hs.addr - t.eng.slot)) : t.LeftWith Q q :=
  ⟨by rw [State.lead_of_not_req hr]; exact h, fun hc => nomatch hr.symm.trans hc⟩

theorem State.leftWith_startTransaction {s : State} {q : List Micro} (d : Dir) (k : Mask) (hr : s.hs.req = false)
    (h : s.lead = 0 ∧ Tracks Q q s.hs.advances (leadAfter s.hs.advances s.lead)) :
    (s.startTransaction d k).LeftWith Q q := by
  obtain ⟨hzero, hq⟩ := h
  have hreq : (s.startTransaction d k).hs.req = true := req_start s.hs d k
  rw [State.lead_of_not_req hr] at hq
  refine ⟨?_, fun _ => ⟨rfl, (State.slot_eq_addr_iff hr).mpr hzero⟩⟩
  rw [State.lead_of_req hreq]
  exact hq

/-- Every line is described by its clause of `Tracks`. -/
theorem LineStep.leftWith {s t : State} {m : Micro} {q : List Micro} (h : LineStep s m t) (hr : s.hs.req = false)
    (hs : Tracks Q (m :: q) s.hs.advances s.lead) : t.LeftWith Q q := by
  have hlead := State.lead_of_not_req hr
  cases m with
  | executeWrite k => obtain ⟨-, -, rfl⟩ := h; exact State.leftWith_startTransaction _ _ hr hs
  | executeRead => obtain ⟨-, rfl⟩ := h; exact State.leftWith_startTransaction _ _ hr hs
  | setSlot => obtain rfl : t = _ := h; exact State.leftWith_of_not_req hr (hs _)
  | nextSlot =>
    obtain rfl : t = _ := h
    rw [Tracks, hlead, sub_sub] at hs
    exact State.leftWith_of_not_req hr hs
  | target =>
    obtain ⟨-, rfl⟩ := h
    refine State.leftWith_of_not_req hr ?_
    rw [State.setAddr_hs, addr_withAddr, State.setAddr_eng, sub_self]
    exact hs
  | autoInc on =>
    obtain ⟨-, rfl⟩ := h
    rw [Tracks, hlead, ← autoIncValue_getLsbD_zero on] at hs
    exact State.leftWith_of_not_req hr hs
  | stage l off => rw [hlead] at hs; obtain ⟨-, v, -, rfl⟩ := h; exact State.leftWith_of_not_req hr hs
  | extract l off => rw [hlead] at hs; obtain ⟨-, b, -, -, rfl⟩ := h; exact State.leftWith_of_not_req hr hs
  | consume n => rw [hlead] at hs; obtain rfl : t = _ := h; exact State.leftWith_of_not_req hr hs
  | release =>
    rw [hlead] at hs
    obtain ⟨-, rfl⟩ := h
    exact State.leftWith_of_not_req (by simp only [State.setCtrl_hs, Handshake.req]; decide) hs
  | finish => rw [hlead] at hs; obtain rfl : t = _ := h; exact State.leftWith_of_not_req hr hs

/-- A line other than the last one of a request leaves the lines after it and the schedule as they are. -/
theorem LineStep.todo_sched {s t : State} {m : Micro} (h : LineStep s m t) (hm : m ≠ .finish) :
    t.eng.todo = s.eng.todo ∧ t.sched = s.sched := by
  cases m with
  | setSlot => obtain rfl : t = _ := h; exact ⟨rfl, rfl⟩
  | nextSlot => obtain rfl : t = _ := h; exact ⟨rfl, rfl⟩
  | target => obtain ⟨-, rfl⟩ := h; exact ⟨rfl, rfl⟩
  | autoInc on => obtain ⟨-, rfl⟩ := h; exact ⟨rfl, rfl⟩
  | stage l off => obtain ⟨-, v, -, rfl⟩ := h; exact ⟨rfl, rfl⟩
  | executeWrite k => obtain ⟨-, -, rfl⟩ := h; exact ⟨rfl, rfl⟩
  | executeRead => obtain ⟨-, rfl⟩ := h; exact ⟨rfl, rfl⟩
  | extract l off => obtain ⟨-, b, -, -, rfl⟩ := h; exact ⟨rfl, rfl⟩
  | consume n => obtain rfl : t = _ := h; exact ⟨rfl, rfl⟩
  | release => obtain ⟨-, rfl⟩ := h; exact ⟨rfl, rfl⟩
  | finish => exact absurd rfl hm

/-! ## The lines of each phase -/

section
variable {d : Dir} {on : Bool} {δ : SlotAddr} {q : List Micro}

theorem tracks_moveLine (x : Lane) (off : Nat) : Tracks Q (moveLine d x off :: q) on δ ↔ Tracks Q q on δ := by
  cases d <;> rfl

theorem tracks_atOffsets (ls : List Lane) : ∀ off,
    Tracks Q (atOffsets (moveLine d) off ls ++ q) on δ ↔ Tracks Q q on δ := by
  induction ls with
  | nil => exact fun _ => .rfl
  | cons x ls ih => exact fun off => (tracks_moveLine x off).trans (ih (off + 1))

theorem tracks_oneByOne (ls : List Lane) : Tracks Q (oneByOne (moveLine d) ls ++ q) on δ ↔ Tracks Q q on δ := by
  induction ls with
  | nil => exact .rfl
  | cons x ls ih => exact (tracks_moveLine x 0).trans ih

/-- Of a bulk or tail pass the transaction alone counts. -/
theorem tracks_offsetLines (k : Mask) (ls : List Lane) :
    Tracks Q (offsetLines d k ls ++ q) on δ ↔ δ = 0 ∧ Tracks Q q on (leadAfter on δ) := by
  cases d with
  | write =>
    rw [offsetLines, List.append_assoc]
    exact tracks_atOffsets (d := .write) ls 0
  | read => exact and_congr_right' (tracks_atOffsets (d := .read) ls 0)

/-- And so it is with the head's. -/
theorem tracks_headPass (k : Mask) (ls : List Lane) :
    Tracks Q (headPass d k ls ++ q) on δ ↔ δ = 0 ∧ Tracks Q q on (leadAfter on δ) := by
  cases d with
  | write =>
    rw [headPass, List.append_assoc]
    exact tracks_oneByOne (d := .write) ls
  | read => exact and_congr_right' (tracks_oneByOne (d := .read) ls)

/-- `AddressSet` aims at the slot it computes, with the auto-increment off (R194). -/
theorem tracks_addressSetLines : Tracks Q addressSetLines on δ ↔ Q false 0 := forall_const _

/-- The head ends by aiming at the next slot (R195). -/
theorem tracks_headLines (n : Nat) : Tracks Q (headLines d n) on δ ↔ δ = 0 ∧ Q on 0 := by
  rw [headLines_eq]
  exact tracks_headPass ..

/-- In `BulkLoop` the Device's advance and the Engine's step to the next slot go together (R173). -/
theorem tracks_bulkLines : Tracks Q (bulkLines d) true δ ↔ δ = 0 ∧ Q true 0 := by
  rw [bulkLines_eq, tracks_offsetLines]
  refine and_congr_right fun hzero => ?_
  subst hzero
  exact .rfl

theorem tracks_tailLines (n : Nat) : Tracks Q (tailLines d n) on δ ↔ δ = 0 ∧ Q on (leadAfter on δ) := by
  rw [tailLines_eq]
  exact tracks_offsetLines ..

end

/-! ## Leaving a phase (R193) -/

/-- What holds of the setting and the distance when a phase is left. -/
def Phase.EndsWith : Phase → Bool → SlotAddr → Prop
  | .addressSet, _, δ => δ = 0
  | .partialHead, _, δ => δ = 0
  | .bulkLoop, on, δ => δ = 0 ∧ on = true
  | .idle, _, _ => True
  | .tail, _, _ => True
  | .released, _, _ => True

theorem Phase.EndsWith.lead_eq_zero {p : Phase} {on : Bool} {δ : SlotAddr} (h : p.EndsWith on δ)
    (hp : p = .addressSet ∨ p = .partialHead ∨ p = .bulkLoop) : δ = 0 := by
  rcases hp with rfl | rfl | rfl
  · exact h
  · exact h
  · exact h.1

/-- Where `rem` decides, the next phase's lines start with the two together and end as that phase ends. -/
theorem State.enterByRem_tracks (s : State) {on : Bool} (hon : s.eng.phase = .bulkLoop → on = true) :
    ∃ p q, s.enterByRem = s.enterPhase p q ∧ p ≠ .idle ∧ Tracks p.EndsWith q on 0 := by
  by_cases h4 : 4 ≤ s.eng.rem.toNat
  · refine ⟨.bulkLoop, _, State.enterByRem_bulk h4, nofun, ?_⟩
    by_cases hp : s.eng.phase = .bulkLoop
    · rw [if_pos hp, hon hp]
      exact tracks_bulkLines.mpr ⟨rfl, rfl, rfl⟩
    · rw [if_neg hp]
      exact tracks_bulkLines.mpr ⟨rfl, rfl, rfl⟩
  · by_cases h0 : s.eng.rem.toNat = 0
    · exact ⟨.released, _, State.enterByRem_released h0, nofun, trivial⟩
    · exact ⟨.tail, _, State.enterByRem_tail (by omega) h0, nofun, (tracks_tailLines _).mpr ⟨rfl, trivial⟩⟩

/-- A phase is left for the end of the request, or for a phase whose lines track. -/
theorem State.leavePhase_tracks {s : State} (hp : s.eng.phase ≠ .idle) {on : Bool} {δ : SlotAddr}
    (h : s.eng.phase.EndsWith on δ) :
    s.leavePhase = s.giveDone ∨ ∃ p q, s.leavePhase = s.enterPhase p q ∧ p ≠ .idle ∧ Tracks p.EndsWith q on δ := by
  cases hs : s.eng.phase with
  | idle => exact absurd hs hp
  | released => exact .inl (by simp only [State.leavePhase, hs])
  | tail => exact .inr ⟨.released, releasedLines, by simp only [State.leavePhase, hs], nofun, trivial⟩
  | partialHead =>
    rw [hs] at h
    obtain rfl : δ = 0 := h
    rw [State.leavePhase_byRem (.inl hs)]
    exact .inr (s.enterByRem_tracks fun hb => nomatch hs.symm.trans hb)
  | bulkLoop =>
    rw [hs] at h
    obtain ⟨rfl, rfl⟩ := h
    rw [State.leavePhase_byRem (.inr (.inl hs))]
    exact .inr (s.enterByRem_tracks fun _ => rfl)
  | addressSet =>
    rw [hs] at h
    obtain rfl : δ = 0 := h
    cases ho : vpIsOdd s.eng.vp with
    | true =>
      exact .inr ⟨.partialHead, headLines s.eng.op (min s.eng.rem.toNat 2),
        by simp only [State.leavePhase, hs, ho, if_true], nofun, (tracks_headLines _).mpr ⟨rfl, rfl⟩⟩
    | false =>
      rw [State.leavePhase_byRem (.inr (.inr ⟨hs, ho⟩))]
      exact .inr (s.enterByRem_tracks fun hb => nomatch hs.symm.trans hb)

/-! ## The steps of a request -/

/-- Inside a request that nothing disturbs, with `n` requests done before: a transaction is outstanding only in a wait, and
the lines left track. -/
structure State.UnderWay (n : Nat) (s : State) : Prop where
  sched : s.sched = []
  busy : s.eng.phase ≠ .idle
  dones : s.port.dones = n
  awaited : s.hs.req = true → s.eng.waiting = true
  tracks : Tracks s.eng.phase.EndsWith s.eng.todo s.hs.advances s.lead

/-- Back between requests, with one more done than `n`. -/
def State.DoneAfter (n : Nat) (s : State) : Prop := s.eng.phase = .idle ∧ s.port.dones = n + 1

/-- What the statement says of the states `u` and `v` before and after a step. -/
def SlotFollows (u v : State) : Prop :=
  (started u v ≠ [] → v.eng.slot = v.hs.addr) ∧
    (u.eng.waiting = false → u.eng.todo = [] →
      u.eng.phase = .addressSet ∨ u.eng.phase = .partialHead ∨ u.eng.phase = .bulkLoop → u.eng.slot = u.hs.addr)

section
variable {n : Nat} {u v : State}

theorem State.UnderWay.req_eq_false (h : u.UnderWay n) (hw : u.eng.waiting = false) : u.hs.req = false := by
  cases hr : u.hs.req with
  | false => rfl
  | true => exact absurd (h.awaited hr) (by rw [hw]; decide)

/-- With the lines of a phase carried out the two are equal. -/
theorem State.UnderWay.slot_eq_addr (h : u.UnderWay n) (hw : u.eng.waiting = false) (hq : u.eng.todo = [])
    (hp : u.eng.phase = .addressSet ∨ u.eng.phase = .partialHead ∨ u.eng.phase = .bulkLoop) :
    u.eng.slot = u.hs.addr := by
  have hend := h.tracks
  rw [hq] at hend
  exact (State.slot_eq_addr_iff (h.req_eq_false hw)).mpr (Phase.EndsWith.lead_eq_zero hend hp)

/-- The Device's turn starts nothing and keeps the distance. -/
theorem State.UnderWay.deviceTurn (h : u.UnderWay n) (hr : u.hs.req = true) (hv : u.deviceTurn = .next v) :
    v.UnderWay n := by
  rcases State.deviceTurn_next hv with ⟨-, -, rfl⟩ | rfl
  · refine
      { sched := u.complete_sched.trans h.sched, busy := ?_, dones := ?_, awaited := fun hc => ?_, tracks := ?_ }
    · rw [u.complete_eng]; exact h.busy
    · rw [u.complete_port]; exact h.dones
    · exact absurd hc (by rw [u.complete_req]; decide)
    · rw [u.complete_eng, u.complete_advances, State.lead_complete hr]; exact h.tracks
  · exact h

/-- A line goes on with the request or ends it, and a transaction it starts is at the slot the Engine tracks. -/
theorem State.UnderWay.line (h : u.UnderWay n) {m : Micro} {rest : List Micro} (hw : u.eng.waiting = false)
    (hq : u.eng.todo = m :: rest) (hl : LineStep u.popLine m v) :
    (v.hs.req = true → v.eng.slot = v.hs.addr) ∧ (v.UnderWay n ∨ v.DoneAfter n) := by
  have htracks := h.tracks
  rw [hq] at htracks
  obtain ⟨hrest, hstart⟩ := hl.leftWith (h.req_eq_false hw) htracks
  refine ⟨fun hr => (hstart hr).2, ?_⟩
  by_cases hm : m = .finish
  · subst hm
    obtain rfl : v = _ := hl
    exact .inr ⟨rfl, congrArg (· + 1) h.dones⟩
  · obtain ⟨-, hphase, -⟩ := hl.frame hm
    obtain ⟨-, -, -, hdones⟩ := hl.sameOutside hm
    obtain ⟨htodo, hsched⟩ := hl.todo_sched hm
    refine .inl
      { sched := hsched.trans h.sched, busy := hphase ▸ h.busy, dones := hdones.trans h.dones,
        awaited := fun hr => (hstart hr).1, tracks := ?_ }
    rw [hphase, htodo, State.popLine_eng, hq]
    exact hrest

theorem State.UnderWay.leavePhase (h : u.UnderWay n) (hq : u.eng.todo = []) :
    u.leavePhase.UnderWay n ∨ u.leavePhase.DoneAfter n := by
  have hend := h.tracks
  rw [hq] at hend
  rcases State.leavePhase_tracks h.busy hend with e | ⟨p, q, e, hp, hlines⟩
  · rw [e]; exact .inr ⟨rfl, congrArg (· + 1) h.dones⟩
  · rw [e]
    exact .inl { h with busy := hp, tracks := hlines }

theorem State.UnderWay.engineTurn (h : u.UnderWay n) (hv : u.engineTurn = .next v) :
    (started u v ≠ [] → v.eng.slot = v.hs.addr) ∧ (v.UnderWay n ∨ v.DoneAfter n) := by
  have silent : v.hs.req = u.hs.req → started u v ≠ [] → v.eng.slot = v.hs.addr := fun e hne => by
    cases hr : u.hs.req with
    | true => exact absurd (started_of_req hr) hne
    | false => exact absurd (started_of_not_req (e.trans hr)) hne
  rcases State.engineTurn_next hv with ⟨hw, rfl⟩ | ⟨hw, hq, rfl⟩ | ⟨hw, m, rest, hq, hl⟩
  · exact ⟨silent rfl, .inl { h with awaited := fun hr => Bool.and_eq_true_iff.mpr ⟨hw, hr⟩ }⟩
  · obtain ⟨hhs, -, -⟩ := u.leavePhase_frame
    exact ⟨silent (by rw [hhs]), h.leavePhase hq⟩
  · obtain ⟨hstart, hgo⟩ := h.line hw hq hl
    refine ⟨fun hne => hstart ?_, hgo⟩
    cases hr : v.hs.req with
    | true => rfl
    | false => exact absurd (started_of_not_req hr) hne

/-- With no other agent taking a turn a step inside a request is the Device's or the Engine's. -/
theorem State.UnderWay.step (h : u.UnderWay n) (hv : step u = .next v) :
    SlotFollows u v ∧ (v.UnderWay n ∨ v.DoneAfter n) := by
  rw [step_of_sched_nil h.sched] at hv
  cases he : u.deviceEnabled with
  | true =>
    have hr : u.hs.req = true := by
      rw [State.deviceEnabled, Bool.and_assoc] at he
      exact (Bool.and_eq_true_iff.mp he).1
    have hturn : u.ownTurn = .device := if_pos he
    rw [hturn] at hv
    exact ⟨⟨fun hne => absurd (started_of_req hr) hne, h.slot_eq_addr⟩, .inl (h.deviceTurn hr hv)⟩
  | false =>
    have hturn : u.ownTurn = .engine := by simp [State.ownTurn, State.engineBusy, he, h.busy]
    rw [hturn] at hv
    obtain ⟨hstart, hgo⟩ := h.engineTurn hv
    exact ⟨⟨hstart, h.slot_eq_addr⟩, hgo⟩

end

/-! ## Whole requests -/

/-- An accepted request is under way. -/
theorem State.accepted_underWay {s : State} (d : Dir) (a : VpAddr) (l : Len) (hq : s.Quiet) :
    (s.accepted d a l).UnderWay s.port.dones := by
  obtain ⟨-, -, hreq, -, hsched⟩ := hq
  exact
    { sched := hsched, busy := nofun, dones := rfl, awaited := fun hr => (nomatch hreq.symm.trans hr),
      tracks := tracks_addressSetLines.mpr rfl }

/-- A request that comes to its end does so for the first time after some number of steps, and each step till then is one of
those `State.UnderWay.step` describes. -/
theorem State.UnderWay.runs {n : Nat} : ∀ (k : Nat) {u t : State}, u.UnderWay n → runN k u = .next t →
    t.eng.phase = .idle → ∃ m w, runN m u = .next w ∧ w.DoneAfter n ∧
      ∀ j, j < m → ∃ x y, runN j u = .next x ∧ Machine.step x = .next y ∧ SlotFollows x y := by
  intro k
  induction k with
  | zero =>
    intro u t h hrun ht
    cases hrun
    exact absurd ht h.busy
  | succ k ih =>
    intro u t h hrun ht
    rw [runN_succ] at hrun
    obtain ⟨v, hv, hrun⟩ := andThen_eq_next.mp hrun
    have hfirst : ∀ j, runN (j + 1) u = runN j v := fun j => by rw [runN_succ, hv, andThen_next]
    obtain ⟨hfollows, hgo | hdone⟩ := h.step hv
    · obtain ⟨m, w, hm, hw, hsteps⟩ := ih hgo hrun ht
      refine ⟨m + 1, w, (hfirst m).trans hm, hw, fun j hj => ?_⟩
      cases j with
      | zero => exact ⟨u, v, rfl, hv, hfollows⟩
      | succ j =>
        obtain ⟨x, y, hx, hxy⟩ := hsteps j (by omega)
        exact ⟨x, y, (hfirst j).trans hx, hxy⟩
    · refine ⟨1, v, hfirst 0, hdone, fun j hj => ?_⟩
      obtain rfl : j = 0 := by omega
      exact ⟨u, v, rfl, hv, hfollows⟩

/-- Settles O60: the request comes to its end by `requestIssuesItsPlan`, and on the way the distance of the two is followed
through the lines of its phases. -/
theorem slotRegisterFollowsTheAddress : Obligations.SlotRegisterFollowsTheAddress := by
  unfold Obligations.SlotRegisterFollowsTheAddress
  intro s d a l b hq hl hs hb hlen
  obtain ⟨t₀, n, t, hexec, hrun, hidle, -⟩ := requestIssuesItsPlan s d a l b hq hl hs hb hlen
  obtain rfl : s.accepted d a l = t₀ := by
    rw [exec_request hq hl] at hexec
    cases hexec; rfl
  obtain ⟨m, w, hm, ⟨hphase, hdones⟩, hsteps⟩ := (State.accepted_underWay d a l hq).runs n hrun hidle
  exact ⟨_, m, w, hexec, hm, hphase, hdones, hsteps⟩

end Sys2Proof.Machine

/-! PROOFS. Requests one after the other: a request of any length ends in a quiet state, ready for the next, and a read after
a write returns the written bytes. -/

namespace Sys2Proof.Machine

variable {d : Dir} {a : VpAddr} {l : Len} {b : List Byte}

/-! ## A served request leaves the block quiet (R199, R281) -/

/-- After `done` nothing is outstanding, the Engine does not wait, and nobody else is about to act. -/
theorem Shows.quiet_at_done {B : SlotAddr → Prop} {ie : Bool} {c : Shared} {u : State} (h : Shows B ie c u) :
    (u.popLine.setCtrl 0).popLine.restoreInterrupts.giveDone.Quiet := by
  have hreq : (u.popLine.setCtrl 0).hs.req = false := by
    simp only [State.setCtrl_hs, Handshake.req]; decide
  exact ⟨rfl, h.waiting_eq, hreq, h.acks, h.sched⟩

/-- A request is over, its bytes are moved, and the next one may come. -/
structure State.Served (s t : State) (d : Dir) (a : VpAddr) (l : Len) (b : List Byte) : Prop where
  quiet : t.Quiet
  par : t.par = s.par
  dones : t.port.dones = s.port.dones + 1
  moved : ∃ c : Shared, c.Transferred d a b s.vpm l.toNat ∧ t.vpm = c.vpm ∧ t.buf = some c.buf

/-- A request of length 0 is over at once, with nothing to move (R196). -/
theorem State.served_zero {s : State} (hq : s.Quiet) (hb : s.buf = some b) (hm : d = .write → s.vpm.wf = true) :
    s.Served (s.latchRequest d a 0).restoreInterrupts.giveDone d a 0 b := by
  obtain ⟨-, hw, hreq, hacks, hsched⟩ := hq
  exact
    { quiet := ⟨rfl, hw, hreq, hacks, hsched⟩, par := rfl, dones := rfl,
      moved := ⟨.start d a 0 s.vpm b, Shared.start_transferred hm, rfl, hb⟩ }

theorem exec_request_zero {s : State} (hq : s.Quiet) :
    exec (requestInstr d a 0) s = .next (s.latchRequest d a 0).restoreInterrupts.giveDone := by
  obtain ⟨hphase, hw, hreq, -⟩ := hq
  have haccept := State.accept_zero d a hphase (State.blocked_eq_false.mpr ⟨hw, hreq⟩)
  cases d <;> exact haccept

/-- An accepted request that nothing disturbs is served. -/
theorem State.accepted_served {s : State} (d : Dir) (hq : s.Quiet) (hl : l ≠ 0) (hs : s.SlotsBacked a l)
    (hb : s.buf = some b) (hlen : l.toNat ≤ b.length) (hm : d = .write → s.vpm.wf = true) :
    ∃ n t, runN n (s.accepted d a l) = .next t ∧ s.Served t d a l b := by
  obtain ⟨k, t, hstart, hout, ht⟩ := State.accepted_runs d hq hs hb
  obtain ⟨c, hc, D, n, hreach⟩ := Shared.start_reaches_end (a := a) (d := d) hl hlen hm
  obtain ⟨u, hrun, hout', hu⟩ := hreach _ t ht
  obtain ⟨hend, -⟩ := (hstart.trans hrun).trans (hu.runIssues_released hc.released)
  have hdone := hu.completed hc (hout.trans hout')
  exact ⟨_, _, hend,
    { quiet := hu.quiet_at_done, par := hdone.par, dones := hdone.dones, moved := ⟨c, hc.moved, hu.vpm, hu.buf⟩ }⟩

/-- A request of any length that nothing disturbs is served. -/
theorem request_served {s : State} (d : Dir) (hq : s.Quiet) (hs : s.SlotsBacked a l) (hb : s.buf = some b)
    (hlen : l.toNat ≤ b.length) (hm : d = .write → s.vpm.wf = true) :
    ∃ t₀ n t, exec (requestInstr d a l) s = .next t₀ ∧ runN n t₀ = .next t ∧ s.Served t d a l b := by
  obtain rfl | hl := eq_or_ne l 0
  · exact ⟨_, 0, _, exec_request_zero hq, rfl, State.served_zero hq hb hm⟩
  · obtain ⟨n, t, hrun, ht⟩ := State.accepted_served d hq hl hs hb hlen hm
    exact ⟨_, n, t, exec_request hq hl, hrun, ht⟩

/-! ## The round trip (R186) -/

/-- What is stored from one buffer and then fetched into another is the first buffer's bytes. -/
theorem Shared.Filled.take_of_stored {m : Memory} {out : List Byte} {n : Nat} {c c' : Shared}
    (hread : c'.Filled a out c.vpm n) (hwrite : c.Stored a b m n) : c'.buf.take n = b.take n := by
  refine List.ext_getElem? fun k => ?_
  by_cases hk : k < n
  · rw [List.getElem?_take_of_lt hk, List.getElem?_take_of_lt hk, hread.inside k hk, hwrite.inside k hk]
  · rw [List.getElem?_take_eq_none (by omega), List.getElem?_take_eq_none (by omega)]

theorem Shared.Filled.drop_eq {m : Memory} {out : List Byte} {n : Nat} {c : Shared} (h : c.Filled a out m n) :
    c.buf.drop n = out.drop n :=
  List.ext_getElem? fun k => by rw [List.getElem?_drop, List.getElem?_drop, h.outside _ (Nat.le_add_right n k)]

/-- Settles O54: the write is served and leaves a quiet state, in which the read is served from the memory it left. -/
theorem readAfterWriteReproducesTheBuffer : Obligations.ReadAfterWriteReproducesTheBuffer := by
  unfold Obligations.ReadAfterWriteReproducesTheBuffer
  intro s a l b out hq hwf hs hb hlen hout
  obtain ⟨t₀, n, t, hwexec, hwrun, hw⟩ := request_served .write hq hs hb hlen fun _ => hwf
  obtain ⟨c, hstored, hvpm, -⟩ := hw.moved
  have hq' : { t with buf := some out }.Quiet := hw.quiet
  have hs' : { t with buf := some out }.SlotsBacked a l := fun k hk => by
    show t.par.slotBacked _ = true
    rw [hw.par]; exact hs k hk
  obtain ⟨u₀, m, u, hrexec, hrrun, hr⟩ := request_served .read hq' hs' rfl hout nofun
  obtain ⟨c', hfilled, -, hbuf⟩ := hr.moved
  replace hfilled : c'.Filled a out c.vpm l.toNat := hvpm ▸ hfilled
  obtain ⟨hwidle, -⟩ := hw.quiet
  obtain ⟨hridle, -⟩ := hr.quiet
  have hdones : u.port.dones = t.port.dones + 1 := hr.dones
  exact ⟨t₀, n, t, u₀, m, u, c'.buf, hwexec, hwrun, hwidle, hrexec, hrrun, hridle, by rw [hdones, hw.dones], hbuf,
    hfilled.take_of_stored hstored, hfilled.drop_eq⟩

end Sys2Proof.Machine

/-! PROOFS. The interrupt mask, the request port in each of its cases, and the handlers that the mask holds off. -/

namespace Sys2Proof.Machine

/-! ## The interrupt mask (R190, R191) -/

theorem exec_irqMask (s : State) : exec .irqMask s = .next s.maskInterrupts := rfl

theorem exec_irqRestore (s : State) : exec .irqRestore s = .next s.restoreInterrupts := rfl

/-- Settles O29: the operation is `State.maskInterrupts`, whose two changes are the statement's. -/
theorem irqMaskSavesAndClears : Obligations.IrqMaskSavesAndClears := by
  unfold Obligations.IrqMaskSavesAndClears
  exact exec_irqMask

/-- Settles O30: the operation is `State.restoreInterrupts`, whose one change is the statement's. -/
theorem irqRestorePutsTheSavedValueBack : Obligations.IrqRestorePutsTheSavedValueBack := by
  unfold Obligations.IrqRestorePutsTheSavedValueBack
  exact exec_irqRestore

/-! ## Requests (R192, R196, R203) -/

/-- A request of either direction is the acceptance of one. -/
theorem exec_requestInstr (d : Dir) (a : VpAddr) (l : Len) (s : State) : exec (requestInstr d a l) s = s.accept d a l := by
  cases d with
  | write => rfl
  | read => rfl

/-- Settles O31: acceptance with `L > 0`, its updates written out. -/
theorem acceptedRequestIsLatched : Obligations.AcceptedRequestIsLatched := by
  unfold Obligations.AcceptedRequestIsLatched
  intro d a l s hp hb hl
  exact (exec_requestInstr d a l s).trans (State.accept_pos d a hp hb hl)

/-- Settles O32: of what acceptance with `L = 0` changes, `IRQ_RESTORE` puts `IE` back. -/
theorem zeroLengthRequestTouchesNothing : Obligations.ZeroLengthRequestTouchesNothing := by
  unfold Obligations.ZeroLengthRequestTouchesNothing
  intro d a s hp hb
  exact ⟨_, (exec_requestInstr d a 0 s).trans (State.accept_zero d a hp hb), rfl, rfl, rfl, rfl, rfl, rfl, rfl, rfl, rfl,
    rfl, rfl⟩

/-- Settles O33: acceptance asks for `Idle` first. -/
theorem busyEngineRefusesARequest : Obligations.BusyEngineRefusesARequest := by
  unfold Obligations.BusyEngineRefusesARequest
  intro d a l s hp
  exact (exec_requestInstr d a l s).trans (State.accept_busy d a l hp)

/-! ## Handlers (R235 to R237) -/

theorem State.handleTurn_of_masked {s : State} (src : IrqSource) (v : Nat) (h : s.host.ie = false) :
    s.handleTurn src v = s := by
  rcases s.handleTurn_cases src v with ⟨hie, -⟩ | e
  · exact nomatch hie.symm.trans h
  · exact e

theorem State.handleTurn_of_pending {s : State} {src : IrqSource} (v : Nat) (hie : s.host.ie = true)
    (hs : src ∈ s.host.pending) : s.handleTurn src v = { s with host := s.host.handled src v } :=
  if_pos (by simpa using And.intro hie hs)

@[simp] theorem HostSide.handled_pending (h : HostSide) (src : IrqSource) (v : Nat) :
    (h.handled src v).pending = h.pending.erase src := by
  cases src <;> rfl

/-- Of the three handlers only the tick timer's writes the tick counter. -/
theorem HostSide.handled_tick (h : HostSide) (src : IrqSource) (v : Nat) :
    (h.handled src v).tick = if src = .tickTimer then v else h.tick := by
  cases src <;> rfl

/-- Of the three handlers only the clock's writes the clock record. -/
theorem HostSide.handled_rtc (h : HostSide) (src : IrqSource) (v : Nat) :
    (h.handled src v).rtc = if src = .rtcSecond then v else h.rtc := by
  cases src <;> rfl

/-- Settles O38: the handler's turn by `IE`, which the invariant has clear inside a request. -/
theorem handlerRunsOnlyUnmasked : Obligations.HandlerRunsOnlyUnmasked := by
  unfold Obligations.HandlerRunsOnlyUnmasked
  intro s src v hn
  have hturn : step s = .next (s.popTurn.handleTurn src v) := step_of_turn hn
  have masked : s.host.ie = false → step s = .next s.popTurn := fun hie =>
    hturn.trans (congrArg _ (State.handleTurn_of_masked src v hie))
  refine ⟨masked, fun hinv hp => ?_, fun hie hs => ⟨s.host.handled src v, ?_, ?_, ?_, ?_, ?_⟩⟩
  · obtain ⟨-, -, hmasked, -⟩ := s.inv_iff.mp hinv
    exact masked (hmasked hp)
  · exact hturn.trans (congrArg _ (State.handleTurn_of_pending v hie hs))
  · exact (s.host.handled_ie src v).trans hie
  · exact s.host.handled_pending src v
  · exact s.host.handled_tick src v
  · exact s.host.handled_rtc src v

end Sys2Proof.Machine

/-! PROOFS. The arrows of R193: the step that takes each, and that no other step moves the phase. -/

namespace Sys2Proof.Machine

/-! ## Leaving a phase, arrow by arrow -/

theorem State.leavePhase_idle {s : State} (hp : s.eng.phase = .idle) : s.leavePhase = s := by
  simp only [State.leavePhase, hp]

theorem State.leavePhase_head {s : State} (hp : s.eng.phase = .addressSet) (ho : vpIsOdd s.eng.vp = true) :
    s.leavePhase = s.enterPhase .partialHead (headLines s.eng.op (min s.eng.rem.toNat 2)) := by
  simp only [State.leavePhase, hp, ho, if_true]

theorem State.leavePhase_tail {s : State} (hp : s.eng.phase = .tail) :
    s.leavePhase = s.enterPhase .released releasedLines := by
  simp only [State.leavePhase, hp]

/-- The first pass through `BulkLoop` switches the auto-increment on (R197). -/
theorem State.enterByRem_firstBulk {s : State} (h4 : 4 ≤ s.eng.rem.toNat) (hp : s.eng.phase ≠ .bulkLoop) :
    s.enterByRem = s.enterPhase .bulkLoop (.autoInc true :: bulkLines s.eng.op) := by
  rw [State.enterByRem_bulk h4, if_neg hp]

/-- Each further pass finds it on. -/
theorem State.enterByRem_nextBulk {s : State} (h4 : 4 ≤ s.eng.rem.toNat) (hp : s.eng.phase = .bulkLoop) :
    s.enterByRem = s.enterPhase .bulkLoop (bulkLines s.eng.op) := by
  rw [State.enterByRem_bulk h4, if_pos hp]

/-- The Engine's step with the lines of its phase carried out. -/
theorem step_engine_leavePhase {s : State} (hn : s.nextTurn = .engine) (hw : s.eng.waiting = false)
    (hq : s.eng.todo = []) : step s = .next s.popTurn.leavePhase := by
  have hturn : s.popTurn.engineTurn = .next s.popTurn.leavePhase := by
    simp only [State.engineTurn, State.popTurn_eng, hw, hq, Bool.false_eq_true, if_false]
  exact (step_of_turn hn).trans hturn

/-- Settles O10: the step leaves the phase, which leads to the next by the phase it leaves and, where `ByRem` says so, by
`rem`. -/
theorem engineLeavesAPhaseByItsArrow : Obligations.EngineLeavesAPhaseByItsArrow := by
  unfold Obligations.EngineLeavesAPhaseByItsArrow
  intro s hn hw hq enters
  have leaves : ∀ {p q}, s.popTurn.leavePhase = s.popTurn.enterPhase p q → enters p q := fun e =>
    (step_engine_leavePhase hn hw hq).trans (congrArg _ e)
  have byRem : ∀ {p q}, ByRem s.eng.phase s.eng.vp → s.popTurn.enterByRem = s.popTurn.enterPhase p q → enters p q :=
    fun h e => leaves ((State.leavePhase_byRem (s := s.popTurn) h).trans e)
  refine ⟨?idle, ?head, ?firstBulk, ?nextBulk, ?tail, ?released, ?afterTail⟩
  case idle => exact fun hp => (step_engine_leavePhase hn hw hq).trans (congrArg _ (State.leavePhase_idle hp))
  case head => exact fun hp ho => leaves (State.leavePhase_head (s := s.popTurn) hp ho)
  case firstBulk =>
    intro hp h4
    have hfirst : s.eng.phase ≠ .bulkLoop := by
      rcases hp with ⟨hp, -⟩ | hp <;> rw [hp] <;> nofun
    exact byRem (hp.elim (fun h => .inr (.inr h)) .inl) (State.enterByRem_firstBulk (s := s.popTurn) h4 hfirst)
  case nextBulk => exact fun hp h4 => byRem (.inr (.inl hp)) (State.enterByRem_nextBulk (s := s.popTurn) h4 hp)
  case tail =>
    intro hp h1 h3
    refine byRem ?_ (State.enterByRem_tail (s := s.popTurn) (Nat.lt_succ_of_le h3) (Nat.ne_of_gt h1))
    rcases hp with h | h | h
    · exact .inr (.inr h)
    · exact .inl h
    · exact .inr (.inl h)
  case released =>
    intro hp h0
    exact byRem (hp.imp_right .inl) (State.enterByRem_released (s := s.popTurn) (congrArg BitVec.toNat h0))
  case afterTail => exact fun hp => leaves (State.leavePhase_tail (s := s.popTurn) hp)

/-! ## Who moves the phase -/

/-- The Engine's turn moves the phase by an arrow only, if it entered `AddressSet` with `rem > 0` and ends a request in
`Released` only. -/
theorem State.engineTurn_arrow {s t : State} (hinv : s.eng.LinesInv) (h : s.engineTurn = .next t)
    (hne : t.eng.phase ≠ s.eng.phase) : phaseArrow s.eng.vp s.eng.rem s.eng.phase t.eng.phase = true := by
  obtain ⟨-, hfinish, haddr, -⟩ := hinv
  rcases State.engineTurn_next h with ⟨-, rfl⟩ | ⟨-, -, rfl⟩ | ⟨-, m, rest, hq, hl⟩
  · exact absurd rfl hne
  · rcases s.leavePhase_cases with ⟨-, e⟩ | ⟨hp, e⟩ | ⟨-, -, p, q, e, -, -, -, harrow⟩
    · exact absurd (by rw [e]) hne
    · rw [e, hp]; rfl
    · rw [e] at hne ⊢
      exact harrow (fun hp => (haddr hp).1) hne
  · by_cases hm : m = .finish
    · subst hm
      rw [hl.of_finish.1, hfinish (hq ▸ List.mem_cons_self)]; rfl
    · exact absurd (hl.frame hm).2.1 hne

/-- The ports' turn moves the phase by the acceptance of a request only. -/
theorem State.presentTurn_phase {s t : State} (hidle : s.eng.phase = .idle → s.eng.todo = [])
    (h : s.presentTurn = .next t) (hne : t.eng.phase ≠ s.eng.phase) :
    s.eng.phase = .idle ∧ t.eng.phase = .addressSet ∧ t.eng.rem ≠ 0 := by
  rcases State.presentTurn_next h with rfl | ⟨-, b, rest, -, rfl⟩ | ⟨hp, i, q, -, -, he⟩
  · exact absurd rfl hne
  · exact absurd rfl hne
  · rcases (exec_next he).engine_of_idle hp (hidle hp) with ⟨ht, -⟩ | ⟨ht, -, hr, -⟩
    · exact absurd (ht.trans hp.symm) hne
    · exact ⟨hp, ht, hr⟩

/-- Settles O35, by the turns: apart from a reset only the Engine's and the ports' write the phase. -/
theorem phaseMovesOnlyAlongTheArrows : Obligations.PhaseMovesOnlyAlongTheArrows := by
  unfold Obligations.PhaseMovesOnlyAlongTheArrows
  intro s t hinv h hne
  obtain ⟨-, -, -, hlines⟩ := s.inv_iff.mp hinv
  rw [step_of_turn rfl] at h
  generalize s.nextTurn = n at h ⊢
  have moved : t.eng ≠ s.eng := fun e => hne (by rw [e])
  cases n with
  | engine => exact .inr (.inr ⟨rfl, State.engineTurn_arrow (s := s.popTurn) hlines h hne⟩)
  | present =>
    obtain ⟨hidle, -⟩ := hlines
    exact .inr (.inl ⟨rfl, State.presentTurn_phase (s := s.popTurn) hidle h hne⟩)
  | reset d => exact .inl ⟨d, rfl⟩
  | device => exact absurd (State.deviceTurn_frame h).1 moved
  | env a m q => cases h; exact absurd (s.popTurn.envTurn_frame a m q).1 moved
  | fire src keep => cases h; exact absurd (by rw [State.fireTurn_eq]; rfl) moved
  | handle src v => cases h; exact absurd (s.popTurn.handleTurn_frame src v).1 moved
  | hostIe b => cases h; exact absurd (s.popTurn.hostIeTurn_frame b).1 moved
  | foreign w => cases h

end Sys2Proof.Machine

/-! PROOFS. A request that nothing disturbs runs with `IE` clear and the saved value kept, and its last line puts that value
back (R200, R202). -/

namespace Sys2Proof.Machine

/-! ## Runs up to a first state -/

/-- A run from `P` whose steps stay in `P` until one leads to `Q` has left `P` when it comes to a state outside it, and for
the first time after some number of steps. -/
theorem runN_until {P Q : State → Prop} (hstep : ∀ {u v}, P u → step u = .next v → P v ∨ Q v) :
    ∀ (k : Nat) {u t : State}, P u → runN k u = .next t → ¬ P t →
      ∃ n w, runN n u = .next w ∧ Q w ∧ ∀ j, j < n → ∃ x, runN j u = .next x ∧ P x := by
  intro k
  induction k with
  | zero =>
    intro u t h hrun ht
    cases hrun
    exact absurd h ht
  | succ k ih =>
    intro u t h hrun ht
    rw [runN_succ] at hrun
    obtain ⟨v, hv, hrun⟩ := andThen_eq_next.mp hrun
    have hfirst : ∀ j, runN (j + 1) u = runN j v := fun j => by rw [runN_succ, hv, andThen_next]
    rcases hstep h hv with hgo | hdone
    · obtain ⟨n, w, hn, hw, hsteps⟩ := ih hgo hrun ht
      refine ⟨n + 1, w, (hfirst n).trans hn, hw, fun j hj => ?_⟩
      cases j with
      | zero => exact ⟨u, rfl, h⟩
      | succ j =>
        obtain ⟨x, hx, hpx⟩ := hsteps j (by omega)
        exact ⟨x, (hfirst j).trans hx, hpx⟩
    · refine ⟨1, v, hfirst 0, hdone, fun j hj => ?_⟩
      obtain rfl : j = 0 := by omega
      exact ⟨u, rfl, h⟩

/-- With no other agent taking a turn a step inside a request is the Device's or the Engine's. -/
theorem turn_of_busy {u v : State} (hs : u.sched = []) (hp : u.eng.phase ≠ .idle) (hv : step u = .next v) :
    u.deviceTurn = .next v ∨ u.engineTurn = .next v := by
  rw [step_of_sched_nil hs] at hv
  cases he : u.deviceEnabled with
  | true =>
    have hturn : u.ownTurn = .device := if_pos he
    rw [hturn] at hv
    exact .inl hv
  | false =>
    have hturn : u.ownTurn = .engine := by simp [State.ownTurn, State.engineBusy, he, hp]
    rw [hturn] at hv
    exact .inr hv

/-! ## The steps of a masked request -/

/-- Inside a request accepted under `ie` that nothing disturbs: `IE` is clear, its value is saved, and in `Released` the line
that puts it back is still to come. -/
structure State.Masked (ie : Bool) (s : State) : Prop where
  sched : s.sched = []
  busy : s.eng.phase ≠ .idle
  masked : s.host.ie = false
  saved : s.eng.ieSaved = ie
  restores : s.eng.phase = .released → .finish ∈ s.eng.todo

/-- Back between requests, with `IE` as it was. -/
def State.Restored (ie : Bool) (s : State) : Prop := s.eng.phase = .idle ∧ s.host.ie = ie

section
variable {ie : Bool} {u v : State}

theorem State.Masked.deviceTurn (h : u.Masked ie) (hv : u.deviceTurn = .next v) : v.Masked ie := by
  rcases State.deviceTurn_next hv with ⟨-, -, rfl⟩ | rfl
  · exact
      { sched := u.complete_sched.trans h.sched, busy := by rw [u.complete_eng]; exact h.busy,
        masked := by rw [u.complete_host]; exact h.masked, saved := by rw [u.complete_eng]; exact h.saved,
        restores := by rw [u.complete_eng]; exact h.restores }
  · exact h

/-- `Released` is left by its last line only, so a phase that is left for want of lines is followed by another. -/
theorem State.Masked.leavePhase (h : u.Masked ie) (hq : u.eng.todo = []) : u.leavePhase.Masked ie := by
  rcases u.leavePhase_pass with ⟨hp, -⟩ | ⟨hp, -⟩ | ⟨-, p, q, e, hpass⟩
  · exact absurd hp h.busy
  · exact absurd (h.restores hp) (by rw [hq]; exact List.not_mem_nil)
  · obtain ⟨hp, -, -, hreleased, -⟩ := hpass.lines
    rw [e]
    refine { h with busy := hp, restores := fun hr => ?_ }
    rw [State.enterPhase_eng, hreleased hr]
    exact List.mem_cons_of_mem _ List.mem_cons_self

/-- The last line puts the saved value back, and any other leaves the request masked. -/
theorem State.Masked.line (h : u.Masked ie) {m : Micro} {rest : List Micro} (hq : u.eng.todo = m :: rest)
    (hl : LineStep u.popLine m v) : v.Masked ie ∨ v.Restored ie := by
  by_cases hm : m = .finish
  · subst hm
    obtain ⟨hp, hhost⟩ := hl.of_finish
    exact .inr ⟨hp, by rw [hhost]; exact h.saved⟩
  · obtain ⟨⟨-, -, hsaved, -⟩, hphase, hhost⟩ := hl.frame hm
    obtain ⟨htodo, hsched⟩ := hl.todo_sched hm
    refine .inl
      { sched := hsched.trans h.sched, busy := hphase ▸ h.busy, masked := by rw [hhost]; exact h.masked,
        saved := hsaved.trans h.saved, restores := fun hr => ?_ }
    have hmem := h.restores (hphase.symm.trans hr)
    rw [hq] at hmem
    rw [htodo, State.popLine_eng, hq]
    exact (List.mem_cons.mp hmem).resolve_left (Ne.symm hm)

theorem State.Masked.engineTurn (h : u.Masked ie) (hv : u.engineTurn = .next v) : v.Masked ie ∨ v.Restored ie := by
  rcases State.engineTurn_next hv with ⟨-, rfl⟩ | ⟨-, hq, rfl⟩ | ⟨-, m, rest, hq, hl⟩
  · exact .inl { h with }
  · exact .inl (h.leavePhase hq)
  · exact h.line hq hl

theorem State.Masked.step (h : u.Masked ie) (hv : step u = .next v) : v.Masked ie ∨ v.Restored ie := by
  rcases turn_of_busy h.sched h.busy hv with hv | hv
  · exact .inl (h.deviceTurn hv)
  · exact h.engineTurn hv

end

/-! ## Whole requests -/

/-- A request is accepted under the mask (R192). -/
theorem State.accepted_masked {s : State} (d : Dir) (a : VpAddr) (l : Len) (hs : s.sched = []) :
    (s.accepted d a l).Masked s.host.ie :=
  { sched := hs, busy := nofun, masked := rfl, saved := rfl, restores := nofun }

/-- Settles O57: the request comes to its end by `requestIssuesItsPlan`, and is masked at each step till then. -/
theorem requestRunsUnderTheMask : Obligations.RequestRunsUnderTheMask := by
  unfold Obligations.RequestRunsUnderTheMask
  intro s d a l b hq hl hs hb hlen
  obtain ⟨t₀, k, t, hexec, hrun, hidle, -⟩ := requestIssuesItsPlan s d a l b hq hl hs hb hlen
  obtain rfl : s.accepted d a l = t₀ := by
    rw [exec_request hq hl] at hexec
    cases hexec; rfl
  obtain ⟨-, -, -, -, hsched⟩ := hq
  obtain ⟨n, w, hn, ⟨hphase, hie⟩, hsteps⟩ :=
    runN_until State.Masked.step k (State.accepted_masked d a l hsched) hrun fun ht => ht.busy hidle
  refine ⟨_, n, w, hexec, hn, hphase, hie, fun j hj => ?_⟩
  obtain ⟨u, hu, hmasked⟩ := hsteps j hj
  exact ⟨u, hu, hmasked.busy, hmasked.masked, hmasked.saved⟩

end Sys2Proof.Machine

/-! PROOFS. Accesses that do not come from the Engine, and the hang: an Engine that waits for a Device which is not enabled
polls, and a poll leaves all that such a state is about as it was. -/

namespace Sys2Proof.Machine

/-! ## Accesses that are not the Engine's (R242, R246) -/

theorem State.presentTurn_hsev13_busy {s : State} {w : BitVec 13} {rest : List PortItem}
    (hq : s.port.issue = .word (.hsev13 w) :: rest) (hp : s.eng.phase ≠ .idle) :
    s.presentTurn = .refused .notOwner := by
  simp only [State.presentTurn, hq, if_neg hp]

theorem State.presentTurn_ieev1_busy {s : State} {w : BitVec 1} {rest : List PortItem}
    (hq : s.port.issue = .word (.ieev1 w) :: rest) (hp : s.eng.phase ≠ .idle) :
    s.presentTurn = .refused .notOwner := by
  simp only [State.presentTurn, hq, if_neg hp]

/-- Settles O34: a foreign turn is a refusal, and so is the ports' turn for each of the two formats inside a request. -/
theorem foreignAccessIsRefused : Obligations.ForeignAccessIsRefused := by
  unfold Obligations.ForeignAccessIsRefused
  intro s
  refine ⟨fun w hn => step_of_turn hn, fun w rest hn hp hq => ?_, fun w rest hn hp hq => ?_⟩
  · exact (step_of_turn hn).trans (State.presentTurn_hsev13_busy (s := s.popTurn) hq hp)
  · exact (step_of_turn hn).trans (State.presentTurn_ieev1_busy (s := s.popTurn) hq hp)

/-! ## The hang (R231, R278) -/

/-- The Engine waits for an outstanding transaction that the Device is not enabled to complete, and no other agent is about
to act. -/
structure State.Hangs (s : State) : Prop where
  req : s.hs.req = true
  waiting : s.eng.waiting = true
  stuck : s.deviceEnabled = false
  sched : s.sched = []

theorem State.setWaiting_of_waiting {s : State} (h : s.eng.waiting = true) : s.setWaiting true = s := by
  rw [State.setWaiting, ← h]

/-- A hanging Engine polls, and only the value read is new. -/
theorem State.Hangs.step {s : State} (h : s.Hangs) : step s = .next (s.setReadData s.hs.ctrl) := by
  have hturn : s.ownTurn = .engine := by simp [State.ownTurn, State.engineBusy, h.stuck, h.waiting]
  have hpoll : (s.setReadData s.hs.ctrl).setWaiting (s.eng.waiting && s.hs.req) = s.setReadData s.hs.ctrl := by
    rw [h.req, h.waiting]
    exact State.setWaiting_of_waiting h.waiting
  rw [step_of_sched_nil h.sched, hturn, ← hpoll]
  exact if_pos h.waiting

theorem State.Hangs.setReadData {s : State} (h : s.Hangs) (v : Byte) : (s.setReadData v).Hangs :=
  ⟨h.req, h.waiting, h.stuck, h.sched⟩

/-- However long it hangs, the state is the first one but for the value read. -/
theorem State.Hangs.runN (n : Nat) : ∀ {s : State}, s.Hangs → ∃ v, runN n s = .next (s.setReadData v) := by
  induction n with
  | zero => exact fun {s} _ => ⟨s.port.readData, rfl⟩
  | succ n ih =>
    intro s h
    obtain ⟨v, hv⟩ := ih (h.setReadData s.hs.ctrl)
    exact ⟨v, by rw [runN_succ, h.step, andThen_next, hv]; rfl⟩

/-- Settles O45: after any number of polls the state is as it was but for the value read. -/
theorem hangIsForever : Obligations.HangIsForever := by
  unfold Obligations.HangIsForever
  intro s hreq hwait hstuck hsched n
  obtain ⟨v, hv⟩ := State.Hangs.runN n ⟨hreq, hwait, hstuck, hsched⟩
  exact ⟨_, hv, rfl, rfl, rfl, rfl, rfl, rfl, rfl, rfl⟩

end Sys2Proof.Machine

/-! PROOFS. A request with a null buffer, up to its first access of the buffer: whatever its address and length, its first
pass begins with a staging line or with a transaction and an extracting line (R232, R239). -/

namespace Sys2Proof.Machine

variable {d : Dir} {a : VpAddr} {l : Len}

/-! ## A line whose byte the buffer does not have (R232) -/

/-- With nothing outstanding a line that moves a byte the buffer does not have is refused. -/
theorem State.line_move_refused {s : State} {x : Lane} {off : Nat} (hr : s.hs.req = false)
    (h : ∀ b, s.buf = some b → b.length ≤ s.bufIndex off) : s.line (moveLine d x off) = .refused .bufferContract := by
  cases d with
  | write => exact State.line_stage_refused h
  | read => exact (State.line_extract_of_idle hr).2.trans (State.deliver_refused h)

/-- So is the step, where that line is the next. -/
theorem step_move_refused {s : State} {x : Lane} {off : Nat} {rest : List Micro} (hs : s.sched = [])
    (hr : s.hs.req = false) (hw : s.eng.waiting = false) (hq : s.eng.todo = moveLine d x off :: rest)
    (h : ∀ b, s.buf = some b → b.length ≤ s.bufIndex off) : step s = .refused .bufferContract := by
  rw [step_engine hs hr (by simp [State.engineBusy, hq])]
  simp only [State.engineTurn, hw, hq, Bool.false_eq_true, if_false]
  exact State.line_move_refused (s := s.popLine) hr h

/-! ## The first pass of a request -/

/-- The lines of a pass up to its first access of the buffer, in lane `x`. -/
def opening (d : Dir) (x : Lane) : List Micro :=
  match d with
  | .write => [moveLine .write x 0]
  | .read => [.executeRead, moveLine .read x 0]

theorem headLines_opening (d : Dir) {n : Nat} (h : n ≠ 0) : ∃ q, headLines d n = opening d .l1 ++ q := by
  obtain ⟨n, rfl⟩ := Nat.exists_eq_succ_of_ne_zero h
  cases d <;> exact ⟨_, rfl⟩

theorem bulkLines_opening (d : Dir) : ∃ q, bulkLines d = opening d .l3 ++ q := by
  cases d <;> exact ⟨_, rfl⟩

theorem tailLines_opening (d : Dir) {n : Nat} (h : n ≠ 0) : ∃ q, tailLines d n = opening d .l3 ++ q := by
  obtain ⟨n, rfl⟩ := Nat.exists_eq_succ_of_ne_zero h
  cases d <;> exact ⟨_, rfl⟩

/-- An accepted request in phase `p` before its first access of the buffer, with the lines `q` to come. -/
def State.opened (s : State) (d : Dir) (a : VpAddr) (l : Len) (p : Phase) (on : Bool) (q : List Micro) : State :=
  ((((s.accepted d a l).setSlot (slotOfVp a)).setAddr (slotOfVp a)).setAutoInc (autoIncValue on)).enterPhase p q

/-- The lines of `AddressSet`, whatever the buffer is (R194). -/
theorem runIssues_addressed {s : State} (hq : s.Quiet) :
    RunIssues 3 (s.accepted d a l) [] (s.opened d a l .addressSet false []) := by
  obtain ⟨-, hw, hr, -, hs⟩ := hq
  have hslot : step (s.accepted d a l) = .next ((s.accepted d a l).popLine.setSlot (slotOfVp a)) :=
    step_line (m := .setSlot) hs hr hw rfl rfl
  have htarget : step ((s.accepted d a l).popLine.setSlot (slotOfVp a)) =
      .next (((s.accepted d a l).popLine.setSlot (slotOfVp a)).popLine.setAddr (slotOfVp a)) :=
    step_line (m := .target) hs hr hw rfl ⟨hr, rfl⟩
  have hinc : step (((s.accepted d a l).popLine.setSlot (slotOfVp a)).popLine.setAddr (slotOfVp a)) =
      .next (s.opened d a l .addressSet false []) :=
    step_line (m := .autoInc false) hs hr hw rfl ⟨hr, rfl⟩
  exact ((RunIssues.of_step_silent hslot (.inr hr)).trans (.of_step_silent htarget (.inr hr))).trans
    (.of_step_silent hinc (.inr hr))

/-- `AddressSet` is left in one step. -/
theorem runIssues_opened {s : State} {p : Phase} {q : List Micro} (hq : s.Quiet)
    (h : (s.opened d a l .addressSet false []).leavePhase = s.opened d a l p false q) :
    RunIssues 4 (s.accepted d a l) [] (s.opened d a l p false q) := by
  have hstart := runIssues_addressed (d := d) (a := a) (l := l) hq
  obtain ⟨-, hw, hr, -, hs⟩ := hq
  have hleave := step_leavePhase (s := s.opened d a l .addressSet false []) hs hr hw rfl nofun
  rw [h] at hleave
  exact hstart.trans (.of_step_silent hleave (.inr hr))

/-! ## The first transaction of the plan -/

/-- The plan begins with a transaction in the first byte's slot, under the auto-increment setting `on`. -/
def PlanBegins (a : VpAddr) (l : Len) (on : Bool) : Prop := ∃ k n ps, plan a l = ⟨slotOfVp a, k, 0, n, on⟩ :: ps

theorem planBegins_of_odd (ha : vpIsOdd a = true) (hl : l ≠ 0) : PlanBegins a l false := by
  rw [PlanBegins, plan, headShapes_of_odd a l ha hl, slotOfVp_eq_ofNat]
  exact ⟨_, _, _, rfl⟩

/-- The place before the first pass of a request from an even start, with some buffer that covers it. -/
theorem start_inPlan_of_even (ha : vpIsOdd a = false) :
    (Shared.start d a l [] (.replicate l.toNat 0)).InPlan d a l (.replicate l.toNat 0) [] 0 :=
  Shared.start_inPlan [] ha (by rw [List.length_replicate])

theorem planBegins_of_even_bulk (ha : vpIsOdd a = false) (h4 : 4 ≤ l.toNat) : PlanBegins a l true := by
  have hplace := start_inPlan_of_even (d := .read) (l := l) ha
  have hshape : Shape.mk (slotOfVp a) fullMask 0 4 ((autoIncValue true).getLsbD 0) = bulkShape a l 0 :=
    hplace.shape_atBulk (by show l.toNat ≠ 0; omega)
  have hrem := hplace.rem_eq
  have hlt := planTail_lt a l
  have hsum : l.toNat + 4 * 0 = 4 * planBulk a l + planTail a l := hrem
  have hfirst := bulkShapes_drop (a := a) (l := l) (j := 0) (by omega)
  rw [List.drop_zero] at hfirst
  rw [PlanBegins, plan, headShapes_of_even a l ha, hfirst, ← hshape, autoIncValue_getLsbD_zero]
  exact ⟨_, _, _, rfl⟩

theorem planBegins_of_even_tail (ha : vpIsOdd a = false) (h4 : l.toNat < 4) (hl : l.toNat ≠ 0) :
    PlanBegins a l false := by
  have hplace := start_inPlan_of_even (d := .read) (l := l) ha
  have hrem : l.toNat + 4 * 0 = 4 * planBulk a l + planTail a l := hplace.rem_eq
  have htail : tailShapes a l = [⟨slotOfVp a, tailMask l.toNat, 0, l.toNat, (autoIncValue false).getLsbD 0⟩] :=
    hplace.tailShapes_eq h4 hl
  have hnone : bulkShapes a l = [] := List.eq_nil_of_length_eq_zero (by rw [bulkShapes_length]; omega)
  rw [PlanBegins, plan, headShapes_of_even a l ha, hnone, htail, autoIncValue_getLsbD_zero]
  exact ⟨_, _, _, rfl⟩

/-! ## Up to the first access of the buffer -/

/-- Every request that does something comes, without a transaction, to the opening lines of its first pass. -/
theorem runIssues_opening {s : State} (d : Dir) (hq : s.Quiet) (hl : l ≠ 0) :
    ∃ n p on x q, RunIssues n (s.accepted d a l) [] (s.opened d a l p on (opening d x ++ q)) ∧ p ≠ .idle ∧
      PlanBegins a l on := by
  have hpos : l.toNat ≠ 0 := fun h => hl (BitVec.eq_of_toNat_eq h)
  cases ha : vpIsOdd a with
  | true =>
    obtain ⟨q, hlines⟩ := headLines_opening d (n := min l.toNat 2) (by omega)
    have hleave : (s.opened d a l .addressSet false []).leavePhase =
        s.opened d a l .partialHead false (opening d .l1 ++ q) := by
      rw [← hlines]
      exact State.leavePhase_head rfl ha
    exact ⟨_, _, _, _, q, runIssues_opened hq hleave, nofun, planBegins_of_odd ha hl⟩
  | false =>
    have hbyRem := State.leavePhase_byRem (s := s.opened d a l .addressSet false []) (.inr (.inr ⟨rfl, ha⟩))
    by_cases h4 : 4 ≤ l.toNat
    · obtain ⟨q, hlines⟩ := bulkLines_opening d
      have hleave : (s.opened d a l .addressSet false []).leavePhase =
          s.opened d a l .bulkLoop false (.autoInc true :: (opening d .l3 ++ q)) := by
        rw [← hlines]
        exact hbyRem.trans (State.enterByRem_firstBulk h4 nofun)
      have hstart := runIssues_opened hq hleave
      obtain ⟨-, hw, hr, -, hs⟩ := hq
      have hinc : step (s.opened d a l .bulkLoop false (.autoInc true :: (opening d .l3 ++ q))) =
          .next (s.opened d a l .bulkLoop true (opening d .l3 ++ q)) :=
        step_line (m := .autoInc true) hs hr hw rfl ⟨hr, rfl⟩
      exact ⟨_, _, _, _, q, hstart.trans (.of_step_silent hinc (.inr hr)), nofun, planBegins_of_even_bulk ha h4⟩
    · obtain ⟨q, hlines⟩ := tailLines_opening d hpos
      have hleave : (s.opened d a l .addressSet false []).leavePhase =
          s.opened d a l .tail false (opening d .l3 ++ q) := by
        rw [← hlines]
        exact hbyRem.trans (State.enterByRem_tail (Nat.lt_of_not_le h4) hpos)
      exact ⟨_, _, _, _, q, runIssues_opened hq hleave, nofun, planBegins_of_even_tail ha (by omega) hpos⟩

theorem State.opened_addr (s : State) (d : Dir) (a : VpAddr) (l : Len) (p : Phase) (on : Bool) (q : List Micro) :
    (s.opened d a l p on q).hs.addr = slotOfVp a := addr_withAddr s.hs (slotOfVp a)

/-! ## The read request's first transaction -/

/-- The state in which the first transaction of a read request is outstanding. -/
def State.firstRead (s : State) (a : VpAddr) (l : Len) (p : Phase) (on : Bool) (q : List Micro) : State :=
  (s.opened .read a l p on q).startTransaction .read fullMask

/-- The transaction is the plan's first. -/
theorem State.firstRead_descriptor {s : State} {on : Bool} (h : PlanBegins a l on) (p : Phase) (q : List Micro) :
    [(s.firstRead a l p on q).descriptor] = ((plan a l).take 1).map (Shape.descriptor .read [] s.vpm) := by
  obtain ⟨k, n, ps, hplan⟩ := h
  rw [hplan, State.firstRead, State.descriptor_of_start, State.opened_addr]
  show [_] = [_]
  rw [show (s.opened .read a l p on q).hs.advances = on from autoIncValue_getLsbD_zero on]
  rfl

/-- Where the first slot has storage the transaction ends. -/
theorem runIssues_firstRead {s : State} (hq : s.Quiet) (hslot : s.par.slotBacked (slotOfVp a) = true) (p : Phase)
    (on : Bool) (q : List Micro) :
    ∃ v, RunIssues 3 (s.opened .read a l p on (.executeRead :: q)) [(s.firstRead a l p on q).descriptor]
      (((s.firstRead a l p on q).complete.setReadData v).setWaiting false) := by
  obtain ⟨-, hw, hr, hacks, hs⟩ := hq
  exact runIssues_transaction (s := s.opened .read a l p on (.executeRead :: q)) (d := .read) (m := fullMask) hs hr hw
    rfl ⟨hr, rfl⟩ rfl (by rw [State.opened_addr]; exact hslot) hacks

/-- Where the first slot has no storage the transaction never ends (R231). -/
theorem State.firstRead_stuck {s : State} (h : s.par.slotBacked (slotOfVp a) = false) (p : Phase) (on : Bool)
    (q : List Micro) : (s.firstRead a l p on q).deviceEnabled = false := by
  have haddr : (s.firstRead a l p on q).hs.addr = slotOfVp a := s.opened_addr .read a l p on q
  have hslot : (s.firstRead a l p on q).par.slotBacked (s.firstRead a l p on q).hs.addr = false := by
    rw [haddr]; exact h
  simp [State.deviceEnabled, hslot]

/-- With a null buffer a write request is refused before its first transaction. -/
theorem nullBuffer_write {s : State} (hq : s.Quiet) (hl : l ≠ 0) (hb : s.buf = none) :
    ∃ n t, RunIssues n (s.accepted .write a l) [] t ∧ step t = .refused .bufferContract := by
  obtain ⟨n, p, on, x, q, hrun, -, -⟩ := runIssues_opening (a := a) .write hq hl
  obtain ⟨-, hw, hr, -, hs⟩ := hq
  exact ⟨n, _, hrun, step_move_refused hs hr hw rfl fun b hb' => nomatch hb.symm.trans hb'⟩

/-- With a null buffer a read request to a first slot with storage is refused after its first transaction, of which nothing
is seen but the registers. -/
theorem nullBuffer_read {s : State} (hq : s.Quiet) (hl : l ≠ 0) (hb : s.buf = none)
    (hslot : s.par.slotBacked (slotOfVp a) = true) :
    ∃ n t, RunIssues n (s.accepted .read a l) (((plan a l).take 1).map (Shape.descriptor .read [] s.vpm)) t ∧
      step t = .refused .bufferContract ∧ t.vpm = s.vpm ∧ t.buf = none ∧ t.hs.req = false ∧ t.eng.phase ≠ .idle ∧
      (s.accepted .read a l).SameOutside t := by
  obtain ⟨n, p, on, x, q, hrun, hp, hplan⟩ := runIssues_opening (a := a) .read hq hl
  obtain ⟨v, hread⟩ := runIssues_firstRead (l := l) hq hslot p on (moveLine .read x 0 :: q)
  obtain ⟨-, -, -, hacks, hs⟩ := hq
  rw [State.firstRead_descriptor hplan] at hread
  have heng := (s.firstRead a l p on (moveLine .read x 0 :: q)).complete_eng
  have hbuf : (s.firstRead a l p on (moveLine .read x 0 :: q)).complete.buf = none :=
    (State.complete_buf _).trans hb
  refine ⟨_, _, hrun.trans hread, ?_, State.complete_vpm_of_read (dir_start _ .read fullMask), hbuf,
    State.complete_req _, ?_, State.complete_sameOutside hacks⟩
  · exact step_move_refused (d := .read) (x := x) (off := 0) (rest := q) ((State.complete_sched _).trans hs)
      (State.complete_req _) rfl (congrArg Engine.todo heng) fun b hb' => nomatch hbuf.symm.trans hb'
  · show (s.firstRead a l p on _).complete.eng.phase ≠ .idle
    rw [heng]
    exact hp

/-- A read request to a first slot without storage comes to its first transaction, which hangs. -/
theorem unbackedRead_hangs {s : State} (hq : s.Quiet) (hl : l ≠ 0) (hslot : s.par.slotBacked (slotOfVp a) = false) :
    ∃ n p on q, runN n (s.accepted .read a l) = .next (s.firstRead a l p on q) ∧ p ≠ .idle ∧
      (s.firstRead a l p on q).Hangs := by
  obtain ⟨n, p, on, x, q, ⟨hrun, -⟩, hp, -⟩ := runIssues_opening (a := a) .read hq hl
  obtain ⟨-, hw, hr, -, hs⟩ := hq
  have hstart : step (s.opened .read a l p on (opening .read x ++ q)) =
      .next (s.firstRead a l p on (moveLine .read x 0 :: q)) :=
    step_line (m := .executeRead) hs hr hw rfl ⟨hr, rfl⟩
  refine ⟨n + 1, p, on, moveLine .read x 0 :: q, ?_, hp, ⟨req_start _ .read fullMask, rfl, ?_, hs⟩⟩
  · rw [runN_add, hrun, andThen_next, runN_succ, hstart]; rfl
  · exact State.firstRead_stuck hslot p on _

/-- Settles O58: the three cases, each from the opening lines of the first pass. -/
theorem nullBufferOrdering : Obligations.NullBufferOrdering := by
  unfold Obligations.NullBufferOrdering
  intro s a l hq hl hb
  refine ⟨?write, fun hslot => ?backed, fun hslot => ?unbacked⟩
  case write =>
    obtain ⟨n, t, ⟨hrun, hissued⟩, hstop⟩ := nullBuffer_write (a := a) hq hl hb
    exact ⟨_, n, t, exec_request (d := .write) hq hl, hrun, hissued, hstop⟩
  case backed =>
    obtain ⟨n, t, ⟨hrun, hissued⟩, hstop, hvpm, hbuf, hreq, hbusy, hhost, -, -, hdones⟩ := nullBuffer_read hq hl hb hslot
    exact ⟨_, n, t, exec_request (d := .read) hq hl, hrun, hstop, hissued, hvpm, hbuf, hreq, hbusy, by rw [hhost]; rfl,
      hdones⟩
  case unbacked =>
    obtain ⟨n, p, on, q, hrun, hp, hhangs⟩ := unbackedRead_hangs hq hl hslot
    exact ⟨_, n, _, exec_request (d := .read) hq hl, hrun, hp, hhangs.req, hhangs.waiting, hhangs.stuck,
      s.opened_addr .read a l p on q, rfl⟩

end Sys2Proof.Machine

/-! PROOFS. A request with too short a buffer: its passes go as with a buffer that covers it, until the pass whose bytes the
buffer does not all have stops at the first missing one (R232, R239). -/

namespace Sys2Proof.Machine

variable {d : Dir} {a : VpAddr} {l : Len} {b : List Byte} {m : Memory} {B : SlotAddr → Prop}

/-! ## Moving lines cut short -/

/-- The next line moves a byte that the buffer does not have. -/
def Shared.Starved (c : Shared) : Prop :=
  ∃ d x off rest, c.eng.todo = moveLine d x off :: rest ∧ c.buf.length ≤ c.eng.idx.toNat + off

theorem Shows.step_refused {c : Shared} {ie : Bool} {s : State} (h : Shows B ie c s) (hc : c.Starved) :
    step s = .refused .bufferContract := by
  obtain ⟨d, x, off, rest, hq, hlen⟩ := hc
  refine step_move_refused h.sched h.req h.waiting_eq (h.todo_eq.trans hq) fun b hb => ?_
  obtain rfl : c.buf = b := Option.some.inj (h.buf.symm.trans hb)
  rw [State.bufIndex, h.eng]
  exact hlen

/-- The moving lines `M` stop after those of the lanes `ls`, for want of the next byte. -/
def CutAfter (B : SlotAddr → Prop) (d : Dir) (M : List Micro) (ls : List Lane) (c : Shared) : Prop :=
  ∀ rest, ∃ c' : Shared, c'.Starved ∧ c'.vpm = (c.moves d 0 ls).vpm ∧ c'.buf = (c.moves d 0 ls).buf ∧
    Issues B [] (c.goOn (M ++ rest)) c'

theorem atOffsets_append (f : Lane → Nat → Micro) (ls ls' : List Lane) : ∀ off,
    atOffsets f off (ls ++ ls') = atOffsets f off ls ++ atOffsets f (off + ls.length) ls' := by
  induction ls with
  | nil => exact fun _ => rfl
  | cons x ls ih =>
    intro off
    rw [List.length_cons, Nat.add_comm ls.length, ← Nat.add_assoc]
    exact congrArg (f x off :: ·) (ih (off + 1))

theorem cutAfter_atOffsets (c : Shared) {ls ls' : List Lane} {x : Lane} (hkn : d = .read → ∀ y ∈ ls, y ∈ c.known)
    (hlen : c.eng.idx.toNat + ls.length = c.buf.length) :
    CutAfter B d (atOffsets (moveLine d) 0 (ls ++ x :: ls')) ls c := by
  intro rest
  have hmoved := Shared.moves_moved d ls c 0
  have hmoves := issues_atOffsets (B := B) d (atOffsets (moveLine d) (0 + ls.length) (x :: ls') ++ rest) ls c 0 hkn
    (by omega)
  rw [atOffsets_append, List.append_assoc]
  refine ⟨(c.moves d 0 ls).goOn _, ⟨d, x, 0 + ls.length, _, rfl, ?_⟩, rfl, rfl, hmoves⟩
  show (c.moves d 0 ls).buf.length ≤ (c.moves d 0 ls).eng.idx.toNat + (0 + ls.length)
  rw [hmoved.eng, hmoved.length]
  omega

theorem cutAfter_oneByOne (c : Shared) {ls ls' : List Lane} {x : Lane} (hkn : d = .read → ∀ y ∈ ls, y ∈ c.known)
    (hlen : c.eng.idx.toNat + ls.length = c.buf.length) (hlt : c.eng.idx.toNat + ls.length < 2 ^ 16) :
    CutAfter B d (oneByOne (moveLine d) (ls ++ x :: ls')) ls c := by
  intro rest
  have hmoved := Shared.moves_moved d ls c 0
  have hmoves := issues_oneByOne (B := B) d (oneByOne (moveLine d) (x :: ls') ++ rest) ls c 0 hkn (by omega) (by omega)
  rw [Shared.consume_zero] at hmoves
  rw [oneByOne, List.flatMap_append, List.append_assoc]
  refine ⟨((c.moves d 0 ls).consume (0 + ls.length)).goOn _, ⟨d, x, 0, _, rfl, ?_⟩, rfl, rfl, hmoves⟩
  show (c.moves d 0 ls).buf.length ≤ ((c.moves d 0 ls).consume (0 + ls.length)).eng.idx.toNat + 0
  have hidx : ((c.moves d 0 ls).consume (0 + ls.length)).eng.idx.toNat = c.eng.idx.toNat + ls.length := by
    simp only [Shared.consume, BitVec.toNat_add, BitVec.toNat_ofNat, hmoved.eng]
    omega
  rw [hidx, hmoved.length]
  omega

/-! ## A pass cut short -/

/-- The lines of a pass whose moving lines are `M` (R172 to R174, R182 to R184). -/
def passLines (d : Dir) (k : Mask) (M : List Micro) : List Micro :=
  match d with
  | .write => M ++ [.executeWrite k]
  | .read => .executeRead :: M

theorem offsetLines_eq (d : Dir) (k : Mask) (ls : List Lane) :
    offsetLines d k ls = passLines d k (atOffsets (moveLine d) 0 ls) := by
  cases d <;> rfl

theorem headPass_eq (d : Dir) (k : Mask) (ls : List Lane) :
    headPass d k ls = passLines d k (oneByOne (moveLine d) ls) := by
  cases d <;> rfl

/-- The transactions of a pass that stops among its moving lines: a read's comes before them. -/
def begun (d : Dir) (p : Shape) : List Shape :=
  match d with
  | .write => []
  | .read => [p]

/-- How many bytes a request has moved when it stops in the pass of `p` with a buffer of `n` bytes: a write none of that
pass. -/
def movedTill (d : Dir) (p : Shape) (n : Nat) : Nat :=
  match d with
  | .write => p.first
  | .read => n

/-- Where the moving lines of a pass begin: a read's after its transaction. -/
def Shared.atMoves (c : Shared) (d : Dir) : Shared :=
  match d with
  | .write => c
  | .read => c.fetched

theorem Shared.atMoves_eng (c : Shared) (d : Dir) : (c.atMoves d).eng = c.eng := by cases d <;> rfl

theorem Shared.atMoves_buf (c : Shared) (d : Dir) : (c.atMoves d).buf = c.buf := by cases d <;> rfl

/-- A read has fetched all four lanes when it begins to move them. -/
theorem Shared.mem_known_atMoves (c : Shared) (ls : List Lane) : d = .read → ∀ y ∈ ls, y ∈ (c.atMoves d).known := by
  rintro rfl y -
  exact mem_bulkLanes y

theorem Shared.Transferred.length {n : Nat} {c : Shared} (h : c.Transferred d a b m n) : c.buf.length = b.length := by
  cases d with
  | write => exact congrArg List.length (Shared.Stored.buf h)
  | read => exact Shared.Filled.length h

theorem Shared.Transferred.source {n : Nat} {c : Shared} (h : c.Transferred d a b m n) : c.Source d b m := by
  cases d with
  | write => exact Shared.Stored.buf h
  | read => exact Shared.Filled.vpm h

/-- The first lanes that a mask enables are those of some mask. -/
theorem exists_mask_take (k : Mask) (j : Nat) : ∃ k', maskLanes k' = (maskLanes k).take j := by
  by_cases hj : j < 5
  · interval_cases j <;> revert k <;> decide
  · refine ⟨k, (List.take_of_length_le ?_).symm⟩
    have hlen : (maskLanes k).length ≤ 4 := List.length_filter_le _ bulkLanes
    omega

/-- The first bytes of a shape lie in its first lanes. -/
theorem Shape.LiesIn.cut {c : Shared} {k k' : Mask} {n j : Nat} (h : (c.shape k n).LiesIn a)
    (hk : maskLanes k' = (maskLanes k).take j) (hj : j ≤ n) : (c.shape k' j).LiesIn a := by
  have hfits : requestByte a c.eng.idx.toNat % 4 + n ≤ 4 := h.fits
  refine ⟨h.slot, ?_, ?_⟩
  · show maskLanes k' = (bulkLanes.drop (requestByte a c.eng.idx.toNat % 4)).take j
    have hlanes : maskLanes k = (bulkLanes.drop (requestByte a c.eng.idx.toNat % 4)).take n := h.lanes
    rw [hk, hlanes, List.take_take, Nat.min_eq_left hj]
  · show requestByte a c.eng.idx.toNat % 4 + j ≤ 4
    omega

/-- What is moved when a pass stops after its first `j` bytes, the last ones of the buffer. -/
theorem Shared.Transferred.cut {c : Shared} {k : Mask} {n j : Nat} (h : c.Transferred d a b m c.eng.idx.toNat)
    (hp : (c.shape k n).LiesIn a) (hj : j < n) (hlen : c.eng.idx.toNat + j = b.length)
    (hlt : c.eng.idx.toNat + n < 2 ^ 16) :
    ((c.atMoves d).moves d 0 ((maskLanes k).take j)).Transferred d a b m (movedTill d (c.shape k n) b.length) := by
  have hlength := h.length
  cases d with
  | write =>
    have hmoved := Shared.moves_moved .write ((maskLanes k).take j) c 0
    exact h.of_eq hmoved.vpm (hmoved.buf rfl)
  | read =>
    obtain ⟨k', hk'⟩ := exists_mask_take k j
    have hpass := h.pass (hp.cut hk' (by omega)) (by omega) (by omega)
    rw [hlen] at hpass
    rw [← hk']
    exact hpass

/-- The pass of `p` stops, with its bytes moved as far as the buffer goes. -/
def Stops (B : SlotAddr → Prop) (d : Dir) (a : VpAddr) (b : List Byte) (m : Memory) (ps : List Shape) (p : Shape)
    (c : Shared) : Prop :=
  ∃ c' : Shared, c'.Starved ∧ c'.Transferred d a b m (movedTill d p b.length) ∧
    Issues B ((ps ++ begun d p).map (Shape.descriptor d b m)) c c'

theorem Stops.after {ps qs : List Shape} {p : Shape} {c c' : Shared}
    (h' : Stops B d a b m qs p c') (h : Issues B (ps.map (Shape.descriptor d b m)) c c') :
    Stops B d a b m (ps ++ qs) p c := by
  obtain ⟨u, hstarved, hmoved, hissues⟩ := h'
  refine ⟨u, hstarved, hmoved, ?_⟩
  rw [List.append_assoc, List.map_append]
  exact h.trans hissues

section
variable {c : Shared} {k : Mask} {n : Nat}

/-- A pass whose moving lines are cut short issues what it has begun. -/
theorem stops_pass {M : List Micro} (rest : List Micro) (hB : B c.addr) (hmoved : c.Transferred d a b m c.eng.idx.toNat)
    (hp : (c.shape k n).LiesIn a) (hidx : c.eng.idx.toNat ≤ b.length) (hshort : b.length < c.eng.idx.toNat + n)
    (hlt : c.eng.idx.toNat + n < 2 ^ 16)
    (hM : ∀ ls x ls', maskLanes k = ls ++ x :: ls' → (c.atMoves d).eng.idx.toNat + ls.length = (c.atMoves d).buf.length →
      CutAfter B d M ls (c.atMoves d)) :
    Stops B d a b m [] (c.shape k n) (c.goOn (passLines d k M ++ rest)) := by
  obtain ⟨j, hj⟩ := Nat.exists_eq_add_of_le hidx
  have hcount : (maskLanes k).length = n := hp.lanes_length
  have hsplit : maskLanes k = (maskLanes k).take j ++ (maskLanes k)[j] :: (maskLanes k).drop (j + 1) := by
    rw [← List.drop_eq_getElem_cons, List.take_append_drop]
  have hbytes := hmoved.cut hp (j := j) (by omega) hj.symm hlt
  have hcut := hM _ _ _ hsplit (by
    rw [c.atMoves_eng, c.atMoves_buf, hmoved.length, List.length_take, hcount]
    omega)
  cases d with
  | write =>
    obtain ⟨c', hstarved, hvpm, hbuf, hissues⟩ := hcut (.executeWrite k :: rest)
    refine ⟨c', hstarved, hbytes.of_eq hvpm hbuf, ?_⟩
    rw [passLines, List.append_assoc]
    exact hissues
  | read =>
    obtain ⟨c', hstarved, hvpm, hbuf, hissues⟩ := hcut rest
    have hexec := issues_transaction (B := B) c (m := .executeRead) (d := .read) (k := fullMask) (M ++ rest)
      (fun s hr => ⟨hr, rfl⟩) rfl nofun hB
    refine ⟨c', hstarved, hbytes.of_eq hvpm hbuf, ?_⟩
    have hdesc : c.issued .read fullMask = (c.shape k n).descriptor .read b m := hmoved.source.descriptor (c.shape k n)
    rw [hdesc] at hexec
    exact hexec.before hissues

theorem stops_offsetPass (rest : List Micro) (hB : B c.addr) (hmoved : c.Transferred d a b m c.eng.idx.toNat)
    (hp : (c.shape k n).LiesIn a) (hidx : c.eng.idx.toNat ≤ b.length) (hshort : b.length < c.eng.idx.toNat + n)
    (hlt : c.eng.idx.toNat + n < 2 ^ 16) :
    Stops B d a b m [] (c.shape k n) (c.goOn (offsetLines d k (maskLanes k) ++ rest)) := by
  rw [offsetLines_eq]
  refine stops_pass rest hB hmoved hp hidx hshort hlt fun ls x ls' hls hlen => ?_
  rw [hls]
  exact cutAfter_atOffsets _ (c.mem_known_atMoves ls) hlen

theorem stops_headPass (rest : List Micro) (hB : B c.addr) (hmoved : c.Transferred d a b m c.eng.idx.toNat)
    (hp : (c.shape k n).LiesIn a) (hidx : c.eng.idx.toNat ≤ b.length) (hshort : b.length < c.eng.idx.toNat + n)
    (hlt : c.eng.idx.toNat + n < 2 ^ 16) :
    Stops B d a b m [] (c.shape k n) (c.goOn (headPass d k (maskLanes k) ++ rest)) := by
  rw [headPass_eq]
  refine stops_pass rest hB hmoved hp hidx hshort hlt fun ls x ls' hls hlen => ?_
  rw [hls]
  refine cutAfter_oneByOne _ (c.mem_known_atMoves ls) hlen ?_
  rw [hlen, c.atMoves_buf, hmoved.length]
  omega

end

end Sys2Proof.Machine

/-! PROOFS. Where a request with too short a buffer stops in its plan, and what it leaves: the registers between two passes
are those of the same request with the buffer padded till it covers the length. -/

namespace Sys2Proof.Machine

variable {d : Dir} {a : VpAddr} {l : Len} {b q : List Byte} {m : Memory} {B : SlotAddr → Prop}

/-! ## Between two passes -/

/-- The same place with more bytes behind the buffer. -/
def Shared.padded (c : Shared) (q : List Byte) : Shared := c.withBuf (c.buf ++ q)

theorem Shared.Carried.padded {n : Nat} {c c' : Shared} (h : c.Carried n c') (q : List Byte) :
    (c.padded q).Carried n (c'.padded q) := by
  refine ⟨h.eng, h.addr, h.inc, ?_⟩
  show (c'.buf ++ q).length = (c.buf ++ q).length
  rw [List.length_append, List.length_append, h.length]

theorem Shared.Transferred.source_padded {n : Nat} {c : Shared} (h : c.Transferred d a b m n) (q : List Byte) :
    (c.padded q).Source d (b ++ q) m := by
  have hsource := h.source
  cases d with
  | write => exact congrArg (· ++ q) (show c.buf = b from hsource)
  | read => exact hsource

/-- Between two passes of a request whose buffer need not cover the length: with the padding `q` it would, the place in the
plan is that of the padded request, and the bytes counted so far are there and moved. -/
structure Shared.InShort (d : Dir) (a : VpAddr) (l : Len) (b q : List Byte) (m : Memory) (j : Nat) (c : Shared) : Prop where
  plan : (c.padded q).InPlan d a l (b ++ q) m j
  moved : c.Transferred d a b m c.eng.idx.toNat
  fits : c.eng.idx.toNat ≤ b.length

/-- Within the shapes `qs` the request carries some out and stops in the pass of the first whose bytes the buffer does not
all have. -/
def StopsIn (B : SlotAddr → Prop) (d : Dir) (a : VpAddr) (b : List Byte) (m : Memory) (qs : List Shape) (c : Shared) :
    Prop :=
  ∃ ps p rest, qs = ps ++ p :: rest ∧ p.first ≤ b.length ∧ b.length < p.first + p.count ∧ Stops B d a b m ps p c

theorem StopsIn.after {ps qs : List Shape} {c c' : Shared} (h' : StopsIn B d a b m qs c')
    (h : Issues B (ps.map (Shape.descriptor d b m)) c c') : StopsIn B d a b m (ps ++ qs) c := by
  obtain ⟨ps', p, rest, hqs, hfirst, hshort, hstops⟩ := h'
  exact ⟨ps ++ ps', p, rest, by rw [hqs, List.append_assoc], hfirst, hshort, hstops.after h⟩

theorem StopsIn.after_silent {qs : List Shape} {c c' : Shared} (h' : StopsIn B d a b m qs c') (h : Issues B [] c c') :
    StopsIn B d a b m qs c := StopsIn.after (ps := []) h' h

/-- It stops in the first of them. -/
theorem Stops.stopsIn {p : Shape} {c : Shared} (h : Stops B d a b m [] p c) (hfirst : p.first ≤ b.length)
    (hshort : b.length < p.first + p.count) (rest : List Shape) : StopsIn B d a b m (p :: rest) c :=
  ⟨[], p, rest, rfl, hfirst, hshort, h⟩

/-! ## The next pass (R173, R174, R183, R184) -/

/-- Leaving a phase after which `rem` decides does not depend on the buffer. -/
theorem Shared.issues_enterByRem {c : Shared} (h : (c.padded q).Between d a l) {p : Phase} {lines : List Micro}
    (hp : p ≠ .idle)
    (he : ∀ s : State, s.eng.phase = c.eng.phase → s.eng.op = d → s.eng.rem = c.eng.rem →
      s.enterByRem = s.enterPhase p lines) :
    Issues B [] (c.goOn []) (c.enter p lines) :=
  issues_leavePhase c hp fun s hphase hop hvp hrem => by
    have hbyRem : ByRem s.eng.phase s.eng.vp := by
      rw [hphase, hvp, show c.eng.vp = a from h.vp]
      exact h.phase
    rw [State.leavePhase_byRem hbyRem]
    exact he s hphase (hop.trans h.op) hrem

theorem Shared.issues_enterBulk {c : Shared} (h : (c.padded q).Between d a l) (hr : 4 ≤ c.eng.rem.toNat) :
    Issues B [] (c.goOn []) (c.atBulk.goOn (bulkLines d)) := by
  by_cases hp : c.eng.phase = .bulkLoop
  · have hinc : c.withInc (autoIncValue true) = c := by rw [Shared.withInc, ← show c.inc = _ from h.inc hp]
    rw [Shared.atBulk, hinc]
    refine Shared.issues_enterByRem h (p := .bulkLoop) nofun fun s hphase hop hrem => ?_
    rw [State.enterByRem_nextBulk (by rw [hrem]; exact hr) (hphase.trans hp), hop]
  · have henter : Issues B [] (c.goOn []) (c.enter .bulkLoop (.autoInc true :: bulkLines d)) :=
      Shared.issues_enterByRem h nofun fun s hphase hop hrem => by
        rw [State.enterByRem_firstBulk (by rw [hrem]; exact hr) (by rw [hphase]; exact hp), hop]
    exact henter.before ((carries_autoInc ((c.enter .bulkLoop []).goOn (bulkLines d)) true).issues nofun)

theorem Shared.issues_enterTail {c : Shared} (h : (c.padded q).Between d a l) (hr : c.eng.rem.toNat < 4)
    (h0 : c.eng.rem.toNat ≠ 0) :
    Issues B [] (c.goOn []) ((c.enter .tail []).goOn (tailLines d c.eng.rem.toNat)) :=
  Shared.issues_enterByRem h (p := .tail) nofun fun s _ hop hrem => by
    rw [State.enterByRem_tail (by rw [hrem]; exact hr) (by rw [hrem]; exact h0), hop, hrem]

section
variable {c : Shared} {j : Nat}

/-- The bytes left, and those counted so far, of a request whose buffer does not cover the length. -/
theorem Shared.InShort.counts (h : c.InShort d a l b q m j) :
    c.eng.idx.toNat + c.eng.rem.toNat = l.toNat ∧ c.eng.rem.toNat + 4 * j = 4 * planBulk a l + planTail a l :=
  ⟨h.plan.between.count, h.plan.rem_eq⟩

theorem Shared.InShort.touched (h : c.InShort d a l b q m j) (hr : c.eng.rem.toNat ≠ 0) : Touched a l c.addr :=
  h.plan.between.touched hr

/-- With four bytes left or more the next pass is the plan's next bulk transaction. -/
theorem Shared.InShort.shape_atBulk (h : c.InShort d a l b q m j) (hr : 4 ≤ c.eng.rem.toNat) :
    c.atBulk.shape fullMask 4 = bulkShape a l j ∧ (c.atBulk.shape fullMask 4).LiesIn a ∧
      (bulkShapes a l).drop j = bulkShape a l j :: (bulkShapes a l).drop (j + 1) := by
  have hleft := h.plan.rem_eq
  have hlt := planTail_lt a l
  have hrem : (c.padded q).eng.rem.toNat = c.eng.rem.toNat := rfl
  have hshape : c.atBulk.shape fullMask 4 = bulkShape a l j := h.plan.shape_atBulk (by omega)
  have hj : j < planBulk a l := by omega
  exact ⟨hshape, hshape ▸ liesIn_of_mem_bulkShapes (bulkShape_mem hj), bulkShapes_drop hj⟩

/-- With its four bytes there a pass through `BulkLoop` is carried out. -/
theorem Shared.InShort.afterBulk (h : c.InShort d a l b q m j) (hr : 4 ≤ c.eng.rem.toNat)
    (hlen : c.eng.idx.toNat + 4 ≤ b.length) :
    (c.afterBulk d).InShort d a l b q m (j + 1) ∧ (c.afterBulk d).eng.rem.toNat = c.eng.rem.toNat - 4 ∧
      Issues (Touched a l) [(bulkShape a l j).descriptor d b m] (c.goOn []) ((c.afterBulk d).goOn []) := by
  obtain ⟨hcount, -⟩ := h.counts
  obtain ⟨hshape, hlies, -⟩ := h.shape_atBulk hr
  have htouched := h.touched (by omega)
  obtain ⟨hplan, hmoved, -⟩ := h
  have hl := l.isLt
  have hidx : c.eng.idx.toNat = planHead a l + 4 * j := hplan.idx
  have hlength := hmoved.length
  have hcarried := c.atBulk.pass_carried d fullMask 4
  obtain ⟨hbetween, hrem⟩ := hplan.between.afterBulk hr (hcarried.padded q)
  have hcount' : (c.afterBulk d).eng.idx.toNat + (c.afterBulk d).eng.rem.toNat = l.toNat := hbetween.count
  have hrem' : (c.afterBulk d).eng.rem.toNat = c.eng.rem.toNat - 4 := hrem
  have hidx' : (c.afterBulk d).eng.idx.toNat = c.eng.idx.toNat + 4 := by omega
  have hbytes : c.atBulk.Transferred d a b m c.atBulk.eng.idx.toNat := hmoved.of_eq rfl rfl
  have hmoved' : (c.afterBulk d).Transferred d a b m (c.afterBulk d).eng.idx.toNat := by
    rw [hidx']
    exact (hbytes.pass hlies (by show c.eng.idx.toNat + 4 ≤ 2 ^ 16; omega)
      (by show c.eng.idx.toNat + 4 ≤ c.buf.length; omega)).of_eq rfl rfl
  have hissues := issues_bulkLines (B := Touched a l) c.atBulk d htouched
    (by show c.eng.idx.toNat + 4 ≤ c.buf.length; omega)
  rw [hshape, hbytes.source.descriptor] at hissues
  refine ⟨⟨⟨hbetween, ?_, ?_, hmoved'.source_padded q⟩, hmoved', by omega⟩, hrem',
    hissues.after (Shared.issues_enterBulk hplan.between hr)⟩
  · show (c.afterBulk d).eng.idx.toNat = _
    omega
  · exact hcarried.inc.trans (congrArg autoIncValue (decide_eq_true (Nat.le_add_left 1 j)).symm)

/-- Without them the request stops in that pass. -/
theorem Shared.InShort.stops_bulk (h : c.InShort d a l b q m j) (hr : 4 ≤ c.eng.rem.toNat)
    (hlen : b.length < c.eng.idx.toNat + 4) (rest : List Shape) :
    StopsIn (Touched a l) d a b m (bulkShape a l j :: rest) (c.goOn []) := by
  obtain ⟨hcount, -⟩ := h.counts
  obtain ⟨hshape, hlies, -⟩ := h.shape_atBulk hr
  have htouched := h.touched (by omega)
  obtain ⟨hplan, hmoved, hfits⟩ := h
  have hl := l.isLt
  have hstops := stops_offsetPass (B := Touched a l) (c := c.atBulk) (k := fullMask) [.consume 4, .nextSlot]
    htouched (hmoved.of_eq rfl rfl) hlies hfits hlen
    (by show c.eng.idx.toNat + 4 < 2 ^ 16; omega)
  rw [maskLanes_fullMask, ← bulkLines_eq] at hstops
  rw [← hshape]
  exact (hstops.stopsIn hfits hlen rest).after_silent (Shared.issues_enterBulk hplan.between hr)

/-- A tail that is left to a buffer that does not cover the length stops. -/
theorem Shared.InShort.stops_tail (h : c.InShort d a l b q m j) (hr : c.eng.rem.toNat < 4) (hlen : b.length < l.toNat) :
    StopsIn (Touched a l) d a b m (tailShapes a l) (c.goOn []) := by
  obtain ⟨hcount, -⟩ := h.counts
  obtain ⟨hplan, hmoved, hfits⟩ := h
  have hl := l.isLt
  have h0 : c.eng.rem.toNat ≠ 0 := by omega
  have hshapes : tailShapes a l = [(c.enter .tail []).shape (tailMask c.eng.rem.toNat) c.eng.rem.toNat] :=
    hplan.tailShapes_eq hr h0
  have hlies : ((c.enter .tail []).shape (tailMask c.eng.rem.toNat) c.eng.rem.toNat).LiesIn a := by
    refine liesIn_of_mem_tailShapes (l := l) ?_
    rw [hshapes]
    exact List.mem_singleton_self _
  have hshort : b.length < c.eng.idx.toNat + c.eng.rem.toNat := by omega
  have hstops := stops_offsetPass (B := Touched a l) (c := c.enter .tail []) [.consume c.eng.rem.toNat]
    (hplan.between.touched h0) (hmoved.of_eq rfl rfl) hlies hfits hshort
    (by show c.eng.idx.toNat + c.eng.rem.toNat < 2 ^ 16; omega)
  rw [← tailLanes_eq_maskLanes (by omega), ← tailLines_eq] at hstops
  rw [hshapes]
  exact (hstops.stopsIn hfits hshort []).after_silent (Shared.issues_enterTail hplan.between hr h0)

end

/-- From between two passes the request gets to the pass it stops in, by induction on the bytes left. -/
theorem Shared.InShort.stops {c : Shared} {j : Nat} (h : c.InShort d a l b q m j) (hlen : b.length < l.toNat) :
    StopsIn (Touched a l) d a b m ((bulkShapes a l).drop j ++ tailShapes a l) (c.goOn []) := by
  obtain ⟨hcount, hleft⟩ := h.counts
  by_cases h4 : 4 ≤ c.eng.rem.toNat
  · obtain ⟨-, -, hdrop⟩ := h.shape_atBulk h4
    rw [hdrop]
    by_cases hcovered : c.eng.idx.toNat + 4 ≤ b.length
    · obtain ⟨hnext, hrem, hissues⟩ := h.afterBulk h4 hcovered
      exact StopsIn.after (ps := [bulkShape a l j]) (hnext.stops hlen) hissues
    · exact h.stops_bulk h4 (by omega) _
  · have hdone : (bulkShapes a l).drop j = [] := List.drop_eq_nil_of_le (by rw [bulkShapes_length]; omega)
    rw [hdone, List.nil_append]
    exact h.stops_tail (by omega) hlen
termination_by c.eng.rem.toNat

/-! ## The start (R172, R182, R194) -/

/-- Before the first pass of a request from an even start. -/
theorem Shared.start_inShort (q : List Byte) (ha : vpIsOdd a = false) (hq : l.toNat ≤ (b ++ q).length)
    (hm : d = .write → m.wf = true) : (Shared.start d a l m b).InShort d a l b q m 0 :=
  ⟨Shared.start_inPlan m ha hq, Shared.start_transferred hm, Nat.zero_le _⟩

theorem issues_enterHead (ha : vpIsOdd a = true) :
    Issues B [] ((Shared.start d a l m b).goOn [])
      ((Shared.atHead d a l m b).goOn (headLines d (min l.toNat 2))) :=
  issues_leavePhase (p := .partialHead) _ nofun fun s hp hop hvp hrem => by
    rw [State.leavePhase_head hp (hvp ▸ ha), hop, hrem]
    rfl

/-- The first pass from an odd start is the plan's head. -/
theorem Shared.shape_atHead (ha : vpIsOdd a = true) (hl : l ≠ 0) :
    headShapes a l = [(Shared.atHead d a l m b).shape (headMask (min l.toNat 2)) (min l.toNat 2)] ∧
      ((Shared.atHead d a l m b).shape (headMask (min l.toNat 2)) (min l.toNat 2)).LiesIn a := by
  have hshapes := Shared.headShapes_eq (d := d) m b ha hl
  refine ⟨hshapes, liesIn_of_mem_headShapes (l := l) ?_⟩
  rw [hshapes]
  exact List.mem_singleton_self _

/-- With its bytes there the head is carried out. -/
theorem Shared.start_afterHead (q : List Byte) (ha : vpIsOdd a = true) (hl : l ≠ 0) (hq : l.toNat ≤ (b ++ q).length)
    (hlen : min l.toNat 2 ≤ b.length) (hm : d = .write → m.wf = true) :
    (Shared.afterHead d a l m b).InShort d a l b q m 0 ∧
      Issues (Touched a l) ((headShapes a l).map (Shape.descriptor d b m)) ((Shared.start d a l m b).goOn [])
        ((Shared.afterHead d a l m b).goOn []) := by
  have hpos : l.toNat ≠ 0 := fun h => hl (BitVec.eq_of_toNat_eq h)
  have hlt := l.isLt
  obtain ⟨hshapes, hlies⟩ := Shared.shape_atHead (d := d) (m := m) (b := b) ha hl
  have hcarried := (Shared.atHead d a l m b).pass_carried d (headMask (min l.toNat 2)) (min l.toNat 2)
  obtain ⟨hconsumed, -⟩ := Shared.consume_toNat (c := Shared.atHead d a l m b) (n := min l.toNat 2)
    (Nat.min_le_left ..) (by show 0 + l.toNat < 2 ^ 16; omega)
  have hidx : (Shared.afterHead d a l m b).eng.idx.toNat = 0 + min l.toNat 2 := by
    rw [Shared.afterHead, Shared.aim, Shared.nextSlot, hcarried.eng]
    exact hconsumed
  have hbetween : ((Shared.afterHead d a l m b).padded q).Between d a l :=
    Shared.between_afterHead (m := m) ha hq (hcarried.padded q)
  have hbytes : (Shared.atHead d a l m b).Transferred d a b m 0 := (Shared.start_transferred (l := l) hm).of_eq rfl rfl
  have hmoved : (Shared.afterHead d a l m b).Transferred d a b m (Shared.afterHead d a l m b).eng.idx.toNat := by
    rw [hidx]
    exact (hbytes.pass hlies (by show 0 + _ ≤ 2 ^ 16; omega) (by show 0 + _ ≤ b.length; omega)).of_eq rfl rfl
  have hissues := issues_headLines (B := Touched a l) (Shared.atHead d a l m b) d (n := min l.toNat 2) (by omega)
    (by omega) (touched_first hl) (by show 0 + _ ≤ b.length; omega) (by show 0 + _ < 2 ^ 16; omega)
  rw [hbytes.source.descriptor] at hissues
  rw [hshapes]
  refine ⟨⟨⟨hbetween, ?_, hcarried.inc, hmoved.source_padded q⟩, hmoved, by omega⟩, hissues.after (issues_enterHead ha)⟩
  show (Shared.afterHead d a l m b).eng.idx.toNat = planHead a l + 4 * 0
  rw [hidx, planHead_of_odd a l ha]
  omega

/-- Without them the request stops in its head. -/
theorem Shared.start_stops_head (ha : vpIsOdd a = true) (hl : l ≠ 0) (hlen : b.length < min l.toNat 2)
    (hm : d = .write → m.wf = true) (rest : List Shape) :
    StopsIn (Touched a l) d a b m (headShapes a l ++ rest) ((Shared.start d a l m b).goOn []) := by
  have hpos : l.toNat ≠ 0 := fun h => hl (BitVec.eq_of_toNat_eq h)
  have hlt := l.isLt
  obtain ⟨hshapes, hlies⟩ := Shared.shape_atHead (d := d) (m := m) (b := b) ha hl
  have hbytes : (Shared.atHead d a l m b).Transferred d a b m 0 := (Shared.start_transferred (l := l) hm).of_eq rfl rfl
  have hshort : b.length < (Shared.atHead d a l m b).eng.idx.toNat + min l.toNat 2 := by
    show b.length < 0 + min l.toNat 2
    omega
  have hstops := stops_headPass (B := Touched a l) [.nextSlot, .target] (touched_first hl) hbytes hlies (Nat.zero_le _)
    hshort (by show 0 + min l.toNat 2 < 2 ^ 16; omega)
  rw [← headLanes_eq_maskLanes (by omega) (by omega), ← headLines_eq] at hstops
  rw [hshapes]
  exact (hstops.stopsIn (Nat.zero_le _) hshort rest).after_silent (issues_enterHead ha)

/-- A request with too short a buffer stops in its plan. -/
theorem Shared.start_stops (hlen : b.length < l.toNat) (hm : d = .write → m.wf = true) :
    StopsIn (Touched a l) d a b m (plan a l) ((Shared.start d a l m b).goOn []) := by
  have hl : l ≠ 0 := fun h => by rw [h] at hlen; exact Nat.not_lt_zero _ hlen
  have hq : l.toNat ≤ (b ++ List.replicate l.toNat 0).length := by
    rw [List.length_append, List.length_replicate]
    omega
  rw [plan, List.append_assoc]
  cases ha : vpIsOdd a with
  | false =>
    rw [headShapes_of_even a l ha]
    exact (Shared.start_inShort _ ha hq hm).stops hlen
  | true =>
    by_cases hhead : min l.toNat 2 ≤ b.length
    · obtain ⟨hplace, hissues⟩ := Shared.start_afterHead (d := d) (m := m) _ ha hl hq hhead hm
      exact (hplace.stops hlen).after hissues
    · exact Shared.start_stops_head ha hl (by omega) hm _

end Sys2Proof.Machine

/-! PROOFS. What a stopped request has done, in terms of its plan: the shapes come in the order of their bytes, so those
whose bytes the buffer has are those before the one it stops in (R162, R232). -/

namespace Sys2Proof.Machine

variable {a : VpAddr} {l : Len}

/-! ## The order of the plan's bytes (R162 (a)) -/

theorem count_pos_of_mem_plan {p : Shape} (h : p ∈ plan a l) : 0 < p.count := by
  rw [plan, List.mem_append, List.mem_append] at h
  obtain (h | h) | h := h
  · unfold headShapes at h
    split at h
    · exact absurd h List.not_mem_nil
    · next hn =>
      obtain rfl := List.mem_singleton.mp h
      exact Nat.pos_of_ne_zero hn
  · obtain ⟨j, -, rfl⟩ := List.mem_map.mp h
    exact Nat.succ_pos 3
  · obtain ⟨hn, hcount, -⟩ := mem_tailShapes a l h
    omega

/-- A shape carries no byte of a later one. -/
theorem plan_pairwise (a : VpAddr) (l : Len) : (plan a l).Pairwise fun p q => p.first + p.count ≤ q.first := by
  have hsorted : (carriedBytes (plan a l)).Pairwise (· < ·) := by
    rw [carriedBytes_plan]
    exact List.pairwise_lt_range
  obtain ⟨-, hbytes⟩ := List.pairwise_flatMap.mp hsorted
  refine hbytes.imp_of_mem fun {p q} hp hq h => ?_
  have hp := count_pos_of_mem_plan hp
  have hq := count_pos_of_mem_plan hq
  have hlast := h (p.first + p.count - 1) (List.mem_range'_1.mpr (by omega)) q.first (List.mem_range'_1.mpr (by omega))
  omega

/-- Every byte of a request is carried by a shape. -/
theorem exists_mem_plan {k : Nat} (hk : k < l.toNat) : ∃ p ∈ plan a l, p.first ≤ k ∧ k < p.first + p.count := by
  have hmem : k ∈ carriedBytes (plan a l) := by
    rw [carriedBytes_plan]
    exact List.mem_range.mpr hk
  obtain ⟨p, hp, hk⟩ := List.mem_flatMap.mp hmem
  exact ⟨p, hp, List.mem_range'_1.mp hk⟩

/-! ## The shape a request stops in -/

/-- The plan's shapes are `ps`, then `p`, which begins within the first `n` bytes and does not end there, then others. -/
structure PlanStops (a : VpAddr) (l : Len) (n : Nat) (ps : List Shape) (p : Shape) : Prop where
  split : ∃ rest, plan a l = ps ++ p :: rest
  first : p.first ≤ n
  short : n < p.first + p.count

section
variable {n : Nat} {ps : List Shape} {p : Shape}

/-- A shape of the plan ends where `p` begins or before, or is `p`, or begins where `p` ends or later. -/
theorem PlanStops.order (h : PlanStops a l n ps p) :
    (∀ q ∈ ps, q.first + q.count ≤ p.first) ∧
      ∃ rest, plan a l = ps ++ p :: rest ∧ ∀ q ∈ rest, p.first + p.count ≤ q.first := by
  obtain ⟨⟨rest, hplan⟩, -, -⟩ := h
  have hsorted := plan_pairwise a l
  rw [hplan] at hsorted
  obtain ⟨-, hrest, hps⟩ := List.pairwise_append.mp hsorted
  exact ⟨fun q hq => hps q hq p List.mem_cons_self, rest, hplan, fun q hq => List.rel_of_pairwise_cons hrest hq⟩

/-- The shapes whose bytes the buffer has are those before `p` (R232). -/
theorem PlanStops.filter_covered (h : PlanStops a l n ps p) :
    (plan a l).filter (fun q => decide (q.first + q.count ≤ n)) = ps := by
  have hfirst := h.first
  have hshort := h.short
  obtain ⟨hps, rest, hplan, hrest⟩ := h.order
  have hall : ps.filter (fun q => decide (q.first + q.count ≤ n)) = ps :=
    List.filter_eq_self.mpr fun q hq => decide_eq_true (by have := hps q hq; omega)
  have hnone : (p :: rest).filter (fun q => decide (q.first + q.count ≤ n)) = [] :=
    List.filter_eq_nil_iff.mpr fun q hq => by
      rcases List.mem_cons.mp hq with rfl | hq
      · simpa using hshort
      · have := hrest q hq
        simp only [decide_eq_true_eq]
        omega
  rw [hplan, List.filter_append, hall, hnone, List.append_nil]

/-- The shapes that begin within the buffer or right after it are those up to `p` (R232). -/
theorem PlanStops.filter_begun (h : PlanStops a l n ps p) :
    (plan a l).filter (fun q => decide (q.first ≤ n)) = ps ++ [p] := by
  have hfirst := h.first
  have hshort := h.short
  obtain ⟨hps, rest, hplan, hrest⟩ := h.order
  have hall : ps.filter (fun q => decide (q.first ≤ n)) = ps :=
    List.filter_eq_self.mpr fun q hq => decide_eq_true (by have := hps q hq; omega)
  have hnone : rest.filter (fun q => decide (q.first ≤ n)) = [] :=
    List.filter_eq_nil_iff.mpr fun q hq => by
      have := hrest q hq
      simp only [decide_eq_true_eq]
      omega
  rw [hplan, List.filter_append, hall, List.filter_cons_of_pos (by simpa using hfirst), hnone]

/-- The bytes before `p` are exactly those of the shapes whose bytes the buffer has. -/
theorem PlanStops.lt_first_iff (h : PlanStops a l n ps p) (hn : n < l.toNat) {k : Nat} :
    k < p.first ↔ ∃ q ∈ plan a l, q.first + q.count ≤ n ∧ q.first ≤ k ∧ k < q.first + q.count := by
  have hfirst := h.first
  have hcovered := h.filter_covered
  obtain ⟨hps, rest, hplan, hrest⟩ := h.order
  constructor
  · intro hk
    obtain ⟨q, hq, hle, hlt⟩ := exists_mem_plan (a := a) (l := l) (k := k) (by omega)
    refine ⟨q, hq, ?_, hle, hlt⟩
    rw [hplan, List.mem_append, List.mem_cons] at hq
    obtain hq | rfl | hq := hq
    · have := hps q hq
      omega
    · omega
    · have := hrest q hq
      omega
  · rintro ⟨q, hq, hle, -, hlt⟩
    have hmem : q ∈ ps := by
      rw [← hcovered]
      exact List.mem_filter.mpr ⟨hq, decide_eq_true hle⟩
    have := hps q hmem
    omega

end

/-! ## Whole requests -/

variable {b : List Byte}

/-- What a request that is refused inside leaves outside the bytes it moved. -/
structure State.StoppedIn (s t : State) : Prop where
  refused : step t = .refused .bufferContract
  req : t.hs.req = false
  busy : t.eng.phase ≠ .idle
  masked : t.host.ie = false
  dones : t.port.dones = s.port.dones

/-- A request with too short a buffer runs, with its covered bytes moved, to the refusal. -/
theorem request_stops {s : State} (d : Dir) (hq : s.Quiet) (hs : s.SlotsBacked a l) (hb : s.buf = some b)
    (hlen : b.length < l.toNat) (hm : d = .write → s.vpm.wf = true) :
    ∃ n t ps p, ∃ c : Shared, exec (requestInstr d a l) s = .next (s.accepted d a l) ∧
      runN n (s.accepted d a l) = .next t ∧ s.StoppedIn t ∧ PlanStops a l b.length ps p ∧
      transactions n (s.accepted d a l) = (ps ++ begun d p).map (Shape.descriptor d b s.vpm) ∧
      c.Transferred d a b s.vpm (movedTill d p b.length) ∧ t.vpm = c.vpm ∧ t.buf = some c.buf := by
  have hl : l ≠ 0 := fun h => by rw [h] at hlen; exact Nat.not_lt_zero _ hlen
  obtain ⟨n, u, hstart, hout, hu⟩ := State.accepted_runs d hq hs hb
  obtain ⟨ps, p, rest, hplan, hfirst, hshort, c, hstarved, hmoved, k, hissues⟩ :=
    Shared.start_stops (d := d) (a := a) hlen hm
  obtain ⟨t, hrun, hout', ht⟩ := hissues _ u hu
  obtain ⟨hend, hissued⟩ := hstart.trans hrun
  obtain ⟨hhost, -, -, hdones⟩ := hout.trans hout'
  have hstopped : s.StoppedIn t :=
    { refused := ht.step_refused hstarved, req := ht.req, busy := by rw [ht.eng]; exact ht.busy,
      masked := by rw [hhost]; rfl, dones := hdones }
  exact ⟨_, t, ps, p, c, exec_request hq hl, hend, hstopped, ⟨⟨rest, hplan⟩, hfirst, hshort⟩, hissued, hmoved, ht.vpm,
    ht.buf⟩

/-- Settles O59: `request_stops` in both directions; a write stops before the transaction of its pass, a read after it. -/
theorem shortBufferIsRefusedAtItsFirstMissingByte : Obligations.ShortBufferIsRefusedAtItsFirstMissingByte := by
  unfold Obligations.ShortBufferIsRefusedAtItsFirstMissingByte
  intro s a l b hq hwf hs hb hlen
  refine ⟨?write, ?read⟩
  case write =>
    obtain ⟨n, t, ps, p, c, hexec, hrun, hstop, hplan, hissued, hmoved, hvpm, hbuf⟩ :=
      request_stops .write hq hs hb hlen fun _ => hwf
    obtain ⟨-, hsame, hinside, houtside⟩ := hmoved
    have hiff := fun k => hplan.lt_first_iff hlen (k := k)
    rw [← hvpm] at hinside houtside
    refine ⟨_, n, t, hexec, hrun, hstop.refused, ?_, fun r hr hcovered k hle hlt => ?_, fun x hx => ?_,
      by rw [hbuf, hsame, hb], hstop.req, hstop.busy, hstop.masked, hstop.dones⟩
    · rw [hissued, hplan.filter_covered]
      exact congrArg (List.map _) (List.append_nil ps)
    · exact hinside k ((hiff k).mpr ⟨r, hr, hcovered, hle, hlt⟩)
    · refine houtside x fun ⟨hle, hlt⟩ => ?_
      obtain ⟨k, rfl⟩ : ∃ k, x = requestByte a k := Nat.exists_eq_add_of_le hle
      obtain ⟨r, hr, hcovered, hle, hlt⟩ := (hiff k).mp (Nat.lt_of_add_lt_add_left hlt)
      exact hx r hr hcovered k hle hlt rfl
  case read =>
    obtain ⟨n, t, ps, p, c, hexec, hrun, hstop, hplan, hissued, hmoved, hvpm, hbuf⟩ :=
      request_stops .read hq hs hb hlen nofun
    obtain ⟨hsame, hlength, hinside, -⟩ := hmoved
    refine ⟨_, n, t, c.buf, hexec, hrun, hstop.refused, ?_, hbuf, hlength, hinside, hvpm.trans hsame, hstop.req,
      hstop.busy, hstop.masked, hstop.dones⟩
    rw [hissued, hplan.filter_begun]
    rfl

end Sys2Proof.Machine

/-! PROOFS. Reset at any time and the block it leaves, and the registers of an outstanding transaction, which no turn but the
Device's and a reset changes. -/

namespace Sys2Proof.Machine

/-! ## The registers of an outstanding transaction (R270) -/

/-- While `CTRL.REQ = 1` a line that answers a next state is none of those that access a register. -/
theorem LineStep.hs_of_req {s t : State} {m : Micro} (h : LineStep s m t) (hr : s.hs.req = true) : t.hs = s.hs := by
  have refused : s.hs.req = false → t.hs = s.hs := fun h0 => nomatch hr.symm.trans h0
  cases m with
  | setSlot => obtain rfl : t = _ := h; rfl
  | nextSlot => obtain rfl : t = _ := h; rfl
  | target => exact refused h.1
  | autoInc on => exact refused h.1
  | stage l off => exact refused h.1
  | executeWrite k => exact refused h.1
  | executeRead => exact refused h.1
  | extract l off => exact refused h.1
  | consume n => obtain rfl : t = _ := h; rfl
  | release => exact refused h.1
  | finish => obtain rfl : t = _ := h; rfl

/-- While `CTRL.REQ = 1` the operations other than the Device's that answer a next state are a poll, a request and the
interrupt-mask operations, which write no handshake register. -/
theorem ExecStep.hs_of_req {s t : State} {i : Instr} (h : ExecStep s i t) (hr : s.hs.req = true)
    (hi : ∀ d m, i ≠ .devComplete d m) : t.hs = s.hs := by
  have refused : s.hs.req = false → t.hs = s.hs := fun h0 => nomatch hr.symm.trans h0
  have accepted : ∀ {d a l}, AcceptStep s d a l t → t.hs = s.hs := by
    rintro d a l ⟨-, ⟨-, rfl⟩ | ⟨-, -, rfl⟩ | ⟨-, -, rfl⟩⟩ <;> rfl
  cases i with
  | vpWrite a l => exact accepted h
  | vpRead a l => exact accepted h
  | setTarget a => exact refused h.1
  | setAutoIncrement on => exact refused h.1
  | loadLane l v => exact refused h.1
  | readLane l => exact refused h.1
  | executeWrite m => exact refused h.1
  | executeRead => exact refused h.1
  | pollCtrl => obtain rfl : t = _ := h; rfl
  | devComplete d m => exact absurd rfl (hi d m)
  | release => exact refused h.1
  | irqMask => obtain rfl : t = _ := h; rfl
  | irqRestore => obtain rfl : t = _ := h; rfl

theorem State.engineTurn_hs_of_req {s t : State} (h : s.engineTurn = .next t) (hr : s.hs.req = true) : t.hs = s.hs := by
  rcases State.engineTurn_next h with ⟨-, rfl⟩ | ⟨-, -, rfl⟩ | ⟨-, m, rest, -, hl⟩
  · rfl
  · exact s.leavePhase_frame.1
  · exact hl.hs_of_req hr

theorem State.presentTurn_hs_of_req {s t : State} (h : s.presentTurn = .next t) (hr : s.hs.req = true) : t.hs = s.hs := by
  rcases State.presentTurn_next h with rfl | ⟨-, b, rest, -, rfl⟩ | ⟨-, i, q, -, hi, he⟩
  · rfl
  · rfl
  · exact (exec_next he).hs_of_req hr hi

/-- The owners of the handshake registers (O42) while a transaction is outstanding: of the Engine, the ports, the Device and
a reset only the last two change them. -/
theorem step_hs_of_req {s t : State} (hr : s.hs.req = true) (h : step s = .next t) (hne : t.hs ≠ s.hs) :
    s.nextTurn = .device ∨ ∃ d, s.nextTurn = .reset d := by
  rcases handshakeRegistersHaveTheirOwners s t h hne with hn | hn | ⟨hn, -⟩ | hn
  · rw [step_of_turn hn] at h
    exact absurd (State.engineTurn_hs_of_req (s := s.popTurn) h hr) hne
  · exact .inl hn
  · rw [step_of_turn hn] at h
    exact absurd (State.presentTurn_hs_of_req (s := s.popTurn) h hr) hne
  · exact .inr hn

/-- Settles O28: each writing operation asks for a free bus, and `step_hs_of_req` leaves the Device and a reset. -/
theorem outstandingTransactionKeepsItsRegisters : Obligations.OutstandingTransactionKeepsItsRegisters := by
  unfold Obligations.OutstandingTransactionKeepsItsRegisters
  intro s hr
  have busy : ∀ t : State, s.whenIdleBus t = .refused .transactionOutstanding := fun _ => State.whenIdleBus_of_req hr
  exact ⟨fun _ => busy _, fun _ => busy _, fun _ _ => busy _, fun _ hm => (if_neg hm).trans (busy _), busy _, busy _,
    fun _ h hne => step_hs_of_req hr h hne⟩

/-! ## The bytes that land when a reset strikes (R262) -/

/-- A lane is in two masks together where it is in both. -/
theorem laneEnabled_and (m k : Mask) (l : Lane) :
    laneEnabled (m &&& k) l = true ↔ laneEnabled m l = true ∧ laneEnabled k l = true := by
  rw [laneEnabled, BitVec.getLsbD_and, Bool.and_eq_true]
  rfl

/-- With a transaction outstanding to a backed slot, the enabled lanes that landed are stored. -/
theorem State.resetMemory_of_req {s : State} (landed : Mask) (hr : s.hs.req = true)
    (hb : s.par.slotBacked s.hs.addr = true) :
    s.resetMemory landed = s.vpm.storeLanes s.hs.addr (s.hs.mask &&& landed) s.hs.lanes :=
  if_pos (Bool.and_eq_true_iff.mpr ⟨hr, hb⟩)

/-- With nothing outstanding, or no storage behind the slot, a reset leaves memory alone. -/
theorem State.resetMemory_of_not {s : State} (landed : Mask)
    (h : ¬ (s.hs.req = true ∧ s.par.slotBacked s.hs.addr = true)) : s.resetMemory landed = s.vpm :=
  if_neg fun c => h (Bool.and_eq_true_iff.mp c)

theorem State.read_resetMemory_landed {s : State} {landed : Mask} (hwf : s.vpm.wf = true) (hr : s.hs.req = true)
    (hb : s.par.slotBacked s.hs.addr = true) {l : Lane} (hm : laneEnabled s.hs.mask l = true)
    (hl : laneEnabled landed l = true) : (s.resetMemory landed).read (laneAddr s.hs.addr l) = s.hs.lanes.get l := by
  rw [State.resetMemory_of_req landed hr hb]
  exact Memory.read_storeLanes_enabled hwf _ _ _ l ((laneEnabled_and ..).mpr ⟨hm, hl⟩)

theorem State.read_resetMemory_other {s : State} {landed : Mask} (hwf : s.vpm.wf = true) {x : Nat}
    (hx : ∀ l, s.hs.req = true → s.par.slotBacked s.hs.addr = true → laneEnabled s.hs.mask l = true →
      laneEnabled landed l = true → x ≠ laneAddr s.hs.addr l) : (s.resetMemory landed).read x = s.vpm.read x := by
  by_cases h : s.hs.req = true ∧ s.par.slotBacked s.hs.addr = true
  · obtain ⟨hr, hb⟩ := h
    rw [State.resetMemory_of_req landed hr hb]
    refine Memory.read_storeLanes_other hwf _ _ _ x fun l hl => ?_
    obtain ⟨hm, hlanded⟩ := (laneEnabled_and ..).mp hl
    exact hx l hr hb hm hlanded
  · rw [State.resetMemory_of_not landed h]

/-- Settles O13: the turn is `State.resetTurn`, and `State.resetMemory` is known byte by byte. -/
theorem resetAtAnyTime : Obligations.ResetAtAnyTime := by
  unfold Obligations.ResetAtAnyTime
  intro s d hn hwf
  exact ⟨s.popTurn.resetTurn d, step_of_turn hn, rfl, rfl, rfl, rfl, rfl, rfl, rfl, rfl, rfl,
    fun _ hr hb hm hl => State.read_resetMemory_landed (s := s.popTurn) hwf hr hb hm hl,
    fun _ hx => State.read_resetMemory_other (s := s.popTurn) hwf hx⟩

/-! ## The block after a reset (R260, R261) -/

/-- An Engine that waits for nothing is free where `CTRL` is clear. -/
theorem State.blocked_of_ctrl_zero {s : State} (hw : s.eng.waiting = false) (hc : s.hs.ctrl = 0) : s.blocked = false := by
  refine State.blocked_eq_false.mpr ⟨hw, ?_⟩
  rw [Handshake.req, hc]
  decide

/-- Between requests a free Engine takes a request of any length: it enters `AddressSet` with the request's parameters, or,
with nothing to move, is done. -/
theorem State.takes_request {s : State} (hp : s.eng.phase = .idle) (hb : s.blocked = false) (d : Dir) (a : VpAddr)
    (l : Len) :
    ∃ t, exec (requestInstr d a l) s = .next t ∧
      (l ≠ 0 → t.eng.phase = .addressSet ∧ t.eng.op = d ∧ t.eng.vp = a ∧ t.eng.rem = l) ∧
      (l = 0 → t.eng.phase = .idle ∧ t.port.dones = s.port.dones + 1) := by
  rw [exec_requestInstr]
  by_cases hl : l = 0
  · subst hl
    exact ⟨_, State.accept_zero d a hp hb, fun h => absurd rfl h, fun _ => ⟨rfl, rfl⟩⟩
  · exact ⟨_, State.accept_pos d a hp hb hl, fun _ => ⟨rfl, rfl, rfl, rfl⟩, fun h => absurd h hl⟩

/-- Settles O14: both states are in `Idle` with `CTRL` clear and no wait, which is all that acceptance asks for. -/
theorem resetBlockAcceptsARequest : Obligations.ResetBlockAcceptsARequest := by
  unfold Obligations.ResetBlockAcceptsARequest
  intro s d o a l
  have hdrawn : (s.resetTurn d).blocked = false := State.blocked_of_ctrl_zero rfl rfl
  have hreset : State.reset.blocked = false := State.blocked_of_ctrl_zero rfl rfl
  exact ⟨⟨rfl, hdrawn, State.takes_request rfl hdrawn o a l⟩, ⟨rfl, hreset, State.takes_request rfl hreset o a l⟩⟩

/-- Settles O16, by the parts of the invariant: memory lists nothing, `CTRL` is clear, and the Engine is in `Idle` with no
line left. -/
theorem resetHasTheInvariant : Obligations.ResetHasTheInvariant := by
  unfold Obligations.ResetHasTheInvariant
  exact (State.inv_iff _).mpr
    ⟨rfl, State.busInv_of_ctrl_zero rfl, fun h => absurd rfl h, Engine.linesInv_of_idle rfl rfl⟩

end Sys2Proof.Machine
